-- ==== Sys2Proof/Config.lean ====
section
/-! DEFINITION. The parameters of the model (00_scope.md R6) with their default values, and which settings
are admissible (00_scope.md R7, 20_memory.md R30). -/

namespace Sys2Proof

/-- The bit positions the source does not give: the least significant bit of the opcode field, of regA
and of regB (`OP_LSB`, `RA_LSB`, `RB_LSB` of 00_scope.md R6; decision D1). destReg stands at bits 2 to 0
and offset at bits 15 to 0 in every layout. -/
structure Layout where
  opLsb : Nat
  raLsb : Nat
  rbLsb : Nat
  deriving DecidableEq, Repr

/-- The default layout STD (30_encoding.md R51). -/
def Layout.std : Layout := ⟨22, 19, 16⟩

/-- The alternative layout ALT (30_encoding.md R70). -/
def Layout.alt : Layout := ⟨28, 25, 22⟩

/-- The constraints every layout satisfies (00_scope.md R7): fields do not overlap and at least one high
bit is unused. -/
def Layout.admissible (L : Layout) : Bool :=
  decide (16 ≤ L.rbLsb) && decide (L.rbLsb + 3 ≤ L.raLsb) && decide (L.raLsb + 3 ≤ L.opLsb)
    && decide (L.opLsb + 3 ≤ 31)

/-- `R0_WRITE_POLICY`: what a write to register 0 does (10_state.md R13, decision D4). -/
inductive R0WritePolicy where
  | ignore
  | fatal
  deriving DecidableEq, Repr

/-- `UNUSED_BITS_POLICY`: what execute does with a word whose high unused bits are not all 0
(30_encoding.md R63, decision D2). -/
inductive UnusedBitsPolicy where
  | ignore
  | fatal
  deriving DecidableEq, Repr

/-- `UNDEFINED_LABEL_POLICY`: what `lookup` does with an absent name (46_assembler.md R156, decision D5). -/
inductive UndefinedLabelPolicy where
  | fatal
  | sentinel
  deriving DecidableEq, Repr

/-- `OFFSET_RANGE_POLICY`: what encoding does with an offset outside 16 bits (30_encoding.md R67, decision D6). -/
inductive OffsetRangePolicy where
  | reject
  | wrap
  deriving DecidableEq, Repr

/-- `LABEL_NAME_POLICY`: whether `define` checks the naming rule (46_assembler.md R155, decision D16). -/
inductive LabelNamePolicy where
  | strict
  | loose
  deriving DecidableEq, Repr

/-- `REF_JALR`: what `jalr` does in the sequential reference model only (42_control.md R92, decision D15). -/
inductive RefJalrPolicy where
  | linkThenJump
  | none
  deriving DecidableEq, Repr

/-- The parameters of 00_scope.md R6, fixed before reset; no instruction observes or changes them
(10_state.md R17). -/
structure Config where
  layout : Layout
  memSize : Nat
  r0Write : R0WritePolicy
  unusedBits : UnusedBitsPolicy
  undefinedLabel : UndefinedLabelPolicy
  offsetRange : OffsetRangePolicy
  labelName : LabelNamePolicy
  refJalr : RefJalrPolicy
  deriving DecidableEq, Repr

/-- The default value of every parameter (00_scope.md R6). -/
def Config.default : Config where
  layout := .std
  memSize := 65536
  r0Write := .ignore
  unusedBits := .ignore
  undefinedLabel := .fatal
  offsetRange := .reject
  labelName := .strict
  refJalr := .linkThenJump

/-- A setting the spec admits: an admissible layout (00_scope.md R7) and `1 <= MEM_SIZE <= 2^31 - 1`
(20_memory.md R30). -/
def Config.admissible (c : Config) : Bool :=
  c.layout.admissible && decide (1 ≤ c.memSize) && decide (c.memSize ≤ 2 ^ 31 - 1)

end Sys2Proof
end

