-- ==== Sys2Proof/Word.lean ====
section
/-! DEFINITION. The machine word and the register number, and the two readings of a word. -/

namespace Sys2Proof

/-- A word: "a 32-bit value", the unit of registers, of memory and of instructions (10_state.md R10,
20_memory.md R31). Arithmetic on words is modulo 2^32 (40_alu.md R80). -/
abbrev Word := BitVec 32

/-- The number of a general register, the content of a 3-bit register field: it can name every one of
the 8 registers and nothing else (10_state.md R11). -/
abbrev RegIdx := BitVec 3

/-- `u32(v)`, the unsigned reading of a word (00_scope.md, section 4). -/
abbrev Word.u32 (w : Word) : Nat := w.toNat

/-- `s32(v)`, the two's-complement signed reading of a word (00_scope.md, section 4). -/
abbrev Word.s32 (w : Word) : Int := w.toInt

end Sys2Proof
end

