-- ==== Sys2Proof/Syntax.lean ====
section
/-! DEFINITION. The instructions of the opcode table, the four formats, and the codec's tagged form. -/

namespace Sys2Proof

/-- The closed opcode table (30_encoding.md R56): eight opcodes, none free. -/
inductive Opcode where
  | add | nor | lw | sw | beq | jalr | halt | noop
  deriving DecidableEq, Repr

/-- The four formats (30_encoding.md R52 to R55). -/
inductive Format where
  | R | I | J | O
  deriving DecidableEq, Repr

/-- `format(op)`: the format of a word is a function of its opcode alone (30_encoding.md R57). -/
def Opcode.format : Opcode → Format
  | .add => .R
  | .nor => .R
  | .lw => .I
  | .sw => .I
  | .beq => .I
  | .jalr => .J
  | .halt => .O
  | .noop => .O

/-- One constructor per row of spec/opcode_table.json. Register operands stand in the source's order
regA, regB, destReg; an offset is its signed value, -32768 to 32767 where it fits the field. -/
inductive Instr where
  /-- `add regA regB destReg` (40_alu.md R81). -/
  | add (regA regB destReg : RegIdx)
  /-- `nor regA regB destReg` (40_alu.md R82). -/
  | nor (regA regB destReg : RegIdx)
  /-- `lw regA regB offset` (41_loadstore.md R86). -/
  | lw (regA regB : RegIdx) (offset : Int)
  /-- `sw regA regB offset` (41_loadstore.md R87). -/
  | sw (regA regB : RegIdx) (offset : Int)
  /-- `beq regA regB offset` (42_control.md R91). -/
  | beq (regA regB : RegIdx) (offset : Int)
  /-- `jalr regA regB` (42_control.md R92). -/
  | jalr (regA regB : RegIdx)
  /-- `halt` (43_system.md R96). -/
  | halt
  /-- `noop` (43_system.md R97). -/
  | noop
  deriving DecidableEq, Repr

/-- The opcode of an instruction. -/
def Instr.opcode : Instr → Opcode
  | .add _ _ _ => .add
  | .nor _ _ _ => .nor
  | .lw _ _ _ => .lw
  | .sw _ _ _ => .sw
  | .beq _ _ _ => .beq
  | .jalr _ _ => .jalr
  | .halt => .halt
  | .noop => .noop

/-- The codec's tagged variant (30_encoding.md R57, R61), with raw numbers: it can hold field values that
no instruction has, which `encodeFields` refuses. -/
inductive Fields where
  | rType (op regA regB destReg : Nat)
  | iType (op regA regB : Nat) (offset : Int)
  | jType (op regA regB : Nat)
  | oType (op : Nat)
  deriving DecidableEq, Repr

/-- The raw fields of an instruction. -/
def Instr.fields : Instr → Fields
  | .add a b d => .rType 0 a.toNat b.toNat d.toNat
  | .nor a b d => .rType 1 a.toNat b.toNat d.toNat
  | .lw a b o => .iType 2 a.toNat b.toNat o
  | .sw a b o => .iType 3 a.toNat b.toNat o
  | .beq a b o => .iType 4 a.toNat b.toNat o
  | .jalr a b => .jType 5 a.toNat b.toNat
  | .halt => .oType 6
  | .noop => .oType 7

/-- Why `encode` refuses a field tuple: one name per precondition of 30_encoding.md R60. -/
inductive EncodeRefusal where
  /-- The opcode number is not one the format holds (`format = format(op)` and `0 <= op <= 7`). -/
  | opcodeNotOfFormat
  /-- A register field present in the format is above 7. -/
  | registerOutOfRange
  /-- The offset is outside -32768 to 32767 under `OFFSET_RANGE_POLICY = reject` (30_encoding.md R67). -/
  | offsetOutOfRange
  deriving DecidableEq, Repr

/-- Why a number is no instruction word. Every 32-bit word is an instruction (30_encoding.md R64), so only
a number that is no 32-bit word is rejected. -/
inductive DecodeRefusal where
  | notA32BitWord
  deriving DecidableEq, Repr

end Sys2Proof
end

