-- ==== Sys2Proof/WellFormed.lean ====
section
/-! DEFINITION. Which instructions and field tuples are well formed: the preconditions of `encode`
(30_encoding.md R60). -/

namespace Sys2Proof

/-- The offset fits its 16-bit signed field (30_encoding.md R60, R67). -/
def offsetFits (off : Int) : Bool := decide (-32768 ≤ off) && decide (off ≤ 32767)

/-- A register field holds 0 to 7 (10_state.md R11). -/
def registerFits (r : Nat) : Bool := decide (r ≤ 7)

/-- The opcode numbers of a format (30_encoding.md R57). -/
def opcodeOfFormat (f : Format) (op : Nat) : Bool :=
  match f with
  | .R => decide (op ≤ 1)
  | .I => decide (2 ≤ op) && decide (op ≤ 4)
  | .J => decide (op = 5)
  | .O => decide (op = 6) || decide (op = 7)

/-- The preconditions of `encode(format, op, fields)` (30_encoding.md R60), the offset range among them. -/
def Fields.wellFormed : Fields → Bool
  | .rType op a b d => opcodeOfFormat .R op && registerFits a && registerFits b && registerFits d
  | .iType op a b off => opcodeOfFormat .I op && registerFits a && registerFits b && offsetFits off
  | .jType op a b => opcodeOfFormat .J op && registerFits a && registerFits b
  | .oType op => opcodeOfFormat .O op

/-- A well-formed instruction: its register operands are 3-bit numbers by type, so the check left is that
an offset fits its field. -/
def Instr.wellFormed : Instr → Bool
  | .add _ _ _ => true
  | .nor _ _ _ => true
  | .lw _ _ off => offsetFits off
  | .sw _ _ off => offsetFits off
  | .beq _ _ off => offsetFits off
  | .jalr _ _ => true
  | .halt => true
  | .noop => true

end Sys2Proof
end

