-- ==== Sys2Proof/Decode.lean ====
section
/-! DEFINITION. The instruction codec (30_encoding.md): field accessors, decode, and the encoder. Every
position comes from the layout, so the codec is right for every admissible layout. -/

namespace Sys2Proof

/-! ### Accessors (30_encoding.md R58). They are total and may be applied to a word of any format. -/

/-- The three bits of `w` from bit `lsb` up. -/
def field3 (lsb : Nat) (w : Word) : BitVec 3 := w.extractLsb' lsb 3

/-- `sext_16`: the word whose signed reading is that of the 16-bit value (00_scope.md, section 4). -/
def sext16 (v : BitVec 16) : Word := v.signExtend 32

/-- `opcode(w)` as bits. -/
def opcodeBits (L : Layout) (w : Word) : BitVec 3 := field3 L.opLsb w

/-- `regA(w)`. -/
def regA (L : Layout) (w : Word) : RegIdx := field3 L.raLsb w

/-- `regB(w)`. -/
def regB (L : Layout) (w : Word) : RegIdx := field3 L.rbLsb w

/-- `destReg(w)`: bits 2 to 0 in every layout. -/
def destReg (w : Word) : RegIdx := field3 0 w

/-- `offset16(w)`: bits 15 to 0 in every layout. -/
def offset16 (w : Word) : BitVec 16 := w.extractLsb' 0 16

/-- `offset(w) = sext_16(offset16(w))` (30_encoding.md R58, R59). -/
def offsetWord (w : Word) : Word := sext16 (offset16 w)

/-- The bits above the opcode field (default 31:25) are all 0 (30_encoding.md R63). -/
def highBitsClear (L : Layout) (w : Word) : Bool := w >>> (L.opLsb + 3) == 0#32

/-! ### The opcode table (30_encoding.md R56). -/

/-- The opcode a 3-bit value names; all 8 values are assigned. -/
def opcodeOfBits (b : BitVec 3) : Opcode :=
  if b = 0#3 then .add
  else if b = 1#3 then .nor
  else if b = 2#3 then .lw
  else if b = 3#3 then .sw
  else if b = 4#3 then .beq
  else if b = 5#3 then .jalr
  else if b = 6#3 then .halt
  else .noop

/-- The 3-bit value of an opcode. -/
def opcodeToBits : Opcode → BitVec 3
  | .add => 0#3
  | .nor => 1#3
  | .lw => 2#3
  | .sw => 3#3
  | .beq => 4#3
  | .jalr => 5#3
  | .halt => 6#3
  | .noop => 7#3

/-- The opcode of a word; "every later stage re-decodes opcode from the carried instruction word"
(10_state.md R20). -/
def opcodeOf (L : Layout) (w : Word) : Opcode := opcodeOfBits (opcodeBits L w)

/-! ### Decode (30_encoding.md R61). -/

/-- The instruction a word spells. It is total on 32-bit words; bits that belong to no field of the
format do not appear in the result (30_encoding.md R61, R64). -/
def decode (L : Layout) (w : Word) : Instr :=
  match opcodeOf L w with
  | .add => .add (regA L w) (regB L w) (destReg w)
  | .nor => .nor (regA L w) (regB L w) (destReg w)
  | .lw => .lw (regA L w) (regB L w) (offset16 w).toInt
  | .sw => .sw (regA L w) (regB L w) (offset16 w).toInt
  | .beq => .beq (regA L w) (regB L w) (offset16 w).toInt
  | .jalr => .jalr (regA L w) (regB L w)
  | .halt => .halt
  | .noop => .noop

/-- `decode(word) -> (opcode, fields-per-format)` as the spec writes it, over raw numbers (30_encoding.md R61). -/
def decodeFields (L : Layout) (w : Word) : Fields :=
  let op := (opcodeBits L w).toNat
  match (opcodeOf L w).format with
  | .R => .rType op (regA L w).toNat (regB L w).toNat (destReg w).toNat
  | .I => .iType op (regA L w).toNat (regB L w).toNat (offset16 w).toInt
  | .J => .jType op (regA L w).toNat (regB L w).toNat
  | .O => .oType op

/-- Decoding a number: rejected by name unless it is a 32-bit word. -/
def decodeNumber (L : Layout) (n : Nat) : Except DecodeRefusal Instr :=
  if n < 2 ^ 32 then .ok (decode L (BitVec.ofNat 32 n)) else .error .notA32BitWord

/-- The decoder as the host numbers an instruction's bits: one 32-bit word (30_encoding.md R50), in the
default layout that spec/opcode_table.json is written for. -/
def decodeTableWord (nbits w : Nat) : Option Instr :=
  match decodeNumber .std (w % 2 ^ nbits) with
  | .ok i => some i
  | .error _ => none

/-! ### Encode (30_encoding.md R60). -/

/-- A 3-bit field placed with its least significant bit at `lsb`. -/
def place3 (v : BitVec 3) (lsb : Nat) : Word := v.setWidth 32 <<< lsb

/-- `op << OP_LSB`. -/
def opcodePart (L : Layout) (o : Opcode) : Word := place3 (opcodeToBits o) L.opLsb

/-- The R-type word (30_encoding.md R52, R60). -/
def encodeR (L : Layout) (o : Opcode) (a b d : RegIdx) : Word :=
  opcodePart L o ||| place3 a L.raLsb ||| place3 b L.rbLsb ||| place3 d 0

/-- The I-type word: the offset field is `off mod 65536` (30_encoding.md R53, R60). -/
def encodeI (L : Layout) (o : Opcode) (a b : RegIdx) (off : Int) : Word :=
  opcodePart L o ||| place3 a L.raLsb ||| place3 b L.rbLsb ||| (BitVec.ofInt 16 off).setWidth 32

/-- The J-type word (30_encoding.md R54, R60). -/
def encodeJ (L : Layout) (o : Opcode) (a b : RegIdx) : Word :=
  opcodePart L o ||| place3 a L.raLsb ||| place3 b L.rbLsb

/-- The O-type word (30_encoding.md R55, R60). -/
def encodeO (L : Layout) (o : Opcode) : Word := opcodePart L o

/-- The word of an instruction; for one whose offset does not fit, the word that the `wrap` policy gives. -/
def encode (L : Layout) (i : Instr) : Word :=
  match i with
  | .add a b d => encodeR L .add a b d
  | .nor a b d => encodeR L .nor a b d
  | .lw a b off => encodeI L .lw a b off
  | .sw a b off => encodeI L .sw a b off
  | .beq a b off => encodeI L .beq a b off
  | .jalr a b => encodeJ L .jalr a b
  | .halt => encodeO L .halt
  | .noop => encodeO L .noop

/-- The opcode number of the raw field form as an opcode (`0 <= op <= 7` holds where it is used). -/
def opcodeOfNumber (op : Nat) : Opcode := opcodeOfBits (BitVec.ofNat 3 op)

/-- `encode(format, op, fields) -> word` with its refusals (30_encoding.md R60), and the offset policy of
R67: `reject` refuses an offset outside the field, `wrap` keeps its low 16 bits. -/
def encodeFields (L : Layout) (p : OffsetRangePolicy) (f : Fields) : Except EncodeRefusal Word :=
  match f with
  | .rType op a b d =>
    if !opcodeOfFormat .R op then .error .opcodeNotOfFormat
    else if !(registerFits a && registerFits b && registerFits d) then .error .registerOutOfRange
    else .ok (encodeR L (opcodeOfNumber op) (BitVec.ofNat 3 a) (BitVec.ofNat 3 b) (BitVec.ofNat 3 d))
  | .iType op a b off =>
    if !opcodeOfFormat .I op then .error .opcodeNotOfFormat
    else if !(registerFits a && registerFits b) then .error .registerOutOfRange
    else if p = .reject ∧ offsetFits off = false then .error .offsetOutOfRange
    else .ok (encodeI L (opcodeOfNumber op) (BitVec.ofNat 3 a) (BitVec.ofNat 3 b) off)
  | .jType op a b =>
    if !opcodeOfFormat .J op then .error .opcodeNotOfFormat
    else if !(registerFits a && registerFits b) then .error .registerOutOfRange
    else .ok (encodeJ L (opcodeOfNumber op) (BitVec.ofNat 3 a) (BitVec.ofNat 3 b))
  | .oType op =>
    if !opcodeOfFormat .O op then .error .opcodeNotOfFormat
    else .ok (encodeO L (opcodeOfNumber op))

/-- The bits that the fields of a format cover (30_encoding.md R51 to R55). -/
def fieldMask (L : Layout) (f : Format) : Word :=
  let op := place3 7#3 L.opLsb
  let ab := place3 7#3 L.raLsb ||| place3 7#3 L.rbLsb
  match f with
  | .R => op ||| ab ||| place3 7#3 0
  | .I => op ||| ab ||| 0xFFFF#32
  | .J => op ||| ab
  | .O => op

/-- Every bit outside the fields of the word's own format is 0 (30_encoding.md R62, R63). -/
def unusedBitsClear (L : Layout) (w : Word) : Bool :=
  w &&& ~~~ fieldMask L (opcodeOf L w).format == 0#32

/-- The canonical no-op word `NOOP = encode(O, 7)` (30_encoding.md R65). -/
def noopWord (L : Layout) : Word := encode L .noop

/-- The canonical halt word `HALT = encode(O, 6)` (30_encoding.md R65). -/
def haltWord (L : Layout) : Word := encode L .halt

end Sys2Proof
end

