-- ==== Sys2Proof/Machine/State.lean ====
section
/-! DEFINITION. The state of the pipelined machine (10_state.md), its faults and refusals, and its value
after reset (10_state.md R29). -/

namespace Sys2Proof.Machine

/-- The fatal faults of the datapath (60_exceptions.md R191); each ends the run (R190). -/
inductive Fault where
  /-- Raised by fetch when `pc` is outside `[0, MEM_SIZE)`, and by the memory stage of a `lw` or `sw`
  (and by `exec` of the same) whose address is; carries the address (60_exceptions.md R192).
  The spec's own fault: safe. -/
  | outOfBoundsMemory (address : Word)
  /-- Raised by execute under `UNUSED_BITS_POLICY = fatal` only, for a word with non-zero bits above its
  opcode field; carries the word (60_exceptions.md R193). The spec's own fault: safe. -/
  | unrecognizedOpcode (word : Word)
  /-- Raised by nobody: a 3-bit field always names a register. Kept for the taxonomy's sake
  (60_exceptions.md R194). Safe. -/
  | outOfBoundsRegister (index : Nat)
  /-- Raised by writeback (and by `exec` of `add`, `nor`, `lw`) under `R0_WRITE_POLICY = fatal` only, for a
  write to register 0; carries the instruction word (60_exceptions.md R195). The spec's own fault: safe. -/
  | writeToRegisterZero (word : Word)
  deriving DecidableEq, Repr

/-- Why an instruction has no meaning. -/
inductive Refusal where
  /-- The instruction of this mnemonic is not modelled; raised by an arm of `exec` only, and no arm is
  left that raises it. Safe: nothing can be proved of a run that meets it. -/
  | notModelled (mnemonic : String)
  deriving DecidableEq, Repr

/-- The run status (10_state.md R27). A run is over in the second and in the third. -/
inductive RunStatus where
  | running
  | halted
  | faulted (reason : Fault)
  deriving DecidableEq, Repr

/-- One memory array, word-addressed (20_memory.md R31): pairs of a word address and the word stored
there. An address with no pair reads as 0, the reset content above the image (10_state.md R29). The
canonical form is `Memory.wf`. -/
structure Memory where
  cells : List (Nat × Word)
  deriving DecidableEq, Repr

/-- IFID, between fetch and decode (10_state.md R21). -/
structure IfId where
  instr : Word
  pcPlus1 : Word
  deriving DecidableEq, Repr

/-- IDEX, between decode and execute (10_state.md R22). -/
structure IdEx where
  instr : Word
  pcPlus1 : Word
  readRegA : Word
  readRegB : Word
  offset : Word
  deriving DecidableEq, Repr

/-- EXMEM, between execute and memory (10_state.md R23). -/
structure ExMem where
  instr : Word
  branchTarget : Word
  aluResult : Word
  readRegB : Word
  deriving DecidableEq, Repr

/-- MEMWB, between memory and writeback (10_state.md R24). -/
structure MemWb where
  instr : Word
  writeData : Word
  deriving DecidableEq, Repr

/-- WBEND, "a trailing WB/END for trace purposes" (10_state.md R25). -/
structure WbEnd where
  instr : Word
  writeData : Word
  deriving DecidableEq, Repr

/-- The state of the pipelined machine (10_state.md): everything the spec gives it. `cfg` is the model's
own field: the fixed parameters of 00_scope.md R6, carried so that the host's one-argument `step` holds
for every setting; no step changes it. -/
structure State where
  /-- The parameters (00_scope.md R6); no instruction reads or changes them (10_state.md R17). -/
  cfg : Config
  /-- The word address of the next instruction fetched (10_state.md R14). -/
  pc : Word
  /-- The stored words of registers 0 to 7 (10_state.md R11); slot 0 is always 0 (R12). -/
  regs : Vector Word 8
  /-- `instructionMemory`, read by fetch only (10_state.md R18). -/
  imem : Memory
  /-- `dataMemory`, read by `lw` and written by `sw` (10_state.md R19). -/
  dmem : Memory
  ifid : IfId
  idex : IdEx
  exmem : ExMem
  memwb : MemWb
  wbend : WbEnd
  /-- The number of steps since reset, unbounded (10_state.md R26). -/
  cycleCount : Nat
  /-- The run status (10_state.md R27). -/
  status : RunStatus
  deriving DecidableEq, Repr

/-- A memory with nothing listed: every word 0. -/
def Memory.empty : Memory := ⟨[]⟩

/-- A squashed IFID: `instr` is `NOOP`, every other field 0 (44_pipeline.md R106); also its reset value. -/
def IfId.squashed (L : Layout) : IfId := ⟨noopWord L, 0⟩

/-- A squashed IDEX (44_pipeline.md R106); also its reset value. -/
def IdEx.squashed (L : Layout) : IdEx := ⟨noopWord L, 0, 0, 0, 0⟩

/-- A squashed EXMEM (44_pipeline.md R106); also its reset value. -/
def ExMem.squashed (L : Layout) : ExMem := ⟨noopWord L, 0, 0, 0⟩

/-- The reset value of MEMWB (10_state.md R29); it is never squashed. -/
def MemWb.noop (L : Layout) : MemWb := ⟨noopWord L, 0⟩

/-- The reset value of WBEND (10_state.md R29). -/
def WbEnd.noop (L : Layout) : WbEnd := ⟨noopWord L, 0⟩

/-- The state after reset with both memories holding `m` (10_state.md R29, 70_reset_and_hazards.md R210). -/
def State.initial (c : Config) (m : Memory) : State where
  cfg := c
  pc := 0
  regs := Vector.replicate 8 0
  imem := m
  dmem := m
  ifid := .squashed c.layout
  idex := .squashed c.layout
  exmem := .squashed c.layout
  memwb := .noop c.layout
  wbend := .noop c.layout
  cycleCount := 0
  status := .running

/-- The machine right after reset, default parameters, with the empty image (10_state.md R29 with `L = 0`;
70_reset_and_hazards.md R211 accepts it). A program is loaded by `load` or by `State.withFetchWord`. -/
def State.reset : State := .initial .default .empty

end Sys2Proof.Machine
end

