-- ==== Sys2Proof/Machine/Ops.lean ====
section
/-! DEFINITION. The named operations over memory and registers, and how a run stops. -/

namespace Sys2Proof.Machine

/-! ### Memory arrays -/

/-- The canonical form of a memory's list: addresses strictly rising, and no entry equal to what an
unlisted address reads as. -/
def Memory.wf (m : Memory) : Bool :=
  decide (m.cells.Pairwise (fun p q => p.1 < q.1)) && m.cells.all (fun p => p.2 != 0#32)

/-- What an address no cell lists reads as: 0, the reset content above the image (10_state.md R29). -/
def Memory.unlisted : Word := 0#32

/-- The word a list of cells holds at an address. -/
def readCells : List (Nat × Word) → Nat → Word
  | [], _ => Memory.unlisted
  | (b, v) :: cs, a => if b = a then v else readCells cs a

/-- The word at an address. -/
def Memory.read (m : Memory) (a : Nat) : Word := readCells m.cells a

/-- Cells in rising order with address `a` set to `v`; a word equal to the unlisted one leaves no cell. -/
def writeCells : List (Nat × Word) → Nat → Word → List (Nat × Word)
  | [], a, v => if v = Memory.unlisted then [] else [(a, v)]
  | (b, u) :: cs, a, v =>
    if a < b then (if v = Memory.unlisted then (b, u) :: cs else (a, v) :: (b, u) :: cs)
    else if a = b then (if v = Memory.unlisted then cs else (a, v) :: cs)
    else (b, u) :: writeCells cs a v

/-- The memory with the word at `a` replaced by `v`. -/
def Memory.write (m : Memory) (a : Nat) (v : Word) : Memory := ⟨writeCells m.cells a v⟩

/-- The cells of an image placed from address `a` up. -/
def imageCells : Nat → List Word → List (Nat × Word)
  | _, [] => []
  | a, w :: ws => if w = Memory.unlisted then imageCells (a + 1) ws else (a, w) :: imageCells (a + 1) ws

/-- The memory that holds the image from address 0 up and 0 above it (10_state.md R29). -/
def Memory.ofImage (image : List Word) : Memory := ⟨imageCells 0 image⟩

/-- Every listed address is below `n`. -/
def Memory.below (m : Memory) (n : Nat) : Bool := m.cells.all (fun p => decide (p.1 < n))

/-! ### Checked access (20_memory.md R35, R38) -/

/-- The bound check: `0 <= s32(a) < MEM_SIZE` (20_memory.md R35). -/
def inBounds (c : Config) (a : Word) : Bool := decide (0 ≤ a.s32) && decide (a.s32 < c.memSize)

/-- The array index of a word address that passes the bound check. -/
def addressIndex (a : Word) : Nat := a.s32.toNat

/-- `MemRead(a, 1)` and `IMemRead(a)`: the word of an array, or `OutOfBoundsMemory(a)` (20_memory.md R38). -/
def memRead (c : Config) (m : Memory) (a : Word) : Except Fault Word :=
  if inBounds c a then .ok (m.read (addressIndex a)) else .error (.outOfBoundsMemory a)

/-- `MemWrite(a, 1, v)`: the array after the write, or `OutOfBoundsMemory(a)` (20_memory.md R38). -/
def memWrite (c : Config) (m : Memory) (a : Word) (v : Word) : Except Fault Memory :=
  if inBounds c a then .ok (m.write (addressIndex a) v) else .error (.outOfBoundsMemory a)

/-! ### Registers (10_state.md R11 to R13) -/

/-- `x[i]`: a register read; register 0 always yields 0, whatever is stored (10_state.md R12). -/
def readReg (regs : Vector Word 8) (r : RegIdx) : Word := if r = 0#3 then 0#32 else regs[r.toNat]

/-- `x[i]` on a state. -/
def State.x (s : State) (r : RegIdx) : Word := readReg s.regs r

/-- `x[i] <- v` for the instruction word `w`: register 0 discards the write under
`R0_WRITE_POLICY = ignore` and raises `WriteToRegisterZero` under `fatal` (10_state.md R13). -/
def writeReg (c : Config) (regs : Vector Word 8) (w : Word) (r : RegIdx) (v : Word) :
    Except Fault (Vector Word 8) :=
  if r = 0#3 then
    match c.r0Write with
    | .ignore => .ok regs
    | .fatal => .error (.writeToRegisterZero w)
  else .ok (regs.set r.toNat v)

/-- The register write an instruction asks of writeback, if it asks for one (44_pipeline.md R108). -/
def writeBack (c : Config) (regs : Vector Word 8) (w : Word) (request : Option (RegIdx × Word)) :
    Except Fault (Vector Word 8) :=
  match request with
  | none => .ok regs
  | some (r, v) => writeReg c regs w r v

/-! ### The program counter -/

/-- `pc <- pc + 1` (10_state.md R15). -/
def State.advancePc (s : State) : State := { s with pc := s.pc + 1 }

/-- `pc <- target`. -/
def State.jump (s : State) (target : Word) : State := { s with pc := target }

/-! ### How a run stops. The machine has no trap entry and no return: a fault saves nothing, changes no
mode and transfers control nowhere (60_exceptions.md R199, R200); the run's status changes, no more. -/

/-- The run ends normally: status `halted` (60_exceptions.md R202). -/
def State.stopHalted (s : State) : State := { s with status := .halted }

/-- The run ends in a fatal fault: status `faulted(reason)` and nothing else of the state changes
(60_exceptions.md R190). -/
def State.stopFaulted (s : State) (f : Fault) : State := { s with status := .faulted f }

/-- The fault with `w` in the place of the instruction word it carries; an address or an index stays
(60_exceptions.md R191). -/
def Fault.withWord (f : Fault) (w : Word) : Fault :=
  match f with
  | .outOfBoundsMemory a => .outOfBoundsMemory a
  | .unrecognizedOpcode _ => .unrecognizedOpcode w
  | .outOfBoundsRegister k => .outOfBoundsRegister k
  | .writeToRegisterZero _ => .writeToRegisterZero w

/-- A finished instruction or its fault as an outcome of the host's form. -/
def outcomeOf (r : Except Fault State) : Host.Outcome State Fault Refusal :=
  match r with
  | .ok t => .next t
  | .error f => .fault f

end Sys2Proof.Machine
end

