-- ==== Sys2Proof/Machine/Operands.lean ====
section
/-! DEFINITION. Operand forms: registers, the one immediate, the one addressing mode and the branch
target. -/

namespace Sys2Proof.Machine

/-- The offset operand as a word: the signed 16-bit offset extended to 32 bits, counted in words
(30_encoding.md R59). -/
def offsetOperand (off : Int) : Word := BitVec.ofInt 32 off

/-- The one addressing mode: `ea = base + offset`, modulo 2^32 (41_loadstore.md R85). -/
def effectiveAddress (base off : Word) : Word := base + off

/-- `branchTarget = pcPlus1 + offset`, modulo 2^32 (42_control.md R91). -/
def branchTargetOf (pcPlus1 off : Word) : Word := pcPlus1 + off

/-- What the memory stage delivers: `writeData` for MEMWB, data memory after the step, and the branch
target when the stage resolves a taken branch (44_pipeline.md R104, R105). -/
structure MemResult where
  writeData : Word
  dmem : Memory
  branch : Option Word
  deriving DecidableEq, Repr

/-- "All other opcodes pass data through unchanged" (44_pipeline.md R104). -/
def passThrough (m : Memory) (r : Word) : Except Fault MemResult := .ok ⟨r, m, none⟩

end Sys2Proof.Machine
end

