-- ==== Sys2Proof/Machine/Alu.lean ====
section
/-! DEFINITION. `add` and `nor` (40_alu.md): the part of each stage that is their own, and their
architectural meanings. -/

namespace Sys2Proof.Machine

/-- Execute's result for `add`: the sum modulo 2^32 (40_alu.md R80, R81). -/
def addAlu (a b : Word) : Word := a + b

/-- Execute's result for `nor`: the bitwise NOR of all 32 bits (40_alu.md R82). -/
def norAlu (a b : Word) : Word := ~~~(a ||| b)

/-- An instruction that passes its result through the memory stage and asks for one register write, then
goes on at `pc + 1`. -/
def finishRegister (s : State) (w : Word) (rd : RegIdx) (v : Word) : Except Fault State :=
  match writeBack s.cfg s.regs w (some (rd, v)) with
  | .error f => .error f
  | .ok regs => .ok { s with regs := regs, pc := s.pc + 1 }

/-- `add`: `x[destReg] <- x[regA] + x[regB]; pc <- pc + 1` (40_alu.md R81). Both sources are read before
the destination is written. -/
def execAdd (ra rb rd : RegIdx) (s : State) : Host.Outcome State Fault Refusal :=
  outcomeOf (finishRegister s (encode s.cfg.layout (.add ra rb rd)) rd (addAlu (s.x ra) (s.x rb)))

/-- `nor`: `x[destReg] <- ~(x[regA] | x[regB]); pc <- pc + 1` (40_alu.md R82). -/
def execNor (ra rb rd : RegIdx) (s : State) : Host.Outcome State Fault Refusal :=
  outcomeOf (finishRegister s (encode s.cfg.layout (.nor ra rb rd)) rd (norAlu (s.x ra) (s.x rb)))

end Sys2Proof.Machine
end

