-- ==== Sys2Proof/Machine/Flags.lean ====
section
/-! DEFINITION. Flags. The machine has no flags and no condition codes (10_state.md R16); the one
comparison outcome is a word in the EXMEM latch, tested for zero. -/

namespace Sys2Proof.Machine

/-- The memory stage's test of the `beq` comparison word: zero means equal (10_state.md R16,
44_pipeline.md R104). -/
def comparisonEqual (aluResult : Word) : Bool := aluResult == 0#32

end Sys2Proof.Machine
end

