-- ==== Sys2Proof/Machine/Control.lean ====
section
/-! DEFINITION. `beq` and `jalr` (42_control.md): the part of each stage that is their own, and their
meanings. -/

namespace Sys2Proof.Machine

/-- Execute's result for `beq`: the difference modulo 2^32, a comparison result and not a decision
(44_pipeline.md R103). -/
def beqAlu (a b : Word) : Word := a - b

/-- The memory stage of `beq`: it decides on the comparison word and hands over the branch target
(44_pipeline.md R104, R105). -/
def beqMemory (m : Memory) (aluResult target : Word) : Except Fault MemResult :=
  .ok ⟨aluResult, m, if comparisonEqual aluResult then some target else none⟩

/-- Execute's result for `jalr`, which execute's dispatch does not list: 0 (44_pipeline.md R103). -/
def jalrAlu : Word := 0#32

/-- `beq`: `pc <- pc + 1 + offset` if `x[regA] == x[regB]`, else `pc <- pc + 1` (42_control.md R91). -/
def execBeq (ra rb : RegIdx) (off : Int) (s : State) : Host.Outcome State Fault Refusal :=
  if comparisonEqual (beqAlu (s.x ra) (s.x rb)) then
    .next (s.jump (branchTargetOf (s.pc + 1) (offsetOperand off)))
  else .next s.advancePc

/-- `jalr` on the pipelined machine, normative for the hardware: `pc <- pc + 1` and nothing else, no
register is written, no jump is made (42_control.md R92). -/
def execJalr (_ra _rb : RegIdx) (s : State) : Host.Outcome State Fault Refusal := .next s.advancePc

end Sys2Proof.Machine
end

