-- ==== Sys2Proof/Machine/LoadStore.lean ====
section
/-! DEFINITION. `lw` and `sw` (41_loadstore.md): the part of each stage that is their own, and their
architectural meanings. -/

namespace Sys2Proof.Machine

/-- The memory stage of `lw`: it reads data memory at `aluResult` (41_loadstore.md R86, 44_pipeline.md R104). -/
def lwMemory (c : Config) (m : Memory) (address : Word) : Except Fault MemResult :=
  match memRead c m address with
  | .error f => .error f
  | .ok v => .ok ⟨v, m, none⟩

/-- The memory stage of `sw`: it writes the carried `readRegB` at `aluResult`, and passes the address on
as `writeData` (41_loadstore.md R87, 44_pipeline.md R104). -/
def swMemory (c : Config) (m : Memory) (address value : Word) : Except Fault MemResult :=
  match memWrite c m address value with
  | .error f => .error f
  | .ok m' => .ok ⟨address, m', none⟩

/-- `lw`: `ea <- x[regA] + offset; x[regB] <- MemRead(ea, 1); pc <- pc + 1` (41_loadstore.md R86). -/
def execLw (ra rb : RegIdx) (off : Int) (s : State) : Host.Outcome State Fault Refusal :=
  outcomeOf
    (match lwMemory s.cfg s.dmem (effectiveAddress (s.x ra) (offsetOperand off)) with
    | .error f => .error f
    | .ok m => finishRegister s (encode s.cfg.layout (.lw ra rb off)) rb m.writeData)

/-- `sw`: `ea <- x[regA] + offset; MemWrite(ea, 1, x[regB]); pc <- pc + 1` (41_loadstore.md R87). -/
def execSw (ra rb : RegIdx) (off : Int) (s : State) : Host.Outcome State Fault Refusal :=
  outcomeOf
    (match swMemory s.cfg s.dmem (effectiveAddress (s.x ra) (offsetOperand off)) (s.x rb) with
    | .error f => .error f
    | .ok m => .ok { s with dmem := m.dmem, pc := s.pc + 1 })

end Sys2Proof.Machine
end

