-- ==== Sys2Proof/Machine/System.lean ====
section
/-! DEFINITION. `halt` and `noop` (43_system.md): the part of each stage that is their own, and their
meanings. -/

namespace Sys2Proof.Machine

/-- Execute's result for `halt`: 0 (43_system.md R96, 44_pipeline.md R103). -/
def haltAlu : Word := 0#32

/-- Execute's result for `noop`: 0 (43_system.md R97, 44_pipeline.md R103). -/
def noopAlu : Word := 0#32

/-- `halt`: `pc <- pc + 1; stop` (43_system.md R96). -/
def execHalt (s : State) : Host.Outcome State Fault Refusal := .next s.advancePc.stopHalted

/-- `noop`: `pc <- pc + 1` (43_system.md R97). -/
def execNoop (s : State) : Host.Outcome State Fault Refusal := .next s.advancePc

end Sys2Proof.Machine
end

