-- ==== Sys2Proof/Machine/Dispatch.lean ====
section
/-! DEFINITION. The meaning of an instruction executed alone and in order (00_scope.md R9, 45_reference_model.md
R135), one arm per row of the opcode table. -/

namespace Sys2Proof.Machine

def exec (i : Instr) (s : State) : Host.Outcome State Fault Refusal :=
  match i with
  -- 40_alu.md
  | .add ra rb rd => Sys2Proof.Machine.execAdd ra rb rd s
  | .nor ra rb rd => Sys2Proof.Machine.execNor ra rb rd s
  -- 41_loadstore.md
  | .lw ra rb off => Sys2Proof.Machine.execLw ra rb off s
  | .sw ra rb off => Sys2Proof.Machine.execSw ra rb off s
  -- 42_control.md
  | .beq ra rb off => Sys2Proof.Machine.execBeq ra rb off s
  | .jalr ra rb => Sys2Proof.Machine.execJalr ra rb s
  -- 43_system.md
  | .halt => Sys2Proof.Machine.execHalt s
  | .noop => Sys2Proof.Machine.execNoop s

end Sys2Proof.Machine
end

