-- ==== Sys2Proof/Machine/Pipeline.lean ====
section
/-! DEFINITION. The five-stage pipeline (44_pipeline.md): the stage functions, the branch squash and one
whole cycle. Every stage reads only the state before the step (R100). -/

namespace Sys2Proof.Machine

/-- The instruction a latch carries: "every later stage re-decodes opcode from the carried instruction
word" (10_state.md R20). -/
def State.decodes (s : State) (w : Word) : Instr := decode s.cfg.layout w

/-! ### Fetch (R101) -/

/-- `IMemRead(pc)` with its bound check, into the next IFID; made in every step (44_pipeline.md R101). -/
def fetchStage (s : State) : Except Fault IfId :=
  match memRead s.cfg s.imem s.pc with
  | .error f => .error f
  | .ok w => .ok ⟨w, s.pc + 1⟩

/-! ### Decode (R102) -/

/-- The same for every word, whatever its opcode; the only place registers are read (44_pipeline.md R102). -/
def decodeStage (s : State) : IdEx where
  instr := s.ifid.instr
  pcPlus1 := s.ifid.pcPlus1
  readRegA := s.x (regA s.cfg.layout s.ifid.instr)
  readRegB := s.x (regB s.cfg.layout s.ifid.instr)
  offset := offsetWord s.ifid.instr

/-! ### Execute (R103) -/

/-- `aluResult` of an instruction from its register operands and its offset (44_pipeline.md R103). -/
def aluResultOf (i : Instr) (a b off : Word) : Word :=
  match i with
  | .add _ _ _ => addAlu a b
  | .nor _ _ _ => norAlu a b
  | .lw _ _ _ => effectiveAddress a off
  | .sw _ _ _ => effectiveAddress a off
  | .beq _ _ _ => beqAlu a b
  | .jalr _ _ => jalrAlu
  | .halt => haltAlu
  | .noop => noopAlu

/-- Execute refuses a word under `UNUSED_BITS_POLICY = fatal` when a bit above its opcode field is not 0
(44_pipeline.md R103, 30_encoding.md R63). -/
def executeRejects (c : Config) (w : Word) : Bool :=
  match c.unusedBits with
  | .ignore => false
  | .fatal => !highBitsClear c.layout w

/-- The execute stage (44_pipeline.md R103). -/
def executeStage (s : State) : Except Fault ExMem :=
  if executeRejects s.cfg s.idex.instr then .error (.unrecognizedOpcode s.idex.instr)
  else .ok {
    instr := s.idex.instr
    branchTarget := branchTargetOf s.idex.pcPlus1 s.idex.offset
    aluResult := aluResultOf (s.decodes s.idex.instr) s.idex.readRegA s.idex.readRegB s.idex.offset
    readRegB := s.idex.readRegB }

/-! ### Memory (R104) -/

/-- What an instruction does in the memory stage (44_pipeline.md R104). -/
def memoryOf (i : Instr) (c : Config) (m : Memory) (l : ExMem) : Except Fault MemResult :=
  match i with
  | .add _ _ _ => passThrough m l.aluResult
  | .nor _ _ _ => passThrough m l.aluResult
  | .lw _ _ _ => lwMemory c m l.aluResult
  | .sw _ _ _ => swMemory c m l.aluResult l.readRegB
  | .beq _ _ _ => beqMemory m l.aluResult l.branchTarget
  | .jalr _ _ => passThrough m l.aluResult
  | .halt => passThrough m l.aluResult
  | .noop => passThrough m l.aluResult

/-- The memory stage (44_pipeline.md R104). -/
def memoryStage (s : State) : Except Fault MemResult :=
  memoryOf (s.decodes s.exmem.instr) s.cfg s.dmem s.exmem

/-! ### Writeback (R108) -/

/-- The register write an instruction asks for: `add` and `nor` write destReg, `lw` writes regB, no other
instruction writes (44_pipeline.md R108). -/
def writeRequestOf (i : Instr) (v : Word) : Option (RegIdx × Word) :=
  match i with
  | .add _ _ rd => some (rd, v)
  | .nor _ _ rd => some (rd, v)
  | .lw _ rb _ => some (rb, v)
  | .sw _ _ _ => none
  | .beq _ _ _ => none
  | .jalr _ _ => none
  | .halt => none
  | .noop => none

/-- The writeback stage: the register file of the next state (44_pipeline.md R108). -/
def writebackStage (s : State) : Except Fault (Vector Word 8) :=
  writeBack s.cfg s.regs s.memwb.instr (writeRequestOf (s.decodes s.memwb.instr) s.memwb.writeData)

/-! ### The whole cycle (R105, R109 to R111) -/

/-- The next state with no branch taken: the stage outputs, WBEND a copy of MEMWB, and one cycle more
(44_pipeline.md R109, R110, R111). -/
def latchOutputs (s : State) (f : IfId) (e : ExMem) (m : MemResult) (regs : Vector Word 8) : State where
  cfg := s.cfg
  pc := f.pcPlus1
  regs := regs
  imem := s.imem
  dmem := m.dmem
  ifid := f
  idex := decodeStage s
  exmem := e
  memwb := ⟨s.exmem.instr, m.writeData⟩
  wbend := ⟨s.memwb.instr, s.memwb.writeData⟩
  cycleCount := s.cycleCount + 1
  status := s.status

/-- The four overrides of a taken branch, applied to the next state: its pc is the branch target and its
IFID, IDEX and EXMEM are squashed (44_pipeline.md R105, R106). -/
def squash (n : State) (target : Word) : State :=
  { n with
    pc := target
    ifid := .squashed n.cfg.layout
    idex := .squashed n.cfg.layout
    exmem := .squashed n.cfg.layout }

/-- The overrides, if the memory stage resolved a taken branch. -/
def applyBranch (n : State) (branch : Option Word) : State :=
  match branch with
  | none => n
  | some target => squash n target

/-- `step(s)` of the spec: one cycle. When several stages fault, the first in the order fetch, execute,
memory, writeback is reported, and nothing of the step survives (44_pipeline.md R111). -/
def cycle (s : State) : Except Fault State :=
  match fetchStage s with
  | .error f => .error f
  | .ok f =>
    match executeStage s with
    | .error f => .error f
    | .ok e =>
      match memoryStage s with
      | .error f => .error f
      | .ok m =>
        match writebackStage s with
        | .error f => .error f
        | .ok regs => .ok (applyBranch (latchOutputs s f e m regs) m.branch)

end Sys2Proof.Machine
end

