-- ==== Sys2Proof/Machine/Driver.lean ====
section
/-! DEFINITION. The cycle driver (44_pipeline.md R112, R113): halt detection, one iteration of its loop,
the run under fuel, and the loader that builds the state a run starts from. -/

namespace Sys2Proof.Machine

/-- The halt test, made on the current state before a step: `opcode(s.MEMWB.instr) == 6` (44_pipeline.md R112). -/
def haltDetected (s : State) : Bool := opcodeOf s.cfg.layout s.memwb.instr == .halt

/-- One iteration of the driver's loop (44_pipeline.md R113): a detected halt ends the run and no cycle is
taken; otherwise one cycle. In an end status no cycle is taken (10_state.md R27): a halted machine stays
as it is and a faulted one answers its fault again. -/
def driverStep (s : State) : Host.Outcome State Fault Refusal :=
  match s.status with
  | .running => if haltDetected s then .next s.stopHalted else outcomeOf (cycle s)
  | .halted => .next s
  | .faulted f => .fault f

/-- `run` under fuel (44_pipeline.md R113): the final state, whose status says how the run ended; status
`running` means that the fuel ran out and nothing is claimed. After a fault the state is the one before
the faulting step, with status `faulted(reason)` (60_exceptions.md R190). -/
def run : Nat → State → State
  | 0, s => s
  | k + 1, s =>
    match s.status with
    | .running =>
      if haltDetected s then s.stopHalted
      else
        match cycle s with
        | .error f => s.stopFaulted f
        | .ok n => run k n
    | .halted => s
    | .faulted _ => s

/-- The exit code of a run for the host: `halted` maps to 0 and `faulted` to 1 (60_exceptions.md R207). -/
def exitCode (st : RunStatus) : Option Nat :=
  match st with
  | .running => none
  | .halted => some 0
  | .faulted _ => some 1

/-- Why the loader gives no state: an adapter error, raised before any state exists. -/
inductive LoadRefusal where
  /-- The image does not fit the memory (70_reset_and_hazards.md R211). -/
  | imageTooLong
  /-- A field of the machine-code file is no optionally signed decimal (20_memory.md R43, decision D33). -/
  | malformedImage
  deriving DecidableEq, Repr

/-- Reset with a machine-code image: the initial state of a run (70_reset_and_hazards.md R210, R211). -/
def load (c : Config) (image : List Word) : Except LoadRefusal State :=
  if image.length ≤ c.memSize then .ok (.initial c (.ofImage image)) else .error .imageTooLong

/-- A decimal number of the machine-code file stands for the word congruent to it modulo 2^32
(20_memory.md R43). -/
def wordOfDecimal (d : Int) : Word := BitVec.ofInt 32 d

/-- The number the assembler writes for a word: its signed reading (20_memory.md R43). -/
def decimalOfWord (w : Word) : Int := w.s32

/-- The machine-code file of an image as its numbers, one per word in address order (46_assembler.md R179). -/
def decimalsOfImage (image : List Word) : List Int := image.map decimalOfWord

/-- The image a machine-code file's numbers stand for (20_memory.md R43). -/
def imageOfDecimals (ds : List Int) : List Word := ds.map wordOfDecimal

end Sys2Proof.Machine
end

