-- ==== Sys2Proof/Machine/Step.lean ====
section
/-! DEFINITION. One step of the machine, and how the host places the instruction fetched next. -/

namespace Sys2Proof.Machine

/-- One step: one iteration of the cycle driver (44_pipeline.md R113), that is one clock cycle of the
pipeline (R111) while the run is on. -/
def step (s : State) : Host.Outcome State Fault Refusal := driverStep s

/-- The state with one 32-bit instruction word stored where fetch reads next: instruction memory at `pc`
(44_pipeline.md R101). Nothing else changes. -/
def State.withFetchWord (s : State) (nbits w : Nat) : State :=
  { s with imem := s.imem.write (addressIndex s.pc) (BitVec.ofNat 32 (w % 2 ^ nbits)) }

end Sys2Proof.Machine
end

