-- ==== Sys2Proof/Machine/Assembler.lean ====
section
/-! DEFINITION. The assembler engine (46_assembler.md): symbol table, two passes, `translate` and `.fill`,
and the splitting of a source line into a record. -/

namespace Sys2Proof.Machine

/-- A field of a source line; compared exactly and case-sensitively (46_assembler.md R153, R156). -/
abbrev Token := List Char

/-- A source record: one non-blank line, already split (46_assembler.md R150). -/
structure Record where
  label : Option Token
  opcode : Token
  args : List Token
  deriving DecidableEq, Repr

/-- The errors of the engine (46_assembler.md, section 6; 60_exceptions.md R191). All are fatal. -/
inductive AsmError where
  | invalidLabel
  | duplicateLabel
  | unrecognizedOpcode
  | insufficientOperands
  | invalidRegister
  | wordOverflow
  | undefinedLabel
  | offsetOverflow
  deriving DecidableEq, Repr

/-- How an assembly that gives no words ends (46_assembler.md R178). -/
inductive AsmStop where
  /-- One error with the address at which it was found. -/
  | error (reason : AsmError) (address : Nat)
  /-- A label operand resolved to the `sentinel` marker, for which the spec defines no word
  (46_assembler.md R156, 93_implementation_defined.md U9: "stuck"). Safe: no words are claimed. -/
  | sentinelNotSpecified (address : Nat)
  deriving DecidableEq, Repr

/-- Why one record gives no word, before its address is attached. -/
inductive AsmReason where
  | error (reason : AsmError)
  | sentinelNotSpecified
  deriving DecidableEq, Repr

/-- A reason at an address. -/
def AsmReason.atAddress (r : AsmReason) (address : Nat) : AsmStop :=
  match r with
  | .error e => .error e address
  | .sentinelNotSpecified => .sentinelNotSpecified address

/-! ### The symbol table (10_state.md R28, 46_assembler.md section 2) -/

/-- The append-only table, oldest entry first; it starts empty (10_state.md R28). -/
abbrev SymbolTable := List (Token × Nat)

/-- The table when `assemble` starts: empty (10_state.md R28, R29). -/
def initialTable : SymbolTable := []

/-- A letter, `A` to `Z` or `a` to `z` (46_assembler.md R158). -/
def isLetter (c : Char) : Bool :=
  (decide (65 ≤ c.toNat) && decide (c.toNat ≤ 90)) || (decide (97 ≤ c.toNat) && decide (c.toNat ≤ 122))

/-- A decimal digit. -/
def isDecimalDigit (c : Char) : Bool := decide (48 ≤ c.toNat) && decide (c.toNat ≤ 57)

/-- The naming rule: 1 to 6 characters, the first a letter (46_assembler.md R158). -/
def validLabel (name : Token) : Bool :=
  match name with
  | [] => false
  | c :: cs => isLetter c && decide (cs.length + 1 ≤ 6)

/-- The address of a name, if it is in the table. -/
def findLabel : SymbolTable → Token → Option Nat
  | [], _ => none
  | (n, a) :: t, name => if n = name then some a else findLabel t name

/-- `define(name, address)`: the naming rule first, then the duplicate check (46_assembler.md R155). -/
def defineLabel (c : Config) (t : SymbolTable) (name : Token) (address : Nat) :
    Except AsmError SymbolTable :=
  if c.labelName = .strict ∧ validLabel name = false then .error .invalidLabel
  else if (findLabel t name).isSome then .error .duplicateLabel
  else .ok (t ++ [(name, address)])

/-- What `lookup` finds: an address, or under `sentinel` a marker that is no address (46_assembler.md R156). -/
inductive Lookup where
  | found (address : Nat)
  | notFound
  deriving DecidableEq, Repr

/-- `lookup(name) -> address` (46_assembler.md R156). -/
def lookupLabel (c : Config) (t : SymbolTable) (name : Token) : Except AsmError Lookup :=
  match findLabel t name with
  | some a => .ok (.found a)
  | none =>
    match c.undefinedLabel with
    | .fatal => .error .undefinedLabel
    | .sentinel => .ok .notFound

/-- The address a label operand stands for, or why there is none. -/
def resolveLabel (c : Config) (t : SymbolTable) (name : Token) : Except AsmReason Nat :=
  match lookupLabel c t name with
  | .ok (.found a) => .ok a
  | .ok .notFound => .error .sentinelNotSpecified
  | .error e => .error (.error e)

/-! ### Operands (46_assembler.md R168, R169) -/

/-- A register operand: one character, `0` to `7` (46_assembler.md R168). -/
def parseRegister (t : Token) : Except AsmReason RegIdx :=
  match t with
  | [c] =>
    if 48 ≤ c.toNat ∧ c.toNat ≤ 55 then .ok (BitVec.ofNat 3 (c.toNat - 48))
    else .error (.error .invalidRegister)
  | _ => .error (.error .invalidRegister)

/-- The value of a string of decimal digits read after `acc`, if all its characters are digits. -/
def digitsFrom (acc : Nat) : Token → Option Nat
  | [] => some acc
  | c :: cs => if isDecimalDigit c then digitsFrom (acc * 10 + (c.toNat - 48)) cs else none

/-- The value of one or more decimal digits. -/
def parseDigits (t : Token) : Option Nat :=
  match t with
  | [] => none
  | c :: cs => digitsFrom 0 (c :: cs)

/-- A numeric literal: an optional sign character, then one or more decimal digits, and nothing else
(46_assembler.md R169). -/
def parseLiteral (t : Token) : Option Int :=
  match t with
  | [] => none
  | c :: cs =>
    if c = '+' then (parseDigits cs).map Int.ofNat
    else if c = '-' then (parseDigits cs).map fun n => -(n : Int)
    else (parseDigits (c :: cs)).map Int.ofNat

/-- The 32-bit signed range of a literal (46_assembler.md R162, R169). -/
def literalFits (v : Int) : Bool := decide (-2147483648 ≤ v) && decide (v ≤ 2147483647)

/-- How an operand that is a literal or a label is resolved. -/
inductive Operand where
  | literal (v : Int)
  | label (address : Nat)
  deriving DecidableEq, Repr

/-- "First tried as decimal literals; if that fails, treated as a label reference" (46_assembler.md R169). -/
def resolveOperand (c : Config) (tbl : SymbolTable) (t : Token) : Except AsmReason Operand :=
  match parseLiteral t with
  | some v => if literalFits v then .ok (.literal v) else .error (.error .wordOverflow)
  | none =>
    match resolveLabel c tbl t with
    | .ok a => .ok (.label a)
    | .error r => .error r

/-- The offset of a `beq` operand at address `addr`: a literal as written, a label relative to the next
instruction (46_assembler.md R170). -/
def branchOffset (addr : Nat) (o : Operand) : Int :=
  match o with
  | .literal v => v
  | .label a => (a : Int) - addr - 1

/-- The offset of an `lw` or `sw` operand: a literal as written, a label's absolute address
(46_assembler.md R170, R171). -/
def absoluteOffset (o : Operand) : Int :=
  match o with
  | .literal v => v
  | .label a => a

/-! ### `translate` (46_assembler.md R163) -/

/-- The recognised opcode strings but for `.fill` (46_assembler.md R153). -/
def opcodeStrings : List (Token × Opcode) :=
  [(['a', 'd', 'd'], .add), (['n', 'o', 'r'], .nor), (['l', 'w'], .lw), (['s', 'w'], .sw),
   (['b', 'e', 'q'], .beq), (['j', 'a', 'l', 'r'], .jalr), (['h', 'a', 'l', 't'], .halt),
   (['n', 'o', 'o', 'p'], .noop)]

/-- The directive `.fill` (46_assembler.md R153). -/
def fillString : Token := ['.', 'f', 'i', 'l', 'l']

/-- The opcode a table of strings gives a string. -/
def findOpcode : List (Token × Opcode) → Token → Option Opcode
  | [], _ => none
  | (n, o) :: rest, t => if n = t then some o else findOpcode rest t

/-- The opcode an opcode string names. -/
def opcodeOfString (t : Token) : Option Opcode := findOpcode opcodeStrings t

/-- How many operands an opcode needs (46_assembler.md R163). -/
def operandsNeeded (o : Opcode) : Nat :=
  match o.format with
  | .R => 3
  | .I => 3
  | .J => 2
  | .O => 0

/-- Three register operands, read left to right. -/
def threeRegisters (a b d : Token) (f : RegIdx → RegIdx → RegIdx → Instr) : Except AsmReason Instr :=
  match parseRegister a with
  | .error e => .error e
  | .ok ra =>
    match parseRegister b with
    | .error e => .error e
    | .ok rb =>
      match parseRegister d with
      | .error e => .error e
      | .ok rd => .ok (f ra rb rd)

/-- Two register operands, read left to right. -/
def twoRegisters (a b : Token) (f : RegIdx → RegIdx → Instr) : Except AsmReason Instr :=
  match parseRegister a with
  | .error e => .error e
  | .ok ra =>
    match parseRegister b with
    | .error e => .error e
    | .ok rb => .ok (f ra rb)

/-- Two register operands and an offset operand, read left to right. -/
def registersAndOffset (c : Config) (tbl : SymbolTable) (a b o : Token) (offsetOf : Operand → Int)
    (f : RegIdx → RegIdx → Int → Instr) : Except AsmReason Instr :=
  match parseRegister a with
  | .error e => .error e
  | .ok ra =>
    match parseRegister b with
    | .error e => .error e
    | .ok rb =>
      match resolveOperand c tbl o with
      | .error e => .error e
      | .ok v => .ok (f ra rb (offsetOf v))

/-- The instruction a record's opcode and operands spell at an address. Too few operands are reported
before any operand is read; fields beyond the needed ones are commentary (46_assembler.md R174, R177). -/
def parseInstr (c : Config) (tbl : SymbolTable) (addr : Nat) (o : Opcode) (args : List Token) :
    Except AsmReason Instr :=
  match o, args with
  | .add, a :: b :: d :: _ => threeRegisters a b d .add
  | .nor, a :: b :: d :: _ => threeRegisters a b d .nor
  | .lw, a :: b :: x :: _ => registersAndOffset c tbl a b x absoluteOffset .lw
  | .sw, a :: b :: x :: _ => registersAndOffset c tbl a b x absoluteOffset .sw
  | .beq, a :: b :: x :: _ => registersAndOffset c tbl a b x (branchOffset addr) .beq
  | .jalr, a :: b :: _ => twoRegisters a b .jalr
  | .halt, _ => .ok .halt
  | .noop, _ => .ok .noop
  | _, _ => .error (.error .insufficientOperands)

/-- The word of an instruction under the offset policy; a refused offset is `OffsetOverflow`
(46_assembler.md R172). No other refusal arises: register operands are 0 to 7 by then. -/
def encodeInstr (c : Config) (i : Instr) : Except AsmReason Word :=
  match encodeFields c.layout c.offsetRange i.fields with
  | .ok w => .ok w
  | .error _ => .error (.error .offsetOverflow)

/-- `translate(addr, opcode, operands) -> word` (46_assembler.md R163). -/
def translate (c : Config) (tbl : SymbolTable) (addr : Nat) (opcode : Token) (args : List Token) :
    Except AsmReason Word :=
  match opcodeOfString opcode with
  | none => .error (.error .unrecognizedOpcode)
  | some o =>
    match parseInstr c tbl addr o args with
    | .error e => .error e
    | .ok i => encodeInstr c i

/-- The word of a `.fill` directive: a literal modulo 2^32 or a label's absolute address
(46_assembler.md R162). -/
def fillValue (c : Config) (tbl : SymbolTable) (args : List Token) : Except AsmReason Word :=
  match args with
  | [] => .error (.error .insufficientOperands)
  | t :: _ =>
    match resolveOperand c tbl t with
    | .error e => .error e
    | .ok (.literal v) => .ok (BitVec.ofInt 32 v)
    | .ok (.label a) => .ok (BitVec.ofNat 32 a)

/-- The word of one record at an address (46_assembler.md R161). -/
def recordWord (c : Config) (tbl : SymbolTable) (addr : Nat) (r : Record) : Except AsmReason Word :=
  if r.opcode = fillString then fillValue c tbl r.args else translate c tbl addr r.opcode r.args

/-! ### The two passes (46_assembler.md R159, R161) -/

/-- Pass 1 from address `addr` and table `tbl` on (46_assembler.md R159). -/
def pass1 (c : Config) (tbl : SymbolTable) (addr : Nat) : List Record → Except AsmStop SymbolTable
  | [] => .ok tbl
  | r :: rs =>
    match r.label with
    | none => pass1 c tbl (addr + 1) rs
    | some name =>
      match defineLabel c tbl name addr with
      | .error e => .error (.error e addr)
      | .ok tbl' => pass1 c tbl' (addr + 1) rs

/-- Pass 2 from address `addr` on (46_assembler.md R161). -/
def pass2 (c : Config) (tbl : SymbolTable) (addr : Nat) : List Record → Except AsmStop (List Word)
  | [] => .ok []
  | r :: rs =>
    match recordWord c tbl addr r with
    | .error e => .error (e.atAddress addr)
    | .ok w =>
      match pass2 c tbl (addr + 1) rs with
      | .error e => .error e
      | .ok ws => .ok (w :: ws)

/-- `assemble(records)`: all the words or one error (46_assembler.md R150, R177, R178). The table starts
empty, is complete before pass 2 begins and is discarded at the end (R157). -/
def assemble (c : Config) (records : List Record) : Except AsmStop (List Word) :=
  match pass1 c initialTable 0 records with
  | .error e => .error e
  | .ok tbl => pass2 c tbl 0 records

/-- The assembler's exit code (46_assembler.md R178, 60_exceptions.md R207): 0 on success, 1 on any error; none
for the `sentinel` stop, for which the spec defines no output. -/
def assemblerExitCode (r : Except AsmStop (List Word)) : Option Nat :=
  match r with
  | .ok _ => some 0
  | .error (.error _ _) => some 1
  | .error (.sentinelNotSpecified _) => none

/-! ### Source lines (46_assembler.md R150 to R152). The line reader is out of scope (00_scope.md R4); this
is the value-level contract at its boundary. -/

/-- White space between fields. -/
def isSpace (ch : Char) : Bool := ch == ' ' || ch == '\t' || ch == '\r' || ch == '\n'

/-- The white-space-delimited fields of a line; `cur` is the field being read, reversed. -/
def splitFields (cur : Token) : List Char → List Token
  | [] => if cur = [] then [] else [cur.reverse]
  | ch :: cs =>
    if isSpace ch then (if cur = [] then splitFields [] cs else cur.reverse :: splitFields [] cs)
    else splitFields (ch :: cur) cs

/-- The record of a line: it has a label exactly when its first character is not white space
(46_assembler.md R151); a line with no opcode field gives none (decision D26), and at most three operand
fields are kept (46_assembler.md R150). -/
def recordOfLine (line : List Char) : Option Record :=
  let fields := splitFields [] line
  match line with
  | [] => none
  | ch :: _ =>
    if isSpace ch then
      match fields with
      | op :: args => some ⟨none, op, args.take 3⟩
      | [] => none
    else
      match fields with
      | l :: op :: args => some ⟨some l, op, args.take 3⟩
      | _ => none

/-- The records of a program's lines, in order; lines that give no record are dropped (46_assembler.md R152). -/
def recordsOfLines (lines : List (List Char)) : List Record := lines.filterMap recordOfLine

end Sys2Proof.Machine
end

