-- ==== Sys2Proof/Machine/Reference.lean ====
section
/-! DEFINITION. The sequential reference model (45_reference_model.md): not the hardware, but the yardstick
for it. One step fetches one instruction and executes it whole; all but `jalr` through `exec`. -/

namespace Sys2Proof.Machine

/-- The reference state (45_reference_model.md R136): one memory for fetch and data, an executed-instruction
counter, no latches; with the parameters and the run status beside it. -/
structure RefState where
  cfg : Config
  pc : Word
  regs : Vector Word 8
  mem : Memory
  instrCount : Nat
  status : RunStatus
  deriving DecidableEq, Repr

/-- The reference reset (45_reference_model.md R137). -/
def RefState.initial (c : Config) (m : Memory) : RefState where
  cfg := c
  pc := 0
  regs := Vector.replicate 8 0
  mem := m
  instrCount := 0
  status := .running

/-- The reference machine loaded with an image (45_reference_model.md R137). -/
def refLoad (c : Config) (image : List Word) : Except LoadRefusal RefState :=
  if image.length ≤ c.memSize then .ok (.initial c (.ofImage image)) else .error .imageTooLong

/-- `x[i]` on a reference state (45_reference_model.md R136). -/
def RefState.x (r : RefState) (i : RegIdx) : Word := readReg r.regs i

/-- The reference state as a machine state with both memories its one memory, for `exec` to run on. -/
def RefState.view (r : RefState) : State :=
  { State.initial r.cfg r.mem with pc := r.pc, regs := r.regs, status := r.status }

/-- The reference state after `exec` has run on its view and one more instruction is counted. -/
def RefState.absorb (r : RefState) (t : State) : RefState :=
  { r with pc := t.pc, regs := t.regs, mem := t.dmem, status := t.status, instrCount := r.instrCount + 1 }

/-- `jalr` in the reference model (42_control.md R92, 45_reference_model.md R138): under `link_then_jump`
the link is written first and the target register is read after it; under `none` it is the pipeline's.
`w` is the word fetched. -/
def refJalr (w : Word) (ra rb : RegIdx) (r : RefState) : Host.Outcome RefState Fault Refusal :=
  match r.cfg.refJalr with
  | .none => .next { r with pc := r.pc + 1, instrCount := r.instrCount + 1 }
  | .linkThenJump =>
    match writeReg r.cfg r.regs w rb (r.pc + 1) with
    | .error f => .fault f
    | .ok regs =>
      .next { r with regs := regs, pc := readReg regs ra, instrCount := r.instrCount + 1 }

/-- One instruction executed whole (45_reference_model.md R138). `w` is the word fetched, which a fault carries
as the pipeline's does. -/
def refExec (w : Word) (i : Instr) (r : RefState) : Host.Outcome RefState Fault Refusal :=
  match i with
  | .jalr ra rb => refJalr w ra rb r
  | _ =>
    match exec i r.view with
    | .next t => .next (r.absorb t)
    | .fault f => .fault (f.withWord w)
    | .refused q => .refused q

/-- `ref_step` (45_reference_model.md R138): the fetch with its bound check, then the instruction. -/
def refStep (r : RefState) : Host.Outcome RefState Fault Refusal :=
  match memRead r.cfg r.mem r.pc with
  | .error f => .fault f
  | .ok w => refExec w (decode r.cfg.layout w) r

/-- The reference driver under fuel (45_reference_model.md R139). -/
def refRun : Nat → RefState → RefState
  | 0, r => r
  | k + 1, r =>
    match r.status with
    | .running =>
      match refStep r with
      | .next t => refRun k t
      | .fault f => { r with status := .faulted f }
      | .refused _ => r
    | .halted => r
    | .faulted _ => r

end Sys2Proof.Machine
end

