-- ==== Sys2Proof/Machine/Simulator.lean ====
section
/-! DEFINITION. The simulator as its host sees it: a machine-code file's fields, the load, the run and the
exit code (60_exceptions.md R207). Reading the file is out of scope (00_scope.md R4). -/

namespace Sys2Proof.Machine

/-- The image the fields of a machine-code file stand for: each an optionally signed decimal, read modulo
2^32; anything else is malformed input (20_memory.md R43, decision D33). -/
def imageOfTokens : List Token → Except LoadRefusal (List Word)
  | [] => .ok []
  | t :: ts =>
    match parseLiteral t with
    | none => .error .malformedImage
    | some d =>
      match imageOfTokens ts with
      | .error e => .error e
      | .ok ws => .ok (wordOfDecimal d :: ws)

/-- Load and run under fuel: the final state, or why there is none (70_reset_and_hazards.md R210, R211). -/
def simulate (c : Config) (fuel : Nat) (tokens : List Token) : Except LoadRefusal State :=
  match imageOfTokens tokens with
  | .error e => .error e
  | .ok image =>
    match load c image with
    | .error e => .error e
    | .ok s => .ok (run fuel s)

/-- The simulator's exit code: 1 for input it refuses, else that of the run (60_exceptions.md R207). -/
def simulatorExitCode (r : Except LoadRefusal State) : Option Nat :=
  match r with
  | .error _ => some 1
  | .ok s => exitCode s.status

end Sys2Proof.Machine
end

