-- ==== Sys2Proof/Safety.lean ====
section
/-! DEFINITION. What counts as a safe run, in the terms claims use: when a step is a cycle, the state
invariant, several steps, when an instruction runs undisturbed in the pipeline, the conditions under which
the pipeline equals the reference model, and when a program text has no error. -/

namespace Sys2Proof.Machine

/-- The run is on and no halt has reached MEMWB: the next step is a clock cycle (44_pipeline.md R113). -/
abbrev Cycling (s : State) : Prop := s.status = .running ∧ haltDetected s = false

/-- The memory stage resolves a taken branch in this step (44_pipeline.md R105). -/
abbrev TakesBranch (s : State) : Prop :=
  opcodeOf s.cfg.layout s.exmem.instr = .beq ∧ s.exmem.aluResult = 0#32

/-- A word address is valid: `0 <= s32(a) < MEM_SIZE` (20_memory.md R35). -/
abbrev ValidAddress (c : Config) (a : Word) : Prop := 0 ≤ a.s32 ∧ a.s32 < c.memSize

/-- `k` steps, stopping at the first fault or refusal. -/
def steps : Nat → State → Host.Outcome State Fault Refusal
  | 0, s => .next s
  | k + 1, s =>
    match step s with
    | .next n => steps k n
    | .fault f => .fault f
    | .refused r => .refused r

/-- The invariant of the machine: admissible parameters, canonical memories that list valid addresses
only, and register 0 stored as 0 (00_scope.md R7, 20_memory.md R30, 10_state.md R12). -/
abbrev StateInv (s : State) : Prop :=
  s.cfg.admissible = true ∧ s.imem.wf = true ∧ s.dmem.wf = true ∧
    s.imem.below s.cfg.memSize = true ∧ s.dmem.below s.cfg.memSize = true ∧ s.regs[0] = 0#32

/-- A run that never faults: its status is `faulted` after no number of steps (10_state.md R27). -/
def SafeRun (s : State) : Prop := ∀ (k : Nat) (f : Fault), (run k s).status ≠ .faulted f

/-- No instruction is in flight: the four latches that later stages read hold the canonical no-op. -/
abbrev Drained (s : State) : Prop :=
  s.ifid.instr = noopWord s.cfg.layout ∧ s.idex.instr = noopWord s.cfg.layout ∧
    s.exmem.instr = noopWord s.cfg.layout ∧ s.memwb.instr = noopWord s.cfg.layout

/-- The two words of instruction memory behind the one at `pc` have no effect in the two cycles in which they
come as far as execute and memory: they are no `lw`, `sw` or `beq`, and execute does not reject them. -/
def FollowedByInert (s : State) : Prop :=
  ∀ j, j = 1 ∨ j = 2 →
    let w := s.imem.read (addressIndex s.pc + j)
    opcodeOf s.cfg.layout w ≠ .lw ∧ opcodeOf s.cfg.layout w ≠ .sw ∧ opcodeOf s.cfg.layout w ≠ .beq ∧
      executeRejects s.cfg w = false

/-- From `s` the pipeline runs the instruction `i`, whose word `w` is at pc, as `exec` runs it alone. After
four steps the memory stage has done its part: data memory is that of `exec`, and pc is that of `exec`,
plus 3 unless a branch was taken; after a `halt`'s four steps it is detected. After five steps the registers
are those of `exec`. Where `exec` faults, so does the run, a write to register 0 in the fifth step and with
the word itself. -/
def RunsAsExec (s : State) (w : Word) (i : Instr) : Prop :=
  match exec i s with
  | .next e =>
    ∃ t, steps 4 s = .next t ∧ t.dmem = e.dmem ∧ t.regs = s.regs ∧ t.cycleCount = s.cycleCount + 4 ∧
      t.memwb.instr = w ∧
      t.pc = (if i.opcode = .beq ∧ s.x (regA s.cfg.layout w) = s.x (regB s.cfg.layout w) then e.pc
        else e.pc + 3#32) ∧
      (e.status = .halted ↔ haltDetected t = true) ∧
      (e.status = .running → ValidAddress s.cfg t.pc →
        ∃ u, step t = .next u ∧ u.regs = e.regs ∧ u.dmem = e.dmem ∧ u.pc = t.pc + 1#32)
  | .fault (.writeToRegisterZero _) => steps 5 s = .fault (.writeToRegisterZero w)
  | .fault f => steps 4 s = .fault f
  | .refused _ => False

/-! ### Reference runs and the conditions of the equivalence (45_reference_model.md R144) -/

/-- The registers an instruction uses (45_reference_model.md R144, condition 1). -/
def usesRegs (i : Instr) : List RegIdx :=
  match i with
  | .add a b _ => [a, b]
  | .nor a b _ => [a, b]
  | .lw a _ _ => [a]
  | .sw a b _ => [a, b]
  | .beq a b _ => [a, b]
  | .jalr _ _ => []
  | .halt => []
  | .noop => []

/-- The register an instruction writes (45_reference_model.md R144, condition 1). -/
def writesRegOf (i : Instr) : Option RegIdx :=
  match i with
  | .add _ _ d => some d
  | .nor _ _ d => some d
  | .lw _ b _ => some b
  | .sw _ _ _ => none
  | .beq _ _ _ => none
  | .jalr _ _ => none
  | .halt => none
  | .noop => none

/-- One executed instruction of a reference run: its address and word, whether it is a taken `beq`, and
the address and word it stores, if it is a `sw`. -/
structure Event where
  pc : Word
  word : Word
  instr : Instr
  taken : Bool
  store : Option (Nat × Word)
  deriving DecidableEq, Repr

/-- Whether an instruction is a `beq` that is taken in a reference state. -/
def takenIn (r : RefState) (i : Instr) : Bool :=
  match i with
  | .beq a b _ => r.x a == r.x b
  | _ => false

/-- What an instruction stores in a reference state: the index of its effective address, and the word. -/
def storeIn (r : RefState) (i : Instr) : Option (Nat × Word) :=
  match i with
  | .sw a b off => some (addressIndex (effectiveAddress (r.x a) (offsetOperand off)), r.x b)
  | _ => none

/-- The word a reference state fetches. -/
def refWord (r : RefState) : Word := r.mem.read (addressIndex r.pc)

/-- The event of a reference state's next instruction. -/
def refEvent (r : RefState) : Event where
  pc := r.pc
  word := refWord r
  instr := decode r.cfg.layout (refWord r)
  taken := takenIn r (decode r.cfg.layout (refWord r))
  store := storeIn r (decode r.cfg.layout (refWord r))

/-- The instructions a reference run executes in at most `k` steps, in order; a step that faults executes
none (45_reference_model.md R139). -/
def refTrace : Nat → RefState → List Event
  | 0, _ => []
  | k + 1, r =>
    match r.status with
    | .running =>
      match refStep r with
      | .next t => refEvent r :: refTrace k t
      | .fault _ => []
      | .refused _ => []
    | .halted => []
    | .faulted _ => []

/-- How many of the events are taken branches (44_pipeline.md R116, `B`). -/
def takenCount (es : List Event) : Nat := es.countP (·.taken)

/-- Condition 1 of 45_reference_model.md R144: between an instruction and an earlier writer of a register it
uses stand at least three others or a taken branch. Saying it of every earlier writer is the same as
saying it of the latest. -/
def HazardFree (es : List Event) : Prop :=
  ∀ (i j : Nat) (ei ej : Event) (q : RegIdx), es[i]? = some ei → es[j]? = some ej → i < j →
    writesRegOf ei.instr = some q → q ∈ usesRegs ej.instr → q ≠ 0#3 →
      i + 4 ≤ j ∨ ∃ k ek, i < k ∧ k < j ∧ es[k]? = some ek ∧ ek.taken = true

/-- Condition 2 of 45_reference_model.md R144: no `jalr` is executed, or `REF_JALR = none`. -/
def NoLinkingJalr (c : Config) (es : List Event) : Prop :=
  c.refJalr = .none ∨ ∀ e ∈ es, e.instr.opcode ≠ .jalr

/-- Condition 3 of 45_reference_model.md R144: no executed word has been overwritten by an earlier store, but by
the word the image holds there. -/
def NoExecutedStore (image : Memory) (es : List Event) : Prop :=
  ∀ (i j : Nat) (ei ej : Event) (a : Nat) (v : Word), es[i]? = some ei → es[j]? = some ej → i < j →
    ei.store = some (a, v) → addressIndex ej.pc = a → v = image.read a

/-- Condition 4 of 45_reference_model.md R144: the three words behind a taken branch and behind the `halt` lie in
memory. -/
def SpeculationInBounds (c : Config) (es : List Event) : Prop :=
  ∀ e ∈ es, e.taken = true ∨ e.instr = .halt → e.pc.s32 + 3 < c.memSize

/-- Condition 5 of 45_reference_model.md R144, for `UNUSED_BITS_POLICY = fatal`: the word behind a taken branch or
behind the `halt` has clear high bits; and so has every executed word, which the source's condition leaves
unsaid though execute rejects one that has not (44_pipeline.md R103). -/
def HighBitsClearWhereExecuted (c : Config) (image : Memory) (es : List Event) : Prop :=
  c.unusedBits = .ignore ∨ ∀ e ∈ es, highBitsClear c.layout e.word = true ∧
    (e.taken = true ∨ e.instr = .halt →
      highBitsClear c.layout (image.read (addressIndex e.pc + 1)) = true)

/-! ### Program texts without an error (46_assembler.md R181 and its provisos) -/

/-- A register operand: one digit from 0 to 7 (46_assembler.md R168). -/
def IsRegisterToken (t : Token) : Prop := ∃ r : RegIdx, t = [Char.ofNat (48 + r.toNat)]

/-- The record with index `k` carries the label `name`. -/
def LabelAt (rs : List Record) (name : Token) (k : Nat) : Prop :=
  ∃ q, rs[k]? = some q ∧ q.label = some name

/-- Every label is valid (or unchecked), and no two records carry the same one. -/
def LabelsWellDefined (c : Config) (rs : List Record) : Prop :=
  (∀ r ∈ rs, ∀ l, r.label = some l → c.labelName = .loose ∨ validLabel l = true) ∧
  ∀ (i j : Nat) (l : Token), LabelAt rs l i → LabelAt rs l j → i = j

/-- A `.fill` record without an error: its operand is a literal in the 32-bit signed range or a defined label
(46_assembler.md R162). -/
def FillCorrect (rs : List Record) (args : List Token) : Prop :=
  ∃ x rest, args = x :: rest ∧
    ((∃ v, parseLiteral x = some v ∧ -2147483648 ≤ v ∧ v ≤ 2147483647) ∨
      (parseLiteral x = none ∧ ∃ t, LabelAt rs x t))

/-- The offset an `lw`, `sw` or `beq` at address `k` gets from a label at address `t` (46_assembler.md R170). -/
def labelOffset (o : Opcode) (k t : Nat) : Int := if o = .beq then (t : Int) - k - 1 else (t : Int)

/-- An instruction record at address `k` without an error: the opcode string is recognised, the operands
suffice, every register operand is one, and the offset operand is a literal or a defined label whose offset
lies in the 16-bit range (46_assembler.md R163, R168, R170, R172). -/
def InstructionCorrect (rs : List Record) (k : Nat) (r : Record) : Prop :=
  ∃ o, opcodeOfString r.opcode = some o ∧ operandsNeeded o ≤ r.args.length ∧
    (∀ (j : Nat) (x : Token), r.args[j]? = some x → j < operandsNeeded o → o.format ≠ .I ∨ j < 2 →
      IsRegisterToken x) ∧
    (∀ x, o.format = .I → r.args[2]? = some x →
      (∃ v, parseLiteral x = some v ∧ -32768 ≤ v ∧ v ≤ 32767) ∨
      (parseLiteral x = none ∧ ∃ t, LabelAt rs x t ∧ -32768 ≤ labelOffset o k t ∧
        labelOffset o k t ≤ 32767))

/-- A program text without an error. -/
def ProgramCorrect (c : Config) (rs : List Record) : Prop :=
  LabelsWellDefined c rs ∧
  ∀ (k : Nat) (r : Record), rs[k]? = some r →
    if r.opcode = fillString then FillCorrect rs r.args else InstructionCorrect rs k r

end Sys2Proof.Machine
end

