-- ==== Sys2Proof/Certificates/Slice0/Obligations.lean ====
section
/-! DEFINITION. The statements for the provers, from the numbered rules of spec/. A docstring that says
"decision D<n>" names a choice the spec marks as its own (92_eei_decisions.md). -/

open Sys2Proof Sys2Proof.Machine

/-! ### The codec -/

/-- Words the spec writes out decode to the instructions they stand for, in the default layout and in the
alternative one (30_encoding.md sections 2 and 6, 95_test_vectors.md section 2). -/
def Obligations.SpecWordsDecode : Prop :=
  decodeTableWord 32 0x000A0003 = some (.add 1 2 3) ∧
  decodeTableWord 32 0x006E0007 = some (.nor 5 6 7) ∧
  decodeTableWord 32 0x009CFFFF = some (.lw 3 4 (-1)) ∧
  decodeTableWord 32 0x00D58000 = some (.sw 2 5 (-32768)) ∧
  decodeTableWord 32 0x0100FFFA = some (.beq 0 0 (-6)) ∧
  decodeTableWord 32 0x01670000 = some (.jalr 4 7) ∧
  decodeTableWord 32 0x01800000 = some .halt ∧
  decodeTableWord 32 0x01C00000 = some .noop ∧
  decode .alt 0x4700FFFF#32 = .beq 3 4 (-1)

/-- 30_encoding.md R58 and R61: decode reads every field at its place, whatever the layout, selects the
format by the opcode alone, and gives a tuple for every word. -/
def Obligations.DecodeReadsFieldsByFormat : Prop :=
  ∀ (L : Layout) (w : Word),
    let op := w.toNat / 2 ^ L.opLsb % 8
    let a := w.toNat / 2 ^ L.raLsb % 8
    let b := w.toNat / 2 ^ L.rbLsb % 8
    let off : Int := if w.toNat / 2 ^ 15 % 2 = 1 then (w.toNat % 65536 : Nat) - 65536
      else (w.toNat % 65536 : Nat)
    (op ≤ 1 → decodeFields L w = .rType op a b (w.toNat % 8)) ∧
    (2 ≤ op → op ≤ 4 → decodeFields L w = .iType op a b off) ∧
    (op = 5 → decodeFields L w = .jType op a b) ∧
    (6 ≤ op → decodeFields L w = .oType op) ∧
    (decode L w).fields = decodeFields L w

/-- The two round trips of the codec (30_encoding.md section 4, an inference of the spec from R60 and R61):
decode gives back every well-formed field tuple; encode gives back a word exactly when its bits outside
its format's fields are 0; decode is not injective on all words but is on the image of encode. -/
def Obligations.CodecRoundTrips : Prop :=
  ∀ L : Layout, L.admissible = true →
    (∀ (p : OffsetRangePolicy) (f : Fields), f.wellFormed = true →
      ∃ w, encodeFields L p f = .ok w ∧ decodeFields L w = f) ∧
    (∀ (p : OffsetRangePolicy) (w : Word),
      encodeFields L p (decodeFields L w) = .ok w ↔ unusedBitsClear L w = true) ∧
    ¬ Function.Injective (decodeFields L) ∧
    (∀ (p : OffsetRangePolicy) (f g : Fields) (u v : Word), encodeFields L p f = .ok u →
      encodeFields L p g = .ok v → decodeFields L u = decodeFields L v → u = v)

/-- Decode and encode agree on instructions: every well-formed instruction, in every admissible layout, is
what its word decodes to, and its word is the one `encode` gives its fields (30_encoding.md section 4). -/
def Obligations.DecodeOfEncode : Prop :=
  ∀ (L : Layout) (i : Instr), L.admissible = true → i.wellFormed = true →
    decode L (encode L i) = i ∧ ∀ p : OffsetRangePolicy, encodeFields L p i.fields = .ok (encode L i)

/-- 30_encoding.md R60, with the offset policy (decision D6): under `reject`, encode refuses exactly the
tuples that miss a precondition; under `wrap`, offsets that agree modulo 65536 give the same answer and no
offset is refused; every word encode gives is non-negative and 0 outside the fields of its format. -/
def Obligations.EncodePreconditions : Prop :=
  ∀ L : Layout, L.admissible = true →
    (∀ f : Fields, (∃ w, encodeFields L .reject f = .ok w) ↔ f.wellFormed = true) ∧
    (∀ (op a b : Nat) (off : Int), (Fields.iType op a b 0).wellFormed = true → offsetFits off = false →
      encodeFields L .reject (.iType op a b off) = .error .offsetOutOfRange) ∧
    (∀ (op a b : Nat) (off k : Int),
      encodeFields L .wrap (.iType op a b (off + 65536 * k)) = encodeFields L .wrap (.iType op a b off)) ∧
    (∀ (op a b : Nat) (off : Int), (Fields.iType op a b 0).wellFormed = true →
      ∃ w, encodeFields L .wrap (.iType op a b off) = .ok w) ∧
    (∀ (p : OffsetRangePolicy) (f : Fields) (w : Word), encodeFields L p f = .ok w →
      0 ≤ w.s32 ∧ unusedBitsClear L w = true)

/-- Unused bits have no effect on decoding (30_encoding.md section 5; decision D2): words that agree on the
fields of the format decode alike. -/
def Obligations.UnusedBitsDoNotDecode : Prop :=
  ∀ (L : Layout) (v w : Word), L.admissible = true →
    v &&& fieldMask L (opcodeOf L w).format = w &&& fieldMask L (opcodeOf L w).format →
      decode L v = decode L w

/-- The words the hardware and the reset memory hold (30_encoding.md section 5): in every admissible layout
the canonical no-op and halt words decode so and have their fields at 0, the zero word is `add 0 0 0`, and
the word of all ones is a no-op. -/
def Obligations.DistinguishedWords : Prop :=
  ∀ L : Layout, L.admissible = true →
    decode L (noopWord L) = .noop ∧ noopWord L = 7#32 <<< L.opLsb ∧
    decode L (haltWord L) = .halt ∧ haltWord L = 6#32 <<< L.opLsb ∧
    decode L 0#32 = .add 0 0 0 ∧ decode L 0xFFFFFFFF#32 = .noop

/-- 30_encoding.md R59: the offset of a word is its low 16 bits, not scaled and not shifted, sign-extended
to 32 bits; it is the offset operand of the instruction the word decodes to. -/
def Obligations.OffsetIsSignExtended : Prop :=
  ∀ (L : Layout) (w : Word),
    (w.getLsbD 15 = false → (offsetWord w).s32 = (w.toNat % 65536 : Nat)) ∧
    (w.getLsbD 15 = true → (offsetWord w).s32 = (w.toNat % 65536 : Nat) - 65536) ∧
    (∀ a b o, decode L w = .lw a b o ∨ decode L w = .sw a b o ∨ decode L w = .beq a b o →
      o = (offsetWord w).s32 ∧ offsetOperand o = offsetWord w)

/-! ### Reset and loading -/

/-- The reset values, a choice the spec marks as its own (decisions D9, D10, D11, D24, D25; 10_state.md
section 9): an image that fits is loaded into both memories with 0 above it, registers and pc are 0, every
latch holds the no-op with zero data, no cycle is counted, the run is on, the symbol table is empty; an
image that does not fit is refused; `State.reset` is this state for the empty image. -/
def Obligations.ResetValues : Prop :=
  (∀ (c : Config) (image : List Word), image.length ≤ c.memSize →
    ∃ s, load c image = .ok s ∧ s.cfg = c ∧ s.pc = 0#32 ∧ (∀ r, s.x r = 0#32) ∧ s.regs[0] = 0#32 ∧
      (∀ a, s.imem.read a = image[a]?.getD 0#32) ∧ (∀ a, s.dmem.read a = s.imem.read a) ∧
      s.ifid = ⟨noopWord c.layout, 0#32⟩ ∧ s.idex = ⟨noopWord c.layout, 0#32, 0#32, 0#32, 0#32⟩ ∧
      s.exmem = ⟨noopWord c.layout, 0#32, 0#32, 0#32⟩ ∧ s.memwb = ⟨noopWord c.layout, 0#32⟩ ∧
      s.wbend = ⟨noopWord c.layout, 0#32⟩ ∧ s.cycleCount = 0 ∧ s.status = .running) ∧
  (∀ (c : Config) (image : List Word), c.memSize < image.length → load c image = .error .imageTooLong) ∧
  load .default [] = .ok State.reset ∧ (∀ name, findLabel initialTable name = none)

/-- With the empty image the machine executes `add 0 0 0` words until fetch runs off the end of memory
(70_reset_and_hazards.md section 1, decision D3): it faults `OutOfBoundsMemory(MEM_SIZE)` after exactly
MEM_SIZE cycles, with all registers 0. -/
def Obligations.EmptyImageRunsOffMemory : Prop :=
  ∀ c : Config, c.admissible = true → c.r0Write = .ignore →
    ∃ s, load c [] = .ok s ∧
      (run (c.memSize + 1) s).status = .faulted (.outOfBoundsMemory (BitVec.ofNat 32 c.memSize)) ∧
      (run (c.memSize + 1) s).cycleCount = c.memSize ∧
      (run (c.memSize + 1) s).pc = BitVec.ofNat 32 c.memSize ∧
      ∀ r, (run (c.memSize + 1) s).x r = 0#32

/-- The decimal form of a machine-code image is lossless (20_memory.md section 5, decision D33): each number
lies in the signed 32-bit range, and reading the numbers back gives the image; numbers congruent modulo
2^32 stand for one word. -/
def Obligations.DecimalImageRoundTrips : Prop :=
  (∀ image : List Word, imageOfDecimals (decimalsOfImage image) = image) ∧
  (∀ w : Word, -2147483648 ≤ decimalOfWord w ∧ decimalOfWord w ≤ 2147483647) ∧
  (∀ d k : Int, wordOfDecimal (d + 2 ^ 32 * k) = wordOfDecimal d)

/-! ### Invariants -/

/-- Every loaded state with admissible parameters has the invariant, and so has `State.reset`. -/
def Obligations.InvAfterReset : Prop :=
  StateInv State.reset ∧
  ∀ (c : Config) (image : List Word) (s : State), c.admissible = true → load c image = .ok s → StateInv s

/-- Every step keeps the invariant: admissible parameters, canonical memories with valid addresses only, and
register 0 stored as 0 (00_scope.md section 3, 20_memory.md section 1, 10_state.md section 2). -/
def Obligations.StepKeepsInv : Prop :=
  ∀ s n : State, StateInv s → step s = .next n → StateInv n

/-- No step and no instruction changes instruction memory or the parameters (10_state.md sections 4 and 5,
20_memory.md section 4, decision D22): a store is never seen by a later fetch. -/
def Obligations.InstructionMemoryIsReadOnly : Prop :=
  (∀ (k : Nat) (s n : State), steps k s = .next n → n.imem = s.imem ∧ n.cfg = s.cfg) ∧
  (∀ (k : Nat) (s : State), (run k s).imem = s.imem ∧ (run k s).cfg = s.cfg) ∧
  (∀ (i : Instr) (s t : State), exec i s = .next t → t.imem = s.imem ∧ t.cfg = s.cfg)

/-! ### The five stages -/

/-- Fetch (44_pipeline.md section 2; that the check is made in a squashing step too is decision D14): an
invalid pc faults in every cycle, whatever the other stages hold; else the next IFID holds the word at pc and pc
plus 1, unless this step squashes it. -/
def Obligations.FetchStage : Prop :=
  ∀ s : State, Cycling s →
    (¬ ValidAddress s.cfg s.pc → step s = .fault (.outOfBoundsMemory s.pc)) ∧
    (∀ n, step s = .next n → ValidAddress s.cfg s.pc ∧
      (¬ TakesBranch s → n.ifid.instr = s.imem.read s.pc.s32.toNat ∧ n.ifid.pcPlus1 = s.pc + 1#32 ∧
        n.pc = s.pc + 1#32))

/-- Decode (44_pipeline.md section 2; the uniform treatment of every word is decision D11): the next IDEX
holds the word, its pcPlus1, the registers its fields name as they stood before the step, register 0 as 0,
and the sign-extended offset, whatever the opcode. -/
def Obligations.DecodeStage : Prop :=
  ∀ s n : State, Cycling s → step s = .next n → ¬ TakesBranch s →
    n.idex.instr = s.ifid.instr ∧ n.idex.pcPlus1 = s.ifid.pcPlus1 ∧
    n.idex.readRegA = s.x (regA s.cfg.layout s.ifid.instr) ∧
    n.idex.readRegB = s.x (regB s.cfg.layout s.ifid.instr) ∧
    (regA s.cfg.layout s.ifid.instr = 0#3 → n.idex.readRegA = 0#32) ∧
    (regB s.cfg.layout s.ifid.instr = 0#3 → n.idex.readRegB = 0#32) ∧
    n.idex.offset = (s.ifid.instr.setWidth 16).signExtend 32

/-- Execute (44_pipeline.md section 2; the values for opcodes the source does not list are decision D11, the
fault is decision D2): `aluResult` by the opcode, the branch target for every opcode, and
`UnrecognizedOpcode` under the `fatal` policy when a bit above the opcode field is set. -/
def Obligations.ExecuteStage : Prop :=
  ∀ s : State, Cycling s →
    (ValidAddress s.cfg s.pc → s.cfg.unusedBits = .fatal →
      s.idex.instr.toNat / 2 ^ (s.cfg.layout.opLsb + 3) ≠ 0 →
        step s = .fault (.unrecognizedOpcode s.idex.instr)) ∧
    (∀ n, step s = .next n → ¬ TakesBranch s →
      n.exmem.instr = s.idex.instr ∧ n.exmem.branchTarget = s.idex.pcPlus1 + s.idex.offset ∧
      n.exmem.readRegB = s.idex.readRegB ∧
      n.exmem.aluResult =
        match opcodeOf s.cfg.layout s.idex.instr with
        | .add => s.idex.readRegA + s.idex.readRegB
        | .nor => ~~~(s.idex.readRegA ||| s.idex.readRegB)
        | .lw => s.idex.readRegA + s.idex.offset
        | .sw => s.idex.readRegA + s.idex.offset
        | .beq => s.idex.readRegA - s.idex.readRegB
        | .jalr => 0#32
        | .halt => 0#32
        | .noop => 0#32)

/-- 44_pipeline.md R104: the memory stage loads, stores, branches or passes its data through, by the opcode;
`lw` and `sw` with an invalid address fault `OutOfBoundsMemory` of it; every cell of data memory but the one a
`sw` writes is as before; MEMWB takes the instruction, squash or not; a `beq` whose result is 0 applies the
overrides of R105 and nothing else does. The memory's canonical form is a premise: it holds in every state a
run reaches. -/
def Obligations.MemoryStage : Prop :=
  ∀ s : State, Cycling s → s.dmem.wf = true →
    (opcodeOf s.cfg.layout s.exmem.instr = .lw ∨ opcodeOf s.cfg.layout s.exmem.instr = .sw →
      ¬ ValidAddress s.cfg s.exmem.aluResult → ValidAddress s.cfg s.pc →
      executeRejects s.cfg s.idex.instr = false →
        step s = .fault (.outOfBoundsMemory s.exmem.aluResult)) ∧
    (∀ n, step s = .next n →
      n.memwb.instr = s.exmem.instr ∧
      (opcodeOf s.cfg.layout s.exmem.instr = .lw → ValidAddress s.cfg s.exmem.aluResult ∧
        n.memwb.writeData = s.dmem.read s.exmem.aluResult.s32.toNat) ∧
      (opcodeOf s.cfg.layout s.exmem.instr ≠ .lw → n.memwb.writeData = s.exmem.aluResult) ∧
      (opcodeOf s.cfg.layout s.exmem.instr = .sw → ValidAddress s.cfg s.exmem.aluResult ∧
        ∀ a, n.dmem.read a = if a = s.exmem.aluResult.s32.toNat then s.exmem.readRegB
          else s.dmem.read a) ∧
      (opcodeOf s.cfg.layout s.exmem.instr ≠ .sw → ∀ a, n.dmem.read a = s.dmem.read a) ∧
      (opcodeOf s.cfg.layout s.exmem.instr = .beq → s.exmem.aluResult = 0#32 →
        n.pc = s.exmem.branchTarget ∧ n.ifid.instr = noopWord s.cfg.layout ∧
          n.idex.instr = noopWord s.cfg.layout ∧ n.exmem.instr = noopWord s.cfg.layout) ∧
      (¬ TakesBranch s → n.pc = s.pc + 1#32 ∧ n.ifid.instr = s.imem.read s.pc.s32.toNat ∧
        n.idex.instr = s.ifid.instr ∧ n.exmem.instr = s.idex.instr))

/-- 44_pipeline.md R105: a step that resolves a taken branch sets pc to the branch target, in place of fetch's,
and squashes the IFID, IDEX and EXMEM of the next state, so that none of the three younger words is in any
latch; when the test fails nothing is overridden. -/
def Obligations.TakenBranchSquashes : Prop :=
  ∀ s n : State, Cycling s → step s = .next n →
    (TakesBranch s → n.pc = s.exmem.branchTarget ∧ n.ifid.instr = noopWord s.cfg.layout ∧
      n.idex.instr = noopWord s.cfg.layout ∧ n.exmem.instr = noopWord s.cfg.layout ∧
      n.memwb.instr = s.exmem.instr ∧ n.wbend.instr = s.memwb.instr) ∧
    (¬ TakesBranch s → n.pc = s.pc + 1#32 ∧ n.ifid.instr = s.imem.read s.pc.s32.toNat ∧
      n.idex.instr = s.ifid.instr ∧ n.exmem.instr = s.idex.instr ∧
      n.memwb.instr = s.exmem.instr ∧ n.wbend.instr = s.memwb.instr)

/-- What a squashed latch holds besides the no-op is 0, a choice the spec marks as its own (44_pipeline.md
section 2, decision D11); and MEMWB, WBEND, both memories and the cycle count, which a squash does not
touch, are as in any other step. -/
def Obligations.SquashedLatchContent : Prop :=
  ∀ s n : State, Cycling s → TakesBranch s → step s = .next n →
    n.ifid = ⟨noopWord s.cfg.layout, 0#32⟩ ∧ n.idex = ⟨noopWord s.cfg.layout, 0#32, 0#32, 0#32, 0#32⟩ ∧
    n.exmem = ⟨noopWord s.cfg.layout, 0#32, 0#32, 0#32⟩ ∧
    n.memwb = ⟨s.exmem.instr, 0#32⟩ ∧ n.wbend = ⟨s.memwb.instr, s.memwb.writeData⟩ ∧
    n.dmem = s.dmem ∧ n.imem = s.imem ∧ n.cycleCount = s.cycleCount + 1

/-- Writeback (44_pipeline.md section 2): it writes destReg for `add` and `nor`, regB for `lw`, nothing else; a
write to register 0 is discarded under `ignore` and raises `WriteToRegisterZero` under `fatal` (decision D4);
decode in the same step sees the old values. That the fault carries the instruction word in MEMWB is the
model's reading (log entry 6). -/
def Obligations.WritebackStage : Prop :=
  ∀ s : State, Cycling s →
    let w := s.memwb.instr
    let L := s.cfg.layout
    (∀ n, step s = .next n →
      (opcodeOf L w = .add ∨ opcodeOf L w = .nor →
        ∀ r, n.x r = if r = destReg w ∧ r ≠ 0#3 then s.memwb.writeData else s.x r) ∧
      (opcodeOf L w = .lw →
        ∀ r, n.x r = if r = regB L w ∧ r ≠ 0#3 then s.memwb.writeData else s.x r) ∧
      (opcodeOf L w ≠ .add → opcodeOf L w ≠ .nor → opcodeOf L w ≠ .lw → ∀ r, n.x r = s.x r) ∧
      (¬ TakesBranch s → n.idex.readRegA = s.x (regA L s.ifid.instr) ∧
        n.idex.readRegB = s.x (regB L s.ifid.instr))) ∧
    (s.cfg.r0Write = .fatal → ValidAddress s.cfg s.pc → executeRejects s.cfg s.idex.instr = false →
      (opcodeOf L s.exmem.instr = .lw ∨ opcodeOf L s.exmem.instr = .sw →
        ValidAddress s.cfg s.exmem.aluResult) →
      ((opcodeOf L w = .add ∨ opcodeOf L w = .nor) ∧ destReg w = 0#3 ∨
        opcodeOf L w = .lw ∧ regB L w = 0#3) →
      step s = .fault (.writeToRegisterZero w))

/-- 10_state.md R26: `cycleCount` is the number of cycles since reset. Each cycle adds 1, a run of `k` cycles
from a loaded state counts `k`, and nothing reads it: a run with another count differs in the count only. -/
def Obligations.CycleCountCountsCycles : Prop :=
  (∀ (s n : State) (m : Nat), Cycling s → step s = .next n → n.cycleCount = s.cycleCount + 1 ∧
    step { s with cycleCount := m } = .next { n with cycleCount := m + 1 }) ∧
  (∀ (c : Config) (image : List Word) (s : State) (k : Nat), load c image = .ok s →
    (run k s).cycleCount ≤ k ∧ ((run k s).status = .running → (run k s).cycleCount = k)) ∧
  (∀ (s : State) (m k : Nat), ∃ d, (run k s).cycleCount = s.cycleCount + d ∧
    run k { s with cycleCount := m } = { run k s with cycleCount := m + d })

/-- WBEND is a copy of MEMWB one cycle later (44_pipeline.md section 2, decision D11) and nothing reads it:
a step from a state with another WBEND gives the same next state. -/
def Obligations.WbEndIsTraceOnly : Prop :=
  ∀ (s n : State) (b : WbEnd), Cycling s → step s = .next n →
    n.wbend = ⟨s.memwb.instr, s.memwb.writeData⟩ ∧ step { s with wbend := b } = .next n

/-! ### The whole step, faults, halt -/

/-- The whole step (44_pipeline.md section 3 and 60_exceptions.md section 2, decision D13): a cycle
completes exactly when no stage meets a fault condition, and else reports the first in the order fetch,
execute, memory, writeback, with what the fault carries (60_exceptions.md section 1; that the word
`WriteToRegisterZero` carries is the one in MEMWB is the model's reading, log entry 6). -/
def Obligations.FaultPriorityAndCompletion : Prop :=
  ∀ s : State, Cycling s →
    let L := s.cfg.layout
    let fetchFaults := ¬ ValidAddress s.cfg s.pc
    let executeFaults := s.cfg.unusedBits = .fatal ∧ highBitsClear L s.idex.instr = false
    let memoryFaults := (opcodeOf L s.exmem.instr = .lw ∨ opcodeOf L s.exmem.instr = .sw) ∧
      ¬ ValidAddress s.cfg s.exmem.aluResult
    let writebackFaults := s.cfg.r0Write = .fatal ∧
      ((opcodeOf L s.memwb.instr = .add ∨ opcodeOf L s.memwb.instr = .nor) ∧
          destReg s.memwb.instr = 0#3 ∨
        opcodeOf L s.memwb.instr = .lw ∧ regB L s.memwb.instr = 0#3)
    (fetchFaults → step s = .fault (.outOfBoundsMemory s.pc)) ∧
    (¬ fetchFaults → executeFaults → step s = .fault (.unrecognizedOpcode s.idex.instr)) ∧
    (¬ fetchFaults → ¬ executeFaults → memoryFaults →
      step s = .fault (.outOfBoundsMemory s.exmem.aluResult)) ∧
    (¬ fetchFaults → ¬ executeFaults → ¬ memoryFaults → writebackFaults →
      step s = .fault (.writeToRegisterZero s.memwb.instr)) ∧
    (¬ fetchFaults → ¬ executeFaults → ¬ memoryFaults → ¬ writebackFaults → ∃ n, step s = .next n)

/-- 20_memory.md R35 and 60_exceptions.md R192: `OutOfBoundsMemory` is raised by fetch for an invalid pc and by
the memory stage for a `lw` or `sw` with an invalid address, carries that address, and is raised by nothing
else; it maps to exit code 1. -/
def Obligations.OutOfBoundsExactly : Prop :=
  (∀ s : State, Cycling s → ¬ ValidAddress s.cfg s.pc → step s = .fault (.outOfBoundsMemory s.pc)) ∧
  (∀ s : State, Cycling s → ValidAddress s.cfg s.pc → executeRejects s.cfg s.idex.instr = false →
    opcodeOf s.cfg.layout s.exmem.instr = .lw ∨ opcodeOf s.cfg.layout s.exmem.instr = .sw →
    ¬ ValidAddress s.cfg s.exmem.aluResult → step s = .fault (.outOfBoundsMemory s.exmem.aluResult)) ∧
  (∀ (s : State) (a : Word), Cycling s → step s = .fault (.outOfBoundsMemory a) →
    ¬ ValidAddress s.cfg a ∧ (a = s.pc ∨ a = s.exmem.aluResult ∧
      (opcodeOf s.cfg.layout s.exmem.instr = .lw ∨ opcodeOf s.cfg.layout s.exmem.instr = .sw))) ∧
  (∀ a, exitCode (.faulted (.outOfBoundsMemory a)) = some 1)

/-- Faults that cannot occur (60_exceptions.md section 1, decisions D2 and D4): no step refuses, none raises
`OutOfBoundsRegister`, and under the default policies none raises `UnrecognizedOpcode` or
`WriteToRegisterZero`. -/
def Obligations.UnreachableFaults : Prop :=
  ∀ s : State, (∀ q, s.status ≠ .faulted q) →
    (∀ r, step s ≠ .refused r) ∧ (∀ k, step s ≠ .fault (.outOfBoundsRegister k)) ∧
    (s.cfg.unusedBits = .ignore → ∀ w, step s ≠ .fault (.unrecognizedOpcode w)) ∧
    (s.cfg.r0Write = .ignore → ∀ w, step s ≠ .fault (.writeToRegisterZero w))

/-- Halt detection (44_pipeline.md section 4, decision D8): a `halt` in MEMWB ends the run before any further
cycle, with status `halted` and nothing else changed, and a halted machine never changes again. That the
detecting step answers a next state, and that a halted machine answers itself (no step is applied to it,
10_state.md section 7), is the model's reading (log entry 4). -/
def Obligations.HaltEndsRun : Prop :=
  ∀ s : State, s.status = .running → opcodeOf s.cfg.layout s.memwb.instr = .halt →
    step s = .next { s with status := .halted } ∧
    (∀ k, steps (k + 1) s = .next { s with status := .halted }) ∧
    (∀ k, run (k + 1) s = { s with status := .halted }) ∧ exitCode .halted = some 0

/-- A fault ends the run (60_exceptions.md section 1, decision D24; 44_pipeline.md section 4 for `run`): the final
state is the one before the faulting step with status `faulted(reason)`, however much fuel is left; its exit
code is 1 (60_exceptions.md section 3). That it answers its fault for ever, where the spec applies no step to
it, is the model's reading (log entry 4). -/
def Obligations.FaultEndsRun : Prop :=
  ∀ (s : State) (f : Fault), Cycling s → step s = .fault f →
    (∀ k, run (k + 1) s = { s with status := .faulted f }) ∧
    (∀ k, steps (k + 1) s = .fault f) ∧
    step { s with status := .faulted f } = .fault f ∧ exitCode (.faulted f) = some 1

/-- A run that halts never faults (10_state.md R27: "A faulted run is never a halted run"; the status itself is
decision D24): once some fuel brings it to `halted`, no fuel brings it to `faulted`, and more fuel changes
nothing. -/
def Obligations.HaltedRunIsSafe : Prop :=
  ∀ (s : State) (k : Nat), (run k s).status = .halted → SafeRun s ∧ ∀ j, k ≤ j → run j s = run k s

/-- 10_state.md R15: pc changes in exactly two ways: every cycle adds 1, and a `beq` in the memory stage whose
comparison result is zero sets it to the branch target instead; no other instruction changes it, `jalr`
among them. -/
def Obligations.PcChangesInTwoWays : Prop :=
  ∀ s n : State, Cycling s → step s = .next n →
    (opcodeOf s.cfg.layout s.exmem.instr = .beq → s.exmem.aluResult = 0#32 →
      n.pc = s.exmem.branchTarget) ∧
    (opcodeOf s.cfg.layout s.exmem.instr = .beq → s.exmem.aluResult ≠ 0#32 → n.pc = s.pc + 1#32) ∧
    (opcodeOf s.cfg.layout s.exmem.instr ≠ .beq → n.pc = s.pc + 1#32)

/-- Registers are read by decode only (10_state.md section 2, 44_pipeline.md section 2): what the registers
hold before a step shows in the next state only in IDEX and in the registers that keep their value. -/
def Obligations.RegistersReadOnlyByDecode : Prop :=
  ∀ (s n : State) (g : Vector Word 8), Cycling s → step s = .next n →
    ∃ n', step { s with regs := g } = .next n' ∧
      n' = { n with idex := n'.idex, regs := n'.regs } ∧
      (n.idex.instr = n'.idex.instr ∧ n.idex.pcPlus1 = n'.idex.pcPlus1 ∧ n.idex.offset = n'.idex.offset) ∧
      ∀ r, n'.x r = n.x r ∨ (n.x r = s.x r ∧ n'.x r = readReg g r)

/-- Data memory is touched only by the memory stage of `lw` and `sw` (10_state.md section 5): in a step with
neither there, its content is carried over and shows nowhere else. -/
def Obligations.DataMemoryTouchedOnlyByLwSw : Prop :=
  ∀ (s n : State) (m : Memory), Cycling s → step s = .next n →
    opcodeOf s.cfg.layout s.exmem.instr ≠ .lw → opcodeOf s.cfg.layout s.exmem.instr ≠ .sw →
      n.dmem = s.dmem ∧ step { s with dmem := m } = .next { n with dmem := m }

/-! ### Instructions in flight: hazards, stores and branches -/

/-- No forwarding (70_reset_and_hazards.md section 2): when writeback writes a register that decode reads in
the same step, decode takes the old value; decode in the next step takes the new one. -/
def Obligations.StaleReadWithoutForwarding : Prop :=
  ∀ (s n m : State) (r : RegIdx), Cycling s → ¬ TakesBranch s → step s = .next n →
    Cycling n → ¬ TakesBranch n → step n = .next m → r ≠ 0#3 →
    writesRegOf (decode s.cfg.layout s.memwb.instr) = some r →
    regA s.cfg.layout s.ifid.instr = r → regA s.cfg.layout n.ifid.instr = r →
      n.idex.readRegA = s.x r ∧ n.x r = s.memwb.writeData ∧ m.idex.readRegA = s.memwb.writeData

/-- A load sees the store just before it (70_reset_and_hazards.md section 2, 20_memory.md section 4): with a
`sw` in EXMEM and behind it in IDEX a `lw` of the same address, the word loaded two steps later is the
word stored. -/
def Obligations.StoreThenLoadSeesStore : Prop :=
  ∀ s n m : State, Cycling s → s.dmem.wf = true →
    opcodeOf s.cfg.layout s.exmem.instr = .sw → opcodeOf s.cfg.layout s.idex.instr = .lw →
    s.idex.readRegA + s.idex.offset = s.exmem.aluResult →
    step s = .next n → step n = .next m → m.memwb.writeData = s.exmem.readRegB

/-- The three instructions behind a taken branch never retire (44_pipeline.md section 2, 42_control.md R93):
after the squashing step, three more cycles change no register and no data memory, fetch from the target on,
and end with no halt detected and no branch taken on the way. -/
def Obligations.TakenBranchCostsThreeCycles : Prop :=
  ∀ s n : State, Cycling s → s.cfg.layout.admissible = true → TakesBranch s → step s = .next n →
    ∀ m, steps 3 n = .next m →
      m.regs = n.regs ∧ m.dmem = n.dmem ∧ m.cycleCount = n.cycleCount + 3 ∧
      m.pc = s.exmem.branchTarget + 3#32 ∧ Cycling m ∧
      m.exmem.instr = s.imem.read s.exmem.branchTarget.s32.toNat

/-- Stage occupancy and the end of a run (44_pipeline.md sections 4 and 5, inferences of the spec; halt in MEMWB
is decision D8): with no branch taken in four cycles, the word fetched in the first is in IFID, IDEX, EXMEM and
MEMWB after the first to the fourth, and in WBEND after a fifth; if it is a `halt`, the run ends in the state
after the fourth, pc 4 above the halt's address, with the three words behind it in EXMEM, IDEX and IFID. -/
def Obligations.StageOccupancy : Prop :=
  ∀ s s1 s2 s3 s4 : State, Cycling s → ¬ TakesBranch s → step s = .next s1 →
    Cycling s1 → ¬ TakesBranch s1 → step s1 = .next s2 → Cycling s2 → ¬ TakesBranch s2 →
    step s2 = .next s3 → Cycling s3 → ¬ TakesBranch s3 → step s3 = .next s4 →
    let h := s.pc.s32.toNat
    let w := s.imem.read h
    s1.ifid.instr = w ∧ s2.idex.instr = w ∧ s3.exmem.instr = w ∧ s4.memwb.instr = w ∧
    s4.wbend.instr = s.ifid.instr ∧ s4.exmem.instr = s.imem.read (h + 1) ∧
    s4.idex.instr = s.imem.read (h + 2) ∧ s4.ifid.instr = s.imem.read (h + 3) ∧
    s4.pc = s.pc + 4#32 ∧ s4.cycleCount = s.cycleCount + 4 ∧
    (opcodeOf s.cfg.layout w = .halt → ∀ k, run (k + 5) s = { s4 with status := .halted }) ∧
    (opcodeOf s.cfg.layout w ≠ .halt → ∀ s5, step s4 = .next s5 → s5.wbend.instr = w)

/-! ### Instructions executed alone (`exec`), with their frames -/

/-- `add` and `nor` executed alone (40_alu.md, architectural pseudocode): the sum modulo 2^32 or the NOR of all
32 bits goes to destReg, both sources read before it is written; a result for register 0 is discarded
(decision D4); pc goes on by 1 and nothing else changes. -/
def Obligations.AluResults : Prop :=
  ∀ (ra rb rd : RegIdx) (s : State), rd ≠ 0#3 ∨ s.cfg.r0Write = .ignore →
    (∃ t, exec (.add ra rb rd) s = .next t ∧
      (∀ r, t.x r = if r = rd ∧ r ≠ 0#3 then s.x ra + s.x rb else s.x r) ∧
      t = { s with regs := t.regs, pc := s.pc + 1#32 }) ∧
    (∃ t, exec (.nor ra rb rd) s = .next t ∧
      (∀ r, t.x r = if r = rd ∧ r ≠ 0#3 then ~~~(s.x ra ||| s.x rb) else s.x r) ∧
      t = { s with regs := t.regs, pc := s.pc + 1#32 })

/-- `lw` executed alone (41_loadstore.md, architectural pseudocode): with a valid address the word of data
memory there goes to regB (discarded for register 0, decision D4); pc goes on by 1 and nothing else changes. -/
def Obligations.LoadResult : Prop :=
  ∀ (ra rb : RegIdx) (off : Int) (s : State), rb ≠ 0#3 ∨ s.cfg.r0Write = .ignore →
    ValidAddress s.cfg (s.x ra + BitVec.ofInt 32 off) →
    ∃ t, exec (.lw ra rb off) s = .next t ∧
      (∀ r, t.x r = if r = rb ∧ r ≠ 0#3 then s.dmem.read (s.x ra + BitVec.ofInt 32 off).s32.toNat
        else s.x r) ∧
      t = { s with regs := t.regs, pc := s.pc + 1#32 }

/-- `sw` executed alone (41_loadstore.md, architectural pseudocode): with a valid address the word of regB is
stored in data memory there, and every other address reads as before; pc goes on by 1 and nothing else
changes. -/
def Obligations.StoreResult : Prop :=
  ∀ (ra rb : RegIdx) (off : Int) (s : State), s.dmem.wf = true →
    ValidAddress s.cfg (s.x ra + BitVec.ofInt 32 off) →
    ∃ t, exec (.sw ra rb off) s = .next t ∧
      (∀ a, t.dmem.read a = if a = (s.x ra + BitVec.ofInt 32 off).s32.toNat then s.x rb
        else s.dmem.read a) ∧
      t.dmem.wf = true ∧ t = { s with dmem := t.dmem, pc := s.pc + 1#32 }

/-- Where `lw` and `sw` fault (41_loadstore.md section on each, 20_memory.md R35): exactly with an invalid
address `lw` and `sw` executed alone fault `OutOfBoundsMemory` of it, a `lw` to register 0 among them. -/
def Obligations.LoadStoreFaults : Prop :=
  ∀ (ra rb : RegIdx) (off : Int) (s : State),
    (¬ ValidAddress s.cfg (s.x ra + BitVec.ofInt 32 off) ↔
      exec (.lw ra rb off) s = .fault (.outOfBoundsMemory (s.x ra + BitVec.ofInt 32 off))) ∧
    (¬ ValidAddress s.cfg (s.x ra + BitVec.ofInt 32 off) ↔
      exec (.sw ra rb off) s = .fault (.outOfBoundsMemory (s.x ra + BitVec.ofInt 32 off)))

/-- A write to register 0 under `R0_WRITE_POLICY = fatal` (10_state.md section 2, decision D4): `add`, `nor` and,
with a valid address, `lw` fault `WriteToRegisterZero` with the instruction's canonical word (log entry 6). -/
def Obligations.RegisterZeroWriteFaults : Prop :=
  ∀ (ra rb : RegIdx) (off : Int) (s : State), s.cfg.r0Write = .fatal →
    exec (.add ra rb 0#3) s = .fault (.writeToRegisterZero (encode s.cfg.layout (.add ra rb 0#3))) ∧
    exec (.nor ra rb 0#3) s = .fault (.writeToRegisterZero (encode s.cfg.layout (.nor ra rb 0#3))) ∧
    (ValidAddress s.cfg (s.x ra + BitVec.ofInt 32 off) →
      exec (.lw ra 0#3 off) s = .fault (.writeToRegisterZero (encode s.cfg.layout (.lw ra 0#3 off))))

/-- `beq` executed alone (42_control.md, architectural pseudocode): it goes to `pc + 1 + offset` exactly when the
two words are equal, else to `pc + 1`, and changes nothing else; `beq r r off` is always taken. -/
def Obligations.BranchResult : Prop :=
  ∀ (ra rb : RegIdx) (off : Int) (s : State),
    exec (.beq ra rb off) s =
      .next { s with pc := if s.x ra = s.x rb then s.pc + 1#32 + BitVec.ofInt 32 off else s.pc + 1#32 } ∧
    exec (.beq ra ra off) s = .next { s with pc := s.pc + 1#32 + BitVec.ofInt 32 off }

/-- `jalr` and `noop` executed alone on the pipelined machine (42_control.md R92's normative part, 43_system.md
R97): pc goes on by 1 and nothing else changes, no register is written and no jump is made; `halt` does the
same and ends the run (43_system.md). -/
def Obligations.JalrHaltNoopResults : Prop :=
  ∀ (ra rb : RegIdx) (s : State),
    exec (.jalr ra rb) s = .next { s with pc := s.pc + 1#32 } ∧
    exec .noop s = .next { s with pc := s.pc + 1#32 } ∧
    exec .halt s = .next { s with pc := s.pc + 1#32, status := .halted }

/-- The frame of the instructions that store nothing (40_alu.md to 43_system.md): every address of both memories
reads as before; every register but the destination is unchanged, and no register at all for `beq`,
`jalr`, `halt` and `noop`; the latches, the count and the parameters are unchanged, and the status too but
for `halt`. -/
def Obligations.FrameOfNonStoring : Prop :=
  ∀ (i : Instr) (s t : State), i.opcode ≠ .sw → exec i s = .next t →
    (∀ a, t.dmem.read a = s.dmem.read a) ∧ (∀ a, t.imem.read a = s.imem.read a) ∧
    (∀ r, writesRegOf i ≠ some r → t.x r = s.x r) ∧ t.x 0#3 = 0#32 ∧
    t.cfg = s.cfg ∧ t.ifid = s.ifid ∧ t.idex = s.idex ∧ t.exmem = s.exmem ∧ t.memwb = s.memwb ∧
    t.wbend = s.wbend ∧ t.cycleCount = s.cycleCount ∧ (i ≠ .halt → t.status = s.status)

/-- The frame of `sw` (41_loadstore.md): every address of data memory but the effective address reads as before,
all of instruction memory does, and every register, the latches, the count, the status and the parameters
are unchanged. -/
def Obligations.FrameOfStore : Prop :=
  ∀ (ra rb : RegIdx) (off : Int) (s t : State), s.dmem.wf = true → exec (.sw ra rb off) s = .next t →
    (∀ a, a ≠ addressIndex (effectiveAddress (s.x ra) (offsetOperand off)) →
      t.dmem.read a = s.dmem.read a) ∧
    (∀ a, t.imem.read a = s.imem.read a) ∧ (∀ r, t.x r = s.x r) ∧
    t.cfg = s.cfg ∧ t.ifid = s.ifid ∧ t.idex = s.idex ∧ t.exmem = s.exmem ∧ t.memwb = s.memwb ∧
    t.wbend = s.wbend ∧ t.cycleCount = s.cycleCount ∧ t.status = s.status

/-! ### From `exec` to a run -/

/-- A step runs the decoded instruction, on this pipeline over five cycles (00_scope.md R9, 44_pipeline.md R115):
from a state with no instruction in flight and two inert words behind pc, the word at pc is fetched, decoded
and executed as `exec` of the instruction it decodes to (`RunsAsExec` says after which step each part is
done). That a write to register 0 carries the word itself, where `exec` has the canonical encoding, is the
model's reading (log entry 6). -/
def Obligations.StepRunsDecodedInstruction : Prop :=
  ∀ s : State, s.status = .running → s.cfg.layout.admissible = true → Drained s →
    0 ≤ s.pc.s32 → s.pc.s32 + 4 < s.cfg.memSize → s.cfg.memSize ≤ 2 ^ 31 - 1 → FollowedByInert s →
    let w := s.imem.read (addressIndex s.pc)
    executeRejects s.cfg w = false → RunsAsExec s w (decode s.cfg.layout w)

/-- The reference model runs `exec` (45_reference_model.md section on its step): at a valid pc, an instruction but
`jalr` does to registers, memory and pc what `exec` does, and is counted, and where `exec` faults the step
faults so, with the word fetched where the fault carries a word (log entry 6); an invalid pc faults. -/
def Obligations.ReferenceStepRunsExec : Prop :=
  ∀ r : RefState,
    (¬ ValidAddress r.cfg r.pc → refStep r = .fault (.outOfBoundsMemory r.pc)) ∧
    (ValidAddress r.cfg r.pc → (decode r.cfg.layout (refWord r)).opcode ≠ .jalr →
      match exec (decode r.cfg.layout (refWord r)) r.view with
      | .next t => refStep r = .next { r with
          pc := t.pc, regs := t.regs, mem := t.dmem, status := t.status, instrCount := r.instrCount + 1 }
      | .fault (.writeToRegisterZero _) => refStep r = .fault (.writeToRegisterZero (refWord r))
      | .fault f => refStep r = .fault f
      | .refused _ => False)

/-- `jalr` in the reference model, general knowledge under a parameter (42_control.md, decision D15): under
`link_then_jump` regB takes `pc + 1` and pc takes regA read after that, so `jalr r r` goes to `pc + 1` for
every r but 0; a link to register 0 is discarded under `ignore`, so that `jalr 0 0` goes to 0, and under
`fatal` faults `WriteToRegisterZero` with the word fetched (log entries 6 and 14); under `none` it only goes
on. Nothing else changes. -/
def Obligations.ReferenceJalr : Prop :=
  ∀ (w : Word) (ra rb : RegIdx) (r : RefState),
    (r.cfg.refJalr = .none →
      refExec w (.jalr ra rb) r = .next { r with pc := r.pc + 1#32, instrCount := r.instrCount + 1 }) ∧
    (r.cfg.refJalr = .linkThenJump → rb ≠ 0#3 ∨ r.cfg.r0Write = .ignore →
      ∃ t, refExec w (.jalr ra rb) r = .next t ∧
        (∀ q, t.x q = if q = rb ∧ q ≠ 0#3 then r.pc + 1#32 else r.x q) ∧
        t.pc = (if ra = 0#3 then 0#32 else if ra = rb then r.pc + 1#32 else r.x ra) ∧
        t = { r with pc := t.pc, regs := t.regs, instrCount := r.instrCount + 1 }) ∧
    (r.cfg.refJalr = .linkThenJump → rb = 0#3 → r.cfg.r0Write = .fatal →
      refExec w (.jalr ra rb) r = .fault (.writeToRegisterZero w))

/-- The end of a reference run (45_reference_model.md, an inference of the spec): it executed a `halt` last,
pc is that halt's address plus 1, and `instrCount` counts every executed instruction, the halt among them. -/
def Obligations.ReferenceFinalState : Prop :=
  ∀ (k : Nat) (r : RefState), r.status = .running → (refRun k r).status = .halted →
    (∃ es e, refTrace k r = es ++ [e] ∧ e.instr = .halt ∧ (refRun k r).pc = e.pc + 1#32 ∧
      ∀ d ∈ es, d.instr ≠ .halt) ∧
    (refRun k r).instrCount = r.instrCount + (refTrace k r).length

/-- The equivalence of the pipeline and the reference model under the conditions the spec derives
(45_reference_model.md section on equivalence, an inference of the spec; condition 5 completed as
`HighBitsClearWhereExecuted` says): when the reference run of an image halts after `N` instructions, `B` of them
taken branches, the pipeline run halts with the same registers and the same data memory, after exactly
`N + 3 + 3 * B` cycles, its pc 3 above the reference's. -/
def Obligations.PipelineEqualsReference : Prop :=
  ∀ (c : Config) (image : List Word) (r0 : RefState) (s0 : State) (k : Nat), c.admissible = true →
    refLoad c image = .ok r0 → load c image = .ok s0 → (refRun k r0).status = .halted →
    let es := refTrace k r0
    HazardFree es → NoLinkingJalr c es → NoExecutedStore (Memory.ofImage image) es →
    SpeculationInBounds c es → HighBitsClearWhereExecuted c (Memory.ofImage image) es →
    let cycles := es.length + 3 + 3 * takenCount es
    let t := run (cycles + 1) s0
    t.status = .halted ∧ t.regs = (refRun k r0).regs ∧ t.dmem = (refRun k r0).mem ∧
      t.cycleCount = cycles ∧ t.pc = (refRun k r0).pc + 3#32

/-! ### The assembler engine -/

/-- 46_assembler.md R159: pass 1 succeeds on labels that are valid (or unchecked) and distinct; after a pass 1
that does not fail, the table maps every label to the index of its record, and nothing else is in it;
pass 1 looks at the labels only, in success and in failure. -/
def Obligations.PassOneTable : Prop :=
  ∀ (c : Config) (rs : List Record),
    ((∀ r ∈ rs, ∀ l, r.label = some l → c.labelName = .loose ∨ validLabel l = true) →
      (∀ (i j : Nat) (ri rj : Record) (l : Token), rs[i]? = some ri → rs[j]? = some rj → i < j →
        ri.label = some l → rj.label ≠ some l) →
      ∃ tbl, pass1 c initialTable 0 rs = .ok tbl) ∧
    (∀ ops : Record → Token × List Token,
      pass1 c initialTable 0 (rs.map fun r => ⟨r.label, (ops r).1, (ops r).2⟩)
        = pass1 c initialTable 0 rs) ∧
    (∀ tbl, pass1 c initialTable 0 rs = .ok tbl →
      (∀ (k : Nat) (r : Record) (name : Token), rs[k]? = some r → r.label = some name →
        findLabel tbl name = some k) ∧
      (∀ (k : Nat) (name : Token), findLabel tbl name = some k →
        ∃ r, rs[k]? = some r ∧ r.label = some name))

/-- `define` and `lookup` (46_assembler.md section 2; the order of the checks and the `fatal` default are
decisions of the spec, D5 and D16): a valid new name is entered and then found, every other name is
found as before, a name that is there already is refused, an invalid one is refused under `strict`, and
an absent one is `UndefinedLabel` under `fatal` and a marker that is no address under `sentinel`. -/
def Obligations.DefineThenLookup : Prop :=
  ∀ (c : Config) (t : SymbolTable) (name : Token) (a : Nat),
    (c.labelName = .strict → validLabel name = false → defineLabel c t name a = .error .invalidLabel) ∧
    (validLabel name = true ∨ c.labelName = .loose →
      (∀ b, findLabel t name = some b → defineLabel c t name a = .error .duplicateLabel) ∧
      (findLabel t name = none → ∃ t', defineLabel c t name a = .ok t' ∧
        lookupLabel c t' name = .ok (.found a) ∧ ∀ q, q ≠ name → lookupLabel c t' q = lookupLabel c t q)) ∧
    (findLabel t name = none → c.undefinedLabel = .fatal → lookupLabel c t name = .error .undefinedLabel) ∧
    (findLabel t name = none → c.undefinedLabel = .sentinel → lookupLabel c t name = .ok .notFound)

/-- 46_assembler.md R160: a failure in pass 1 ends the assembly with no word; a label defined twice is one; where
all labels obey the naming rule the error is `DuplicateLabel`, at the second definition of the earliest
repeated one. -/
def Obligations.DuplicateLabelFails : Prop :=
  (∀ (c : Config) (rs : List Record) (e : AsmStop), pass1 c initialTable 0 rs = .error e →
    assemble c rs = .error e) ∧
  ∀ (c : Config) (rs : List Record) (i j : Nat) (ri rj : Record) (name : Token),
    rs[i]? = some ri → rs[j]? = some rj → i < j → ri.label = some name → rj.label = some name →
    (∃ e a, assemble c rs = .error (.error e a) ∧ a ≤ j ∧ (e = .duplicateLabel ∨ e = .invalidLabel)) ∧
    ((∀ r ∈ rs, ∀ l, r.label = some l → validLabel l = true) →
      (∀ (i' j' : Nat) (ri' rj' : Record) (l : Token), rs[i']? = some ri' → rs[j']? = some rj' → i' < j' →
        ri'.label = some l → rj'.label = some l → j ≤ j') →
      assemble c rs = .error (.error .duplicateLabel j))

/-- The label-resolution law (46_assembler.md section 5, an inference of the spec, with its provisos spelled out as
`ProgramCorrect`; under `OFFSET_RANGE_POLICY = reject`, decision D6): a program whose labels are valid and
distinct, whose referenced labels are defined, and whose opcodes, operand counts, registers, literals and
offsets are in order, assembles; pass 2 fails only where a record does; and in an assembled program there is
one word per record, a `beq` with a label has the offset target minus own address minus 1, an `lw` or `sw`
with a label has the label's address as its offset, and a `.fill` of a label is the label's address. -/
def Obligations.LabelResolution : Prop :=
  ∀ (c : Config) (rs : List Record), c.layout.admissible = true → c.offsetRange = .reject →
    (ProgramCorrect c rs → ∃ ws, assemble c rs = .ok ws) ∧
    (∀ tbl, pass1 c initialTable 0 rs = .ok tbl →
      (∀ (k : Nat) (r : Record), rs[k]? = some r → ∃ w, recordWord c tbl k r = .ok w) →
        ∃ ws, assemble c rs = .ok ws) ∧
    (∀ ws, assemble c rs = .ok ws → ws.length = rs.length ∧
      ∀ (k : Nat) (r : Record) (w : Word), rs[k]? = some r → ws[k]? = some w →
        (∀ o a b x rest, opcodeOfString r.opcode = some o → r.args = a :: b :: x :: rest →
          parseLiteral x = none → o.format = .I →
          ∃ t, LabelAt rs x t ∧ opcodeOf c.layout w = o ∧ (offsetWord w).s32 = labelOffset o k t) ∧
        (∀ x rest, r.opcode = fillString → r.args = x :: rest → parseLiteral x = none →
          ∃ t, LabelAt rs x t ∧ w = BitVec.ofNat 32 t))

/-- 46_assembler.md R168: a register operand is one character, `0` to `7`, and its value is that digit; every
other string is `InvalidRegister`. -/
def Obligations.RegisterOperands : Prop :=
  (∀ (t : Token) (r : RegIdx), parseRegister t = .ok r ↔ t = [Char.ofNat (48 + r.toNat)]) ∧
  (∀ t : Token, (∀ r : RegIdx, t ≠ [Char.ofNat (48 + r.toNat)]) →
    parseRegister t = .error (.error .invalidRegister))

/-- A valid label is never taken for a numeric literal (46_assembler.md R158). -/
def Obligations.LiteralIsNoLabel : Prop :=
  ∀ (t : Token) (v : Int), parseLiteral t = some v → validLabel t = false

/-- `OffsetOverflow` (46_assembler.md section 4, decision D6): under `reject` an instruction whose resolved offset
does not fit fails with it and every other is encoded; under `wrap` none fails. -/
def Obligations.OffsetOverflowExactly : Prop :=
  ∀ (c : Config) (i : Instr),
    (c.offsetRange = .reject → i.wellFormed = false → encodeInstr c i = .error (.error .offsetOverflow)) ∧
    (i.wellFormed = true ∨ c.offsetRange = .wrap → encodeInstr c i = .ok (encode c.layout i))

/-! ### The host's side -/

/-- How a program's word comes to run from reset (44_pipeline.md sections 2 and 5; the placing itself is the
model's, log entry 7): `withFetchWord` changes the word at pc in instruction memory and nothing else; the very
next step fetches that word, and in the steps after it the pipeline runs the instruction the host's decoder
reads from it, as `exec` does, whatever the word. -/
def Obligations.PlacedWordRuns : Prop :=
  ∀ nbits w : Nat, nbits ≤ 32 →
    let s := State.reset.withFetchWord nbits w
    let word : Word := BitVec.ofNat 32 (w % 2 ^ nbits)
    s = { State.reset with imem := s.imem } ∧ (∀ a, s.imem.read a = if a = 0 then word else 0#32) ∧
    (∃ s1, step s = .next s1 ∧ s1.ifid.instr = word ∧ s1.pc = 1#32) ∧
    ∃ i, decodeTableWord nbits w = some i ∧ RunsAsExec s word i

/-- Exit codes (60_exceptions.md section 3): the simulator's is 0 for a run that halts and 1 for one that faults,
and 1 for malformed input (a field that is no optionally signed decimal, 20_memory.md section 5, decision
D33) and for an image that does not fit (70_reset_and_hazards.md section 1, decision D3). That a run still on
when its fuel is used up has none is the model's choice (log entry 17). The assembler's is 0 exactly on
success and 1 on any error (46_assembler.md section 4), and where undefined labels are fatal there is nothing
else. -/
def Obligations.ExitCodes : Prop :=
  (∀ (c : Config) (image : List Word) (fuel : Nat) (tokens : List Token),
    imageOfTokens tokens = .ok image → ∀ s, load c image = .ok s →
      simulate c fuel tokens = .ok (run fuel s) ∧
      ((run fuel s).status = .halted → simulatorExitCode (simulate c fuel tokens) = some 0) ∧
      (∀ f, (run fuel s).status = .faulted f → simulatorExitCode (simulate c fuel tokens) = some 1) ∧
      ((run fuel s).status = .running → simulatorExitCode (simulate c fuel tokens) = none)) ∧
  (∀ (c : Config) (fuel : Nat) (tokens : List Token),
    (∃ t ∈ tokens, parseLiteral t = none) ∨ c.memSize < tokens.length →
      simulatorExitCode (simulate c fuel tokens) = some 1) ∧
  (∀ tokens : List Token, (∀ t ∈ tokens, ∃ d, parseLiteral t = some d) →
    ∃ image, imageOfTokens tokens = .ok image ∧ image.length = tokens.length) ∧
  (∀ (c : Config) (rs : List Record),
    ((∃ ws, assemble c rs = .ok ws) ↔ assemblerExitCode (assemble c rs) = some 0) ∧
    (∀ e a, assemble c rs = .error (.error e a) →
      a < rs.length ∧ assemblerExitCode (assemble c rs) = some 1) ∧
    (c.undefinedLabel = .fatal → assemblerExitCode (assemble c rs) = some 0 ∨
      ∃ e a, assemble c rs = .error (.error e a)))
end

