-- ==== Sys2Proof/Laws/Assembler.lean ====
section
/-! SUPPORT. What the operations of the assembler engine and of the simulator's loader can do, said once. -/

namespace Sys2Proof.Machine

/-! ### The symbol table -/

@[simp] theorem findLabel_initialTable (name : Token) : findLabel initialTable name = none := rfl

theorem findLabel_append (t u : SymbolTable) (name : Token) :
    findLabel (t ++ u) name = (findLabel t name).or (findLabel u name) := by
  induction t with
  | nil => simp [findLabel]
  | cons p t ih =>
    obtain ⟨n, a⟩ := p
    simp only [List.cons_append, findLabel]
    split <;> simp [ih]

/-- `define` succeeds on a name that is valid or unchecked and not in the table yet, and appends one entry
(46_assembler.md R155). -/
theorem defineLabel_eq_ok {c : Config} {t t' : SymbolTable} {name : Token} {a : Nat} :
    defineLabel c t name a = .ok t' ↔
      (c.labelName = .loose ∨ validLabel name = true) ∧ findLabel t name = none ∧
        t ++ [(name, a)] = t' := by
  unfold defineLabel
  cases c.labelName <;> cases validLabel name <;> cases findLabel t name <;> simp

theorem resolveLabel_eq_ok {c : Config} {t : SymbolTable} {name : Token} {a : Nat} :
    resolveLabel c t name = .ok a ↔ findLabel t name = some a := by
  unfold resolveLabel lookupLabel
  cases findLabel t name <;> cases c.undefinedLabel <;> simp

/-- Under the `fatal` policy a label operand never meets the sentinel (46_assembler.md R156). -/
theorem resolveLabel_ne_sentinel {c : Config} {t : SymbolTable} {name : Token}
    (h : c.undefinedLabel = .fatal) : resolveLabel c t name ≠ .error .sentinelNotSpecified := by
  unfold resolveLabel lookupLabel
  cases findLabel t name <;> simp [h]

/-! ### Operands -/

/-- A label operand, a token that is no literal, resolves to what the table holds (46_assembler.md R169). -/
theorem resolveOperand_label {c : Config} {t : SymbolTable} {x : Token} {o : Operand}
    (h : parseLiteral x = none) :
    resolveOperand c t x = .ok o ↔ ∃ a, findLabel t x = some a ∧ .label a = o := by
  unfold resolveOperand
  simp only [h]
  cases hr : resolveLabel c t x with
  | error e =>
    have : findLabel t x = none := by
      cases hf : findLabel t x with
      | none => rfl
      | some a => rw [resolveLabel_eq_ok.2 hf] at hr; cases hr
    simp [this]
  | ok a => simp [resolveLabel_eq_ok.1 hr]

/-- A literal operand resolves to its value when that lies in the 32-bit signed range (46_assembler.md R169). -/
theorem resolveOperand_literal {c : Config} {t : SymbolTable} {x : Token} {o : Operand} {v : Int}
    (h : parseLiteral x = some v) :
    resolveOperand c t x = .ok o ↔ literalFits v = true ∧ .literal v = o := by
  unfold resolveOperand
  simp only [h]
  cases literalFits v <;> simp

/-! ### The two passes -/

/-- Pass 2 gives one word per record, each the word of its record at its address, or it fails
(46_assembler.md R161). -/
theorem pass2_eq_ok {c : Config} {tbl : SymbolTable} {rs : List Record} {addr : Nat} {ws : List Word} :
    pass2 c tbl addr rs = .ok ws ↔ ws.length = rs.length ∧
      ∀ (k : Nat) (r : Record) (w : Word), rs[k]? = some r → ws[k]? = some w →
        recordWord c tbl (addr + k) r = .ok w := by
  induction rs generalizing addr ws with
  | nil => cases ws <;> simp [pass2]
  | cons r rs ih =>
    simp only [pass2]
    constructor
    · intro h
      cases hw : recordWord c tbl addr r with
      | error e => simp [hw] at h
      | ok w =>
        cases hp : pass2 c tbl (addr + 1) rs with
        | error e => simp [hw, hp] at h
        | ok vs =>
          simp only [hw, hp, Except.ok.injEq] at h
          subst h
          obtain ⟨hl, hk⟩ := ih.1 hp
          refine ⟨by simp [hl], fun k q u hq hu => ?_⟩
          cases k with
          | zero => simp_all
          | succ k =>
            have := hk k q u (by simpa using hq) (by simpa using hu)
            rwa [Nat.add_assoc, Nat.add_comm 1 k] at this
    · rintro ⟨hl, hk⟩
      cases ws with
      | nil => simp at hl
      | cons w vs =>
        have h0 := hk 0 r w rfl rfl
        have hp : pass2 c tbl (addr + 1) rs = .ok vs := ih.2 ⟨by simpa using hl, fun k q u hq hu => by
          have := hk (k + 1) q u (by simpa using hq) (by simpa using hu)
          rwa [Nat.add_comm k 1, ← Nat.add_assoc] at this⟩
        simp only [Nat.add_zero] at h0
        simp [h0, hp]

theorem assemble_eq_ok {c : Config} {rs : List Record} {ws : List Word} :
    assemble c rs = .ok ws ↔
      ∃ tbl, pass1 c initialTable 0 rs = .ok tbl ∧ pass2 c tbl 0 rs = .ok ws := by
  unfold assemble
  cases pass1 c initialTable 0 rs <;> simp

/-! ### The simulator's loader -/

/-- The loader reads one word per field, the field's value modulo 2^32 (20_memory.md R43). -/
theorem imageOfTokens_eq_ok {ts : List Token} {ws : List Word} :
    imageOfTokens ts = .ok ws ↔
      ∃ ds, ts.map parseLiteral = ds.map some ∧ imageOfDecimals ds = ws := by
  induction ts generalizing ws with
  | nil => simp [imageOfTokens, imageOfDecimals]
  | cons t ts ih =>
    simp only [imageOfTokens]
    constructor
    · intro h
      cases hd : parseLiteral t with
      | none => simp [hd] at h
      | some d =>
        cases hi : imageOfTokens ts with
        | error e => simp [hd, hi] at h
        | ok vs =>
          simp only [hd, hi, Except.ok.injEq] at h
          obtain ⟨ds, hds, rfl⟩ := ih.1 hi
          exact ⟨d :: ds, by simp [hd, hds], h⟩
    · rintro ⟨ds, hds, rfl⟩
      cases ds with
      | nil => simp at hds
      | cons d ds =>
        simp only [List.map_cons, List.cons.injEq] at hds
        rw [hds.1, ih.2 ⟨ds, hds.2, rfl⟩]
        rfl

end Sys2Proof.Machine
end

