-- ==== Sys2Proof/Laws/Codec.lean ====
section
/-! SUPPORT. Laws of the codec: what a field accessor reads from a word put together of fields. -/

namespace Sys2Proof

/-- The inequalities an admissible layout gives (00_scope.md R7). -/
theorem Layout.admissible_iff (L : Layout) : L.admissible = true ↔
    16 ≤ L.rbLsb ∧ L.rbLsb + 3 ≤ L.raLsb ∧ L.raLsb + 3 ≤ L.opLsb ∧ L.opLsb + 3 ≤ 31 := by
  simp [Layout.admissible, and_assoc]

@[simp] theorem std_admissible : Layout.std.admissible = true := rfl
@[simp] theorem alt_admissible : Layout.alt.admissible = true := rfl

@[simp] theorem opcodeOfBits_toBits (o : Opcode) : opcodeOfBits (opcodeToBits o) = o := by
  cases o <;> rfl

@[simp] theorem opcodeToBits_ofBits (b : BitVec 3) : opcodeToBits (opcodeOfBits b) = b := by
  revert b; decide

@[simp] theorem field3_or (k : Nat) (u v : Word) : field3 k (u ||| v) = field3 k u ||| field3 k v := by
  ext i hi; simp [field3]

/-- Reading a field where it was placed. -/
theorem field3_place3 (v : BitVec 3) (k : Nat) (h : k + 3 ≤ 32) : field3 k (place3 v k) = v := by
  ext i hi
  simp only [field3, place3, BitVec.getElem_extractLsb', BitVec.getLsbD_shiftLeft,
    BitVec.getLsbD_setWidth]
  have h1 : k + i < 32 := by omega
  have h2 : ¬ (k + i < k) := by omega
  have h3 : k + i - k = i := by omega
  have h4 : i < 32 := by omega
  simp [h3, h4, h1, BitVec.getLsbD_eq_getElem hi]

/-- A field placed elsewhere reads as 0. -/
theorem field3_place3_other (v : BitVec 3) (k j : Nat) (h : j + 3 ≤ k ∨ k + 3 ≤ j) :
    field3 k (place3 v j) = 0#3 := by
  ext i hi
  simp only [field3, place3, BitVec.getElem_extractLsb', BitVec.getLsbD_shiftLeft,
    BitVec.getLsbD_setWidth, BitVec.getElem_zero]
  rcases h with h | h
  · have : v.getLsbD (k + i - j) = false := BitVec.getLsbD_of_ge _ _ (by omega)
    simp [this]
  · have : k + i < j := by omega
    simp [this]

/-- The offset field reaches no field that lies at bit 16 or above. -/
theorem field3_offset (u : BitVec 16) (k : Nat) (h : 16 ≤ k) : field3 k (u.setWidth 32) = 0#3 := by
  ext i hi
  have : u.getLsbD (k + i) = false := BitVec.getLsbD_of_ge _ _ (by omega)
  simp [field3, this]

@[simp] theorem offset16_or (u v : Word) : offset16 (u ||| v) = offset16 u ||| offset16 v := by
  ext i hi; simp [offset16]

theorem offset16_place3 (v : BitVec 3) (j : Nat) (h : 16 ≤ j) : offset16 (place3 v j) = 0#16 := by
  ext i hi
  have : i < j := by omega
  simp [offset16, place3, this]

theorem offset16_setWidth (u : BitVec 16) : offset16 (u.setWidth 32) = u := by
  ext i hi
  have : i < 32 := by omega
  simp [offset16, this, BitVec.getLsbD_eq_getElem hi]

/-- The signed reading of an offset that fits its field is the offset. -/
theorem toInt_ofInt_of_offsetFits {off : Int} (h : offsetFits off = true) :
    (BitVec.ofInt 16 off).toInt = off := by
  simp [offsetFits] at h
  rw [BitVec.toInt_ofInt]
  exact Int.bmod_eq_of_le (by norm_num; omega) (by norm_num; omega)

/-- The offset a word's 16 bits spell always fits. -/
theorem offsetFits_toInt (u : BitVec 16) : offsetFits u.toInt = true := by
  have h1 := BitVec.le_toInt u
  have h2 := BitVec.toInt_lt (x := u)
  simp only [offsetFits, Bool.and_eq_true, decide_eq_true_eq]
  norm_num at h1 h2
  omega

/-- The offset operand of a decoded word is the sign-extended field that decode reads
(30_encoding.md R59). -/
theorem offsetWord_eq (w : Word) : BitVec.ofInt 32 (offset16 w).toInt = offsetWord w := rfl

/-- Every decoded instruction is well formed (30_encoding.md R61, R64). -/
theorem decode_wellFormed (L : Layout) (w : Word) : (decode L w).wellFormed = true := by
  unfold decode
  split <;> simp [Instr.wellFormed, offsetFits_toInt]

@[simp] theorem decode_opcode (L : Layout) (w : Word) : (decode L w).opcode = opcodeOf L w := by
  unfold decode
  split <;> simp_all [Instr.opcode]

/-- The opcode field of a word built of parts is its opcode part's. -/
theorem opcodeOf_parts (L : Layout) (h : L.admissible = true) (o : Opcode) (a b : RegIdx) (rest : Word)
    (hr : field3 L.opLsb rest = 0#3) :
    opcodeOf L (opcodePart L o ||| place3 a L.raLsb ||| place3 b L.rbLsb ||| rest) = o := by
  obtain ⟨h1, h2, h3, h4⟩ := (L.admissible_iff).1 h
  simp only [opcodeOf, opcodeBits, field3_or, opcodePart]
  rw [field3_place3 _ _ (by omega), field3_place3_other a _ _ (by omega),
    field3_place3_other b _ _ (by omega), hr]
  simp

theorem opcodeOf_encodeO (L : Layout) (h : L.admissible = true) (o : Opcode) :
    opcodeOf L (encodeO L o) = o := by
  obtain ⟨h1, h2, h3, h4⟩ := (L.admissible_iff).1 h
  simp only [opcodeOf, opcodeBits, encodeO, opcodePart]
  rw [field3_place3 _ _ (by omega), opcodeOfBits_toBits]

theorem opcodeOf_encodeJ (L : Layout) (h : L.admissible = true) (o : Opcode) (a b : RegIdx) :
    opcodeOf L (encodeJ L o a b) = o := by
  have := opcodeOf_parts L h o a b 0 (by simp [field3])
  simpa [encodeJ] using this

theorem opcodeOf_encodeR (L : Layout) (h : L.admissible = true) (o : Opcode) (a b d : RegIdx) :
    opcodeOf L (encodeR L o a b d) = o :=
  opcodeOf_parts L h o a b _
    (field3_place3_other d _ _ (by obtain ⟨h1, h2, h3, h4⟩ := (L.admissible_iff).1 h; omega))

theorem opcodeOf_encodeI (L : Layout) (h : L.admissible = true) (o : Opcode) (a b : RegIdx) (off : Int) :
    opcodeOf L (encodeI L o a b off) = o :=
  opcodeOf_parts L h o a b _
    (field3_offset _ _ (by obtain ⟨h1, h2, h3, h4⟩ := (L.admissible_iff).1 h; omega))

/-- The canonical no-op word is a no-op in every admissible layout (30_encoding.md R65). -/
theorem opcodeOf_noopWord (L : Layout) (h : L.admissible = true) : opcodeOf L (noopWord L) = .noop :=
  opcodeOf_encodeO L h .noop

theorem decode_noopWord (L : Layout) (h : L.admissible = true) : decode L (noopWord L) = .noop := by
  simp [decode, opcodeOf_noopWord L h]

/-- The canonical no-op word has clear high bits. -/
theorem highBitsClear_noopWord (L : Layout) (h : L.admissible = true) :
    highBitsClear L (noopWord L) = true := by
  obtain ⟨h1, h2, h3, h4⟩ := (L.admissible_iff).1 h
  simp only [highBitsClear, noopWord, encode, encodeO, opcodePart, place3, beq_iff_eq]
  ext i hi
  simp only [BitVec.getElem_ushiftRight, BitVec.getLsbD_shiftLeft, BitVec.getLsbD_setWidth,
    BitVec.getElem_zero]
  have : (opcodeToBits .noop).getLsbD (L.opLsb + 3 + i - L.opLsb) = false :=
    BitVec.getLsbD_of_ge _ _ (by omega)
  simp [this]

end Sys2Proof
end

