-- ==== Sys2Proof/Laws/Memory.lean ====
section
/-! SUPPORT. Laws of the memory arrays: read after write, the canonical form, and its uniqueness. -/

namespace Sys2Proof.Machine

@[simp] theorem read_empty (a : Nat) : Memory.empty.read a = 0 := rfl

/-- Every cell of a canonical list lies at or above its first address. -/
theorem readCells_of_lt (cs : List (Nat × Word)) (a : Nat) (h : ∀ p ∈ cs, a < p.1) :
    readCells cs a = 0 := by
  induction cs with
  | nil => rfl
  | cons p cs ih =>
    have hp := h p (by simp)
    simp only [readCells]
    rw [if_neg (by omega)]
    exact ih fun q hq => h q (by simp [hq])

theorem Memory.wf_iff (m : Memory) :
    m.wf = true ↔ m.cells.Pairwise (fun p q => p.1 < q.1) ∧ ∀ p ∈ m.cells, p.2 ≠ 0#32 := by
  simp [Memory.wf]

theorem Memory.below_iff (m : Memory) (n : Nat) :
    m.below n = true ↔ ∀ p ∈ m.cells, p.1 < n := by
  simp [Memory.below]

/-- Writing lists no address but the one written and those listed before. -/
theorem mem_writeCells {cs : List (Nat × Word)} {a : Nat} {v : Word} {p : Nat × Word}
    (h : p ∈ writeCells cs a v) : p ∈ cs ∨ (p = (a, v) ∧ v ≠ 0) := by
  induction cs with
  | nil =>
    simp only [writeCells] at h
    split at h <;> simp_all [Memory.unlisted]
  | cons q cs ih =>
    obtain ⟨b, u⟩ := q
    simp only [writeCells] at h
    split at h
    · split at h
      · exact .inl h
      · rcases List.mem_cons.1 h with h | h
        · exact .inr ⟨h, by simpa [Memory.unlisted] using ‹¬v = Memory.unlisted›⟩
        · exact .inl h
    · split at h
      · split at h
        · exact .inl (by simp [h])
        · rcases List.mem_cons.1 h with h | h
          · exact .inr ⟨h, by simpa [Memory.unlisted] using ‹¬v = Memory.unlisted›⟩
          · exact .inl (by simp [h])
      · rcases List.mem_cons.1 h with h | h
        · exact .inl (by simp [h])
        · rcases ih h with h | h
          · exact .inl (by simp [h])
          · exact .inr h

theorem pairwise_writeCells {cs : List (Nat × Word)} {a : Nat} {v : Word}
    (h : cs.Pairwise (fun p q => p.1 < q.1)) :
    (writeCells cs a v).Pairwise (fun p q => p.1 < q.1) := by
  induction cs with
  | nil =>
    simp only [writeCells]
    split <;> simp
  | cons q cs ih =>
    obtain ⟨b, u⟩ := q
    obtain ⟨hb, hcs⟩ := List.pairwise_cons.1 h
    simp only [writeCells]
    split
    · split
      · exact h
      · refine List.pairwise_cons.2 ⟨fun p hp => ?_, h⟩
        rcases List.mem_cons.1 hp with rfl | hp
        · assumption
        · have := hb p hp; simp only at this ⊢; omega
    · split
      · subst_vars
        split
        · exact hcs
        · exact List.pairwise_cons.2 ⟨fun p hp => hb p hp, hcs⟩
      · refine List.pairwise_cons.2 ⟨fun p hp => ?_, ih hcs⟩
        rcases mem_writeCells hp with hp | ⟨rfl, -⟩
        · exact hb p hp
        · simp only; omega

/-- A write keeps the canonical form. -/
theorem write_wf (m : Memory) (a : Nat) (v : Word) (h : m.wf = true) : (m.write a v).wf = true := by
  rw [Memory.wf_iff] at h ⊢
  refine ⟨pairwise_writeCells h.1, fun p hp => ?_⟩
  rcases mem_writeCells hp with hp | ⟨rfl, hv⟩
  · exact h.2 p hp
  · exact hv

/-- A write below the bound keeps every listed address below it. -/
theorem write_below (m : Memory) (a n : Nat) (v : Word) (h : m.below n = true) (ha : a < n) :
    (m.write a v).below n = true := by
  rw [Memory.below_iff] at h ⊢
  intro p hp
  rcases mem_writeCells hp with hp | ⟨rfl, -⟩
  · exact h p hp
  · exact ha

theorem readCells_writeCells {cs : List (Nat × Word)} (a b : Nat) (v : Word)
    (h : cs.Pairwise (fun p q => p.1 < q.1)) :
    readCells (writeCells cs a v) b = if b = a then v else readCells cs b := by
  induction cs with
  | nil =>
    by_cases hv : v = Memory.unlisted
    · simp [writeCells, readCells, hv]
    · simp [writeCells, readCells, hv, eq_comm]
  | cons q cs ih =>
    obtain ⟨c, u⟩ := q
    obtain ⟨hc, hcs⟩ := List.pairwise_cons.1 h
    simp only [writeCells]
    by_cases hac : a < c
    · rw [if_pos hac]
      by_cases hv : v = Memory.unlisted
      · rw [if_pos hv]
        by_cases hb : b = a
        · rw [if_pos hb, hv]
          refine readCells_of_lt _ _ fun p hp => ?_
          rcases List.mem_cons.1 hp with rfl | hp
          · simpa [hb] using hac
          · have := hc p hp; simp only at this; omega
        · rw [if_neg hb]
      · rw [if_neg hv]
        by_cases hb : b = a
        · simp [readCells, hb]
        · rw [if_neg hb]; simp [readCells, Ne.symm hb]
    · rw [if_neg hac]
      by_cases hac' : a = c
      · subst hac'
        rw [if_pos rfl]
        by_cases hb : b = a
        · subst hb
          by_cases hv : v = Memory.unlisted
          · rw [if_pos hv, if_pos rfl, hv]
            exact readCells_of_lt _ _ fun p hp => hc p hp
          · rw [if_neg hv]; simp [readCells]
        · by_cases hv : v = Memory.unlisted
          · rw [if_pos hv, if_neg hb]; simp [readCells, Ne.symm hb]
          · rw [if_neg hv, if_neg hb]; simp [readCells, Ne.symm hb]
      · rw [if_neg hac']
        simp only [readCells, ih hcs]
        by_cases hb : c = b
        · subst hb; rw [if_pos rfl, if_pos rfl, if_neg (Ne.symm hac')]
        · rw [if_neg hb, if_neg hb]

/-- A read after a write of a canonical memory: the word written there, the old word everywhere else. -/
theorem read_write (m : Memory) (a b : Nat) (v : Word) (h : m.wf = true) :
    (m.write a v).read b = if b = a then v else m.read b :=
  readCells_writeCells a b v ((Memory.wf_iff m).1 h).1

theorem read_write_same (m : Memory) (a : Nat) (v : Word) (h : m.wf = true) :
    (m.write a v).read a = v := by rw [read_write m a a v h, if_pos rfl]

theorem read_write_other (m : Memory) {a b : Nat} (v : Word) (h : m.wf = true) (hb : b ≠ a) :
    (m.write a v).read b = m.read b := by rw [read_write m a b v h, if_neg hb]

theorem readCells_mem {cs : List (Nat × Word)} (h : cs.Pairwise (fun p q => p.1 < q.1))
    {p : Nat × Word} (hp : p ∈ cs) : readCells cs p.1 = p.2 := by
  induction cs with
  | nil => simp at hp
  | cons q cs ih =>
    obtain ⟨hq, hcs⟩ := List.pairwise_cons.1 h
    obtain ⟨b, u⟩ := q
    rcases List.mem_cons.1 hp with rfl | hp
    · simp [readCells]
    · have := hq p hp
      simp only [readCells]
      rw [if_neg (by simp only at this; omega)]
      exact ih hcs hp

/-- A word that is not the unlisted one is listed. -/
theorem mem_of_readCells_ne {cs : List (Nat × Word)} {a : Nat} (h : readCells cs a ≠ 0) :
    (a, readCells cs a) ∈ cs := by
  induction cs with
  | nil => exact absurd rfl h
  | cons q cs ih =>
    obtain ⟨b, u⟩ := q
    simp only [readCells] at h ⊢
    split
    · simp_all
    · rename_i hb; rw [if_neg hb] at h; exact List.mem_cons_of_mem _ (ih h)

/-- Canonical memories that read alike at every address are equal data. -/
theorem Memory.ext_of_read (m m' : Memory) (h : m.wf = true) (h' : m'.wf = true)
    (hr : ∀ a, m.read a = m'.read a) : m = m' := by
  obtain ⟨cs⟩ := m
  obtain ⟨ds⟩ := m'
  rw [Memory.wf_iff] at h h'
  have sub : ∀ {xs ys : List (Nat × Word)}, xs.Pairwise (fun p q => p.1 < q.1) →
      (∀ p ∈ xs, p.2 ≠ 0) → (∀ a, readCells xs a = readCells ys a) → ∀ p ∈ xs, p ∈ ys := by
    intro xs ys hx hx0 hxy p hp
    have h1 := readCells_mem hx hp
    have h2 : readCells ys p.1 ≠ 0 := by rw [← hxy, h1]; exact hx0 p hp
    have h3 := mem_of_readCells_ne h2
    rw [← hxy, h1] at h3
    exact h3
  have hnd : ∀ {xs : List (Nat × Word)}, xs.Pairwise (fun p q => p.1 < q.1) → xs.Nodup :=
    fun hx => hx.imp (fun {a b} hab heq => by simp [heq] at hab)
  have hperm : cs.Perm ds := (List.perm_ext_iff_of_nodup (hnd h.1) (hnd h'.1)).2 fun p =>
    ⟨sub h.1 h.2 hr p, sub h'.1 h'.2 (fun a => (hr a).symm) p⟩
  congr 1
  refine hperm.eq_of_pairwise ?_ h.1 h'.1
  intro a b _ _ hab hba
  omega

theorem mem_imageCells {ws : List Word} {a : Nat} {p : Nat × Word} (h : p ∈ imageCells a ws) :
    a ≤ p.1 ∧ p.1 < a + ws.length ∧ p.2 ≠ 0 := by
  induction ws generalizing a with
  | nil => simp [imageCells] at h
  | cons w ws ih =>
    simp only [imageCells] at h
    split at h
    · have := ih h; simp only [List.length_cons]; exact ⟨by omega, by omega, this.2.2⟩
    · rcases List.mem_cons.1 h with rfl | h
      · simp_all [Memory.unlisted]
      · have := ih h; simp only [List.length_cons]; exact ⟨by omega, by omega, this.2.2⟩

theorem pairwise_imageCells (ws : List Word) (a : Nat) :
    (imageCells a ws).Pairwise (fun p q => p.1 < q.1) := by
  induction ws generalizing a with
  | nil => simp [imageCells]
  | cons w ws ih =>
    simp only [imageCells]
    split
    · exact ih _
    · exact List.pairwise_cons.2 ⟨fun p hp => (mem_imageCells hp).1, ih _⟩

/-- A loaded memory is canonical. -/
theorem ofImage_wf (ws : List Word) : (Memory.ofImage ws).wf = true :=
  (Memory.wf_iff _).2 ⟨pairwise_imageCells ws 0, fun _ hp => (mem_imageCells hp).2.2⟩

/-- A loaded memory lists no address at or above the image's length. -/
theorem ofImage_below (ws : List Word) : (Memory.ofImage ws).below ws.length = true :=
  (Memory.below_iff _ _).2 fun _ hp => by simpa using (mem_imageCells hp).2.1

theorem readCells_imageCells (ws : List Word) (a k : Nat) :
    readCells (imageCells a ws) (a + k) = ws[k]?.getD 0 := by
  induction ws generalizing a k with
  | nil => rfl
  | cons w ws ih =>
    simp only [imageCells]
    cases k with
    | zero =>
      by_cases hw : w = Memory.unlisted
      · rw [if_pos hw]
        simp only [Nat.add_zero, List.getElem?_cons_zero, Option.getD_some, hw]
        exact readCells_of_lt _ _ fun p hp => (mem_imageCells hp).1
      · rw [if_neg hw]; simp [readCells]
    | succ k =>
      have : a + (k + 1) = a + 1 + k := by omega
      by_cases hw : w = Memory.unlisted
      · rw [if_pos hw, this, ih]; simp
      · rw [if_neg hw]
        simp only [readCells]
        rw [if_neg (by omega), this, ih]; simp

/-- A loaded memory holds word `a` of the image at address `a`, and 0 above it (10_state.md R29). -/
theorem read_ofImage (ws : List Word) (a : Nat) : (Memory.ofImage ws).read a = ws[a]?.getD 0 := by
  have := readCells_imageCells ws 0 a
  simpa [Memory.read, Memory.ofImage] using this

end Sys2Proof.Machine
end

