-- ==== Sys2Proof/Laws/Ops.lean ====
section
/-! SUPPORT. One lemma per shared operation that says what it can do: bounds, checked access, registers. -/

namespace Sys2Proof.Machine

/-! ### Bounds and checked access (20_memory.md R35, R38) -/

theorem inBounds_iff (c : Config) (a : Word) : inBounds c a = true ↔ 0 ≤ a.s32 ∧ a.s32 < c.memSize := by
  simp [inBounds]

theorem inBounds_false_iff (c : Config) (a : Word) :
    inBounds c a = false ↔ ¬(0 ≤ a.s32 ∧ a.s32 < c.memSize) := by
  rw [← inBounds_iff, Bool.not_eq_true]

theorem addressIndex_lt {c : Config} {a : Word} (h : inBounds c a = true) :
    addressIndex a < c.memSize := by
  have := (inBounds_iff c a).1 h
  simp only [addressIndex, Word.s32] at *
  omega

/-- A checked read answers the word there, and only in bounds. -/
theorem memRead_eq_ok {c : Config} {m : Memory} {a v : Word} :
    memRead c m a = .ok v ↔ inBounds c a = true ∧ m.read (addressIndex a) = v := by
  unfold memRead
  split <;> simp [*]

theorem memRead_eq_error {c : Config} {m : Memory} {a : Word} {f : Fault} :
    memRead c m a = .error f ↔ inBounds c a = false ∧ .outOfBoundsMemory a = f := by
  unfold memRead
  split <;> simp [*]

theorem memWrite_eq_ok {c : Config} {m m' : Memory} {a v : Word} :
    memWrite c m a v = .ok m' ↔ inBounds c a = true ∧ m.write (addressIndex a) v = m' := by
  unfold memWrite
  split <;> simp [*]

theorem memWrite_eq_error {c : Config} {m : Memory} {a v : Word} {f : Fault} :
    memWrite c m a v = .error f ↔ inBounds c a = false ∧ .outOfBoundsMemory a = f := by
  unfold memWrite
  split <;> simp [*]

/-! ### Registers (10_state.md R12, R13) -/

@[simp] theorem readReg_zero (g : Vector Word 8) : readReg g 0#3 = 0#32 := rfl

@[simp] theorem x_zero (s : State) : s.x 0#3 = 0#32 := rfl

theorem readReg_of_ne (g : Vector Word 8) {r : RegIdx} (h : r ≠ 0#3) : readReg g r = g[r.toNat] :=
  if_neg h

theorem readReg_set (g : Vector Word 8) (r q : RegIdx) (v : Word) (hr : r ≠ 0#3) :
    readReg (g.set r.toNat v) q = if q = r then v else readReg g q := by
  by_cases hq0 : q = 0#3
  · rw [if_neg (by rw [hq0]; exact Ne.symm hr), hq0, readReg_zero, readReg_zero]
  · rw [readReg_of_ne _ hq0, readReg_of_ne _ hq0]
    by_cases hq : q = r
    · subst hq; simp
    · have : r.toNat ≠ q.toNat := fun h => hq (BitVec.eq_of_toNat_eq h.symm)
      simp [hq, Vector.getElem_set_ne _ _ this]

/-- A register write: to register 0 it is discarded, else the one slot changes. -/
theorem writeReg_eq_ok {c : Config} {g g' : Vector Word 8} {w : Word} {r : RegIdx} {v : Word} :
    writeReg c g w r v = .ok g' ↔
      (r = 0#3 ∧ c.r0Write = .ignore ∧ g = g') ∨ (r ≠ 0#3 ∧ g.set r.toNat v = g') := by
  unfold writeReg
  split
  · split <;> simp [*]
  · simp [*]

theorem writeReg_eq_error {c : Config} {g : Vector Word 8} {w : Word} {r : RegIdx} {v : Word}
    {f : Fault} :
    writeReg c g w r v = .error f ↔ r = 0#3 ∧ c.r0Write = .fatal ∧ .writeToRegisterZero w = f := by
  unfold writeReg
  split
  · split <;> simp [*]
  · simp [*]

/-- What the registers read as after a completed write. -/
theorem readReg_writeReg {c : Config} {g g' : Vector Word 8} {w : Word} {r : RegIdx} {v : Word}
    (h : writeReg c g w r v = .ok g') (q : RegIdx) :
    readReg g' q = if q = r ∧ r ≠ 0#3 then v else readReg g q := by
  rcases writeReg_eq_ok.1 h with ⟨hr, -, rfl⟩ | ⟨hr, rfl⟩
  · simp [hr]
  · rw [readReg_set g r q v hr]; simp only [ne_eq, hr, not_false_eq_true, and_true]

/-- A write keeps the stored word of register 0 (10_state.md R13). -/
theorem writeReg_slot0 {c : Config} {g g' : Vector Word 8} {w : Word} {r : RegIdx} {v : Word}
    (h : writeReg c g w r v = .ok g') : g'[0] = g[0] := by
  rcases writeReg_eq_ok.1 h with ⟨-, -, rfl⟩ | ⟨hr, rfl⟩
  · rfl
  · have : r.toNat ≠ 0 := fun h0 => hr (BitVec.eq_of_toNat_eq h0)
    exact Vector.getElem_set_ne _ _ this

@[simp] theorem writeBack_none (c : Config) (g : Vector Word 8) (w : Word) :
    writeBack c g w none = .ok g := rfl

@[simp] theorem writeBack_some (c : Config) (g : Vector Word 8) (w : Word) (r : RegIdx) (v : Word) :
    writeBack c g w (some (r, v)) = writeReg c g w r v := rfl

theorem writeBack_slot0 {c : Config} {g g' : Vector Word 8} {w : Word}
    {q : Option (RegIdx × Word)} (h : writeBack c g w q = .ok g') : g'[0] = g[0] := by
  match q with
  | none => simp only [writeBack_none, Except.ok.injEq] at h; rw [h]
  | some (r, v) => exact writeReg_slot0 h

/-- Two register files with the same slot 0 that read alike everywhere are equal. -/
theorem regs_ext {g g' : Vector Word 8} (h0 : g[0] = g'[0]) (h : ∀ r, readReg g r = readReg g' r) :
    g = g' := by
  refine Vector.ext fun i hi => ?_
  by_cases hi0 : i = 0
  · subst hi0; exact h0
  · have h1 := h (BitVec.ofNat 3 i)
    have h2 : (BitVec.ofNat 3 i).toNat = i := by simp; omega
    have h3 : BitVec.ofNat 3 i ≠ 0#3 := fun hz => hi0 (by rw [← h2, hz]; rfl)
    rw [readReg_of_ne _ h3, readReg_of_ne _ h3] at h1
    simpa only [h2] using h1

theorem comparisonEqual_iff (r : Word) : comparisonEqual r = true ↔ r = 0#32 := by
  simp [comparisonEqual]

end Sys2Proof.Machine
end

