-- ==== Sys2Proof/Laws/State.lean ====
section
/-! SUPPORT. The small lemmas of State's updates: one per field per update, true by rfl. -/

namespace Sys2Proof.Machine

section advancePc
variable (s : State)
@[simp] theorem advancePc_pc : s.advancePc.pc = s.pc + 1 := rfl
@[simp] theorem advancePc_cfg : s.advancePc.cfg = s.cfg := rfl
@[simp] theorem advancePc_regs : s.advancePc.regs = s.regs := rfl
@[simp] theorem advancePc_imem : s.advancePc.imem = s.imem := rfl
@[simp] theorem advancePc_dmem : s.advancePc.dmem = s.dmem := rfl
@[simp] theorem advancePc_ifid : s.advancePc.ifid = s.ifid := rfl
@[simp] theorem advancePc_idex : s.advancePc.idex = s.idex := rfl
@[simp] theorem advancePc_exmem : s.advancePc.exmem = s.exmem := rfl
@[simp] theorem advancePc_memwb : s.advancePc.memwb = s.memwb := rfl
@[simp] theorem advancePc_wbend : s.advancePc.wbend = s.wbend := rfl
@[simp] theorem advancePc_cycleCount : s.advancePc.cycleCount = s.cycleCount := rfl
@[simp] theorem advancePc_status : s.advancePc.status = s.status := rfl
@[simp] theorem advancePc_x (r : RegIdx) : s.advancePc.x r = s.x r := rfl
end advancePc

section jump
variable (s : State) (t : Word)
@[simp] theorem jump_pc : (s.jump t).pc = t := rfl
@[simp] theorem jump_cfg : (s.jump t).cfg = s.cfg := rfl
@[simp] theorem jump_regs : (s.jump t).regs = s.regs := rfl
@[simp] theorem jump_imem : (s.jump t).imem = s.imem := rfl
@[simp] theorem jump_dmem : (s.jump t).dmem = s.dmem := rfl
@[simp] theorem jump_ifid : (s.jump t).ifid = s.ifid := rfl
@[simp] theorem jump_idex : (s.jump t).idex = s.idex := rfl
@[simp] theorem jump_exmem : (s.jump t).exmem = s.exmem := rfl
@[simp] theorem jump_memwb : (s.jump t).memwb = s.memwb := rfl
@[simp] theorem jump_wbend : (s.jump t).wbend = s.wbend := rfl
@[simp] theorem jump_cycleCount : (s.jump t).cycleCount = s.cycleCount := rfl
@[simp] theorem jump_status : (s.jump t).status = s.status := rfl
@[simp] theorem jump_x (r : RegIdx) : (s.jump t).x r = s.x r := rfl
end jump

section stopHalted
variable (s : State)
@[simp] theorem stopHalted_status : s.stopHalted.status = .halted := rfl
@[simp] theorem stopHalted_pc : s.stopHalted.pc = s.pc := rfl
@[simp] theorem stopHalted_cfg : s.stopHalted.cfg = s.cfg := rfl
@[simp] theorem stopHalted_regs : s.stopHalted.regs = s.regs := rfl
@[simp] theorem stopHalted_imem : s.stopHalted.imem = s.imem := rfl
@[simp] theorem stopHalted_dmem : s.stopHalted.dmem = s.dmem := rfl
@[simp] theorem stopHalted_ifid : s.stopHalted.ifid = s.ifid := rfl
@[simp] theorem stopHalted_idex : s.stopHalted.idex = s.idex := rfl
@[simp] theorem stopHalted_exmem : s.stopHalted.exmem = s.exmem := rfl
@[simp] theorem stopHalted_memwb : s.stopHalted.memwb = s.memwb := rfl
@[simp] theorem stopHalted_wbend : s.stopHalted.wbend = s.wbend := rfl
@[simp] theorem stopHalted_cycleCount : s.stopHalted.cycleCount = s.cycleCount := rfl
@[simp] theorem stopHalted_x (r : RegIdx) : s.stopHalted.x r = s.x r := rfl
end stopHalted

section stopFaulted
variable (s : State) (f : Fault)
@[simp] theorem stopFaulted_status : (s.stopFaulted f).status = .faulted f := rfl
@[simp] theorem stopFaulted_pc : (s.stopFaulted f).pc = s.pc := rfl
@[simp] theorem stopFaulted_cfg : (s.stopFaulted f).cfg = s.cfg := rfl
@[simp] theorem stopFaulted_regs : (s.stopFaulted f).regs = s.regs := rfl
@[simp] theorem stopFaulted_imem : (s.stopFaulted f).imem = s.imem := rfl
@[simp] theorem stopFaulted_dmem : (s.stopFaulted f).dmem = s.dmem := rfl
@[simp] theorem stopFaulted_ifid : (s.stopFaulted f).ifid = s.ifid := rfl
@[simp] theorem stopFaulted_idex : (s.stopFaulted f).idex = s.idex := rfl
@[simp] theorem stopFaulted_exmem : (s.stopFaulted f).exmem = s.exmem := rfl
@[simp] theorem stopFaulted_memwb : (s.stopFaulted f).memwb = s.memwb := rfl
@[simp] theorem stopFaulted_wbend : (s.stopFaulted f).wbend = s.wbend := rfl
@[simp] theorem stopFaulted_cycleCount : (s.stopFaulted f).cycleCount = s.cycleCount := rfl
end stopFaulted

section latchOutputs
variable (s : State) (f : IfId) (e : ExMem) (m : MemResult) (g : Vector Word 8)
@[simp] theorem latchOutputs_cfg : (latchOutputs s f e m g).cfg = s.cfg := rfl
@[simp] theorem latchOutputs_pc : (latchOutputs s f e m g).pc = f.pcPlus1 := rfl
@[simp] theorem latchOutputs_regs : (latchOutputs s f e m g).regs = g := rfl
@[simp] theorem latchOutputs_x (r : RegIdx) : (latchOutputs s f e m g).x r = readReg g r := rfl
@[simp] theorem latchOutputs_imem : (latchOutputs s f e m g).imem = s.imem := rfl
@[simp] theorem latchOutputs_dmem : (latchOutputs s f e m g).dmem = m.dmem := rfl
@[simp] theorem latchOutputs_ifid : (latchOutputs s f e m g).ifid = f := rfl
@[simp] theorem latchOutputs_idex : (latchOutputs s f e m g).idex = decodeStage s := rfl
@[simp] theorem latchOutputs_exmem : (latchOutputs s f e m g).exmem = e := rfl
@[simp] theorem latchOutputs_memwb :
    (latchOutputs s f e m g).memwb = ⟨s.exmem.instr, m.writeData⟩ := rfl
@[simp] theorem latchOutputs_wbend :
    (latchOutputs s f e m g).wbend = ⟨s.memwb.instr, s.memwb.writeData⟩ := rfl
@[simp] theorem latchOutputs_cycleCount :
    (latchOutputs s f e m g).cycleCount = s.cycleCount + 1 := rfl
@[simp] theorem latchOutputs_status : (latchOutputs s f e m g).status = s.status := rfl
end latchOutputs

section squash
variable (n : State) (t : Word)
@[simp] theorem squash_pc : (squash n t).pc = t := rfl
@[simp] theorem squash_ifid : (squash n t).ifid = .squashed n.cfg.layout := rfl
@[simp] theorem squash_idex : (squash n t).idex = .squashed n.cfg.layout := rfl
@[simp] theorem squash_exmem : (squash n t).exmem = .squashed n.cfg.layout := rfl
@[simp] theorem squash_cfg : (squash n t).cfg = n.cfg := rfl
@[simp] theorem squash_regs : (squash n t).regs = n.regs := rfl
@[simp] theorem squash_x (r : RegIdx) : (squash n t).x r = n.x r := rfl
@[simp] theorem squash_imem : (squash n t).imem = n.imem := rfl
@[simp] theorem squash_dmem : (squash n t).dmem = n.dmem := rfl
@[simp] theorem squash_memwb : (squash n t).memwb = n.memwb := rfl
@[simp] theorem squash_wbend : (squash n t).wbend = n.wbend := rfl
@[simp] theorem squash_cycleCount : (squash n t).cycleCount = n.cycleCount := rfl
@[simp] theorem squash_status : (squash n t).status = n.status := rfl
end squash

section applyBranch
variable (n : State) (b : Option Word)
@[simp] theorem applyBranch_none : applyBranch n none = n := rfl
@[simp] theorem applyBranch_some (t : Word) : applyBranch n (some t) = squash n t := rfl
@[simp] theorem applyBranch_cfg : (applyBranch n b).cfg = n.cfg := by cases b <;> rfl
@[simp] theorem applyBranch_regs : (applyBranch n b).regs = n.regs := by cases b <;> rfl
@[simp] theorem applyBranch_x (r : RegIdx) : (applyBranch n b).x r = n.x r := by cases b <;> rfl
@[simp] theorem applyBranch_imem : (applyBranch n b).imem = n.imem := by cases b <;> rfl
@[simp] theorem applyBranch_dmem : (applyBranch n b).dmem = n.dmem := by cases b <;> rfl
@[simp] theorem applyBranch_memwb : (applyBranch n b).memwb = n.memwb := by cases b <;> rfl
@[simp] theorem applyBranch_wbend : (applyBranch n b).wbend = n.wbend := by cases b <;> rfl
@[simp] theorem applyBranch_cycleCount : (applyBranch n b).cycleCount = n.cycleCount := by
  cases b <;> rfl
@[simp] theorem applyBranch_status : (applyBranch n b).status = n.status := by cases b <;> rfl
end applyBranch

section withFetchWord
variable (s : State) (k w : Nat)
@[simp] theorem withFetchWord_imem : (s.withFetchWord k w).imem =
    s.imem.write (addressIndex s.pc) (BitVec.ofNat 32 (w % 2 ^ k)) := rfl
@[simp] theorem withFetchWord_cfg : (s.withFetchWord k w).cfg = s.cfg := rfl
@[simp] theorem withFetchWord_pc : (s.withFetchWord k w).pc = s.pc := rfl
@[simp] theorem withFetchWord_regs : (s.withFetchWord k w).regs = s.regs := rfl
@[simp] theorem withFetchWord_dmem : (s.withFetchWord k w).dmem = s.dmem := rfl
@[simp] theorem withFetchWord_memwb : (s.withFetchWord k w).memwb = s.memwb := rfl
@[simp] theorem withFetchWord_status : (s.withFetchWord k w).status = s.status := rfl
end withFetchWord

section reference
variable (r : RefState) (t : State)
@[simp] theorem view_cfg : r.view.cfg = r.cfg := rfl
@[simp] theorem view_pc : r.view.pc = r.pc := rfl
@[simp] theorem view_regs : r.view.regs = r.regs := rfl
@[simp] theorem view_x (i : RegIdx) : r.view.x i = r.x i := rfl
@[simp] theorem view_imem : r.view.imem = r.mem := rfl
@[simp] theorem view_dmem : r.view.dmem = r.mem := rfl
@[simp] theorem view_status : r.view.status = r.status := rfl
@[simp] theorem absorb_cfg : (r.absorb t).cfg = r.cfg := rfl
@[simp] theorem absorb_pc : (r.absorb t).pc = t.pc := rfl
@[simp] theorem absorb_regs : (r.absorb t).regs = t.regs := rfl
@[simp] theorem absorb_mem : (r.absorb t).mem = t.dmem := rfl
@[simp] theorem absorb_status : (r.absorb t).status = t.status := rfl
@[simp] theorem absorb_instrCount : (r.absorb t).instrCount = r.instrCount + 1 := rfl
end reference

section outcome
@[simp] theorem outcomeOf_ok (t : State) : outcomeOf (.ok t) = .next t := rfl
@[simp] theorem outcomeOf_error (f : Fault) : outcomeOf (.error f) = .fault f := rfl

theorem outcomeOf_eq_next {r : Except Fault State} {t : State} :
    outcomeOf r = .next t ↔ r = .ok t := by cases r <;> simp [outcomeOf]

theorem outcomeOf_eq_fault {r : Except Fault State} {f : Fault} :
    outcomeOf r = .fault f ↔ r = .error f := by cases r <;> simp [outcomeOf]
end outcome

end Sys2Proof.Machine
end

