-- ==== Sys2Proof/Laws/Meanings.lean ====
section
/-! SUPPORT. What the operations shared by the meanings can do, said once. -/

namespace Sys2Proof.Machine

/-- A register write completes unless it is one to register 0 under `fatal` (10_state.md R13). -/
theorem writeReg_total (c : Config) (g : Vector Word 8) (w : Word) (r : RegIdx) (v : Word)
    (h : r ≠ 0#3 ∨ c.r0Write = .ignore) : ∃ g', writeReg c g w r v = .ok g' := by
  by_cases hr : r = 0#3
  · exact ⟨g, writeReg_eq_ok.2 (.inl ⟨hr, h.resolve_left (absurd hr), rfl⟩)⟩
  · exact ⟨_, writeReg_eq_ok.2 (.inr ⟨hr, rfl⟩)⟩

/-- An instruction that ends in one register write: it changes that register file and pc, or faults as the
write does. -/
theorem finishRegister_eq_ok {s t : State} {w : Word} {rd : RegIdx} {v : Word} :
    finishRegister s w rd v = .ok t ↔
      ∃ g, writeReg s.cfg s.regs w rd v = .ok g ∧ { s with regs := g, pc := s.pc + 1 } = t := by
  unfold finishRegister
  rw [writeBack_some]
  cases writeReg s.cfg s.regs w rd v <;> simp

theorem finishRegister_eq_error {s : State} {w : Word} {rd : RegIdx} {v : Word} {f : Fault} :
    finishRegister s w rd v = .error f ↔
      rd = 0#3 ∧ s.cfg.r0Write = .fatal ∧ .writeToRegisterZero w = f := by
  rw [← writeReg_eq_error (g := s.regs) (v := v)]
  unfold finishRegister
  rw [writeBack_some]
  cases writeReg s.cfg s.regs w rd v <;> simp

theorem lwMemory_eq_ok {c : Config} {m : Memory} {a : Word} {r : MemResult} :
    lwMemory c m a = .ok r ↔ inBounds c a = true ∧ ⟨m.read (addressIndex a), m, none⟩ = r := by
  unfold lwMemory memRead
  cases h : inBounds c a <;> simp

theorem lwMemory_eq_error {c : Config} {m : Memory} {a : Word} {f : Fault} :
    lwMemory c m a = .error f ↔ inBounds c a = false ∧ .outOfBoundsMemory a = f := by
  unfold lwMemory memRead
  cases h : inBounds c a <;> simp

theorem swMemory_eq_ok {c : Config} {m : Memory} {a v : Word} {r : MemResult} :
    swMemory c m a v = .ok r ↔
      inBounds c a = true ∧ ⟨a, m.write (addressIndex a) v, none⟩ = r := by
  unfold swMemory memWrite
  cases h : inBounds c a <;> simp

theorem swMemory_eq_error {c : Config} {m : Memory} {a v : Word} {f : Fault} :
    swMemory c m a v = .error f ↔ inBounds c a = false ∧ .outOfBoundsMemory a = f := by
  unfold swMemory memWrite
  cases h : inBounds c a <;> simp

/-- The `beq` comparison word is zero exactly when the operands are equal (42_control.md R91). -/
theorem beqAlu_equal (a b : Word) : comparisonEqual (beqAlu a b) = true ↔ a = b := by
  rw [comparisonEqual_iff, beqAlu]
  constructor
  · intro h; simpa using BitVec.sub_eq_iff_eq_add.1 h
  · rintro rfl; simp

end Sys2Proof.Machine
end

