-- ==== Sys2Proof/Laws/PerInstr.lean ====
section
/-! SUPPORT. Laws stated for all instructions, one lemma per constructor. -/

namespace Sys2Proof.Laws

/-- In every admissible layout the opcode field of an instruction's word is the instruction's opcode
(30_encoding.md R51, R56, R60). -/
def OpcodeField.Statement (i : Instr) : Prop :=
  ∀ L : Layout, L.admissible = true → opcodeOf L (encode L i) = i.opcode

theorem OpcodeField.add (a b d : RegIdx) : OpcodeField.Statement (.add a b d) :=
  fun L h => opcodeOf_encodeR L h .add a b d

theorem OpcodeField.nor (a b d : RegIdx) : OpcodeField.Statement (.nor a b d) :=
  fun L h => opcodeOf_encodeR L h .nor a b d

theorem OpcodeField.lw (a b : RegIdx) (off : Int) : OpcodeField.Statement (.lw a b off) :=
  fun L h => opcodeOf_encodeI L h .lw a b off

theorem OpcodeField.sw (a b : RegIdx) (off : Int) : OpcodeField.Statement (.sw a b off) :=
  fun L h => opcodeOf_encodeI L h .sw a b off

theorem OpcodeField.beq (a b : RegIdx) (off : Int) : OpcodeField.Statement (.beq a b off) :=
  fun L h => opcodeOf_encodeI L h .beq a b off

theorem OpcodeField.jalr (a b : RegIdx) : OpcodeField.Statement (.jalr a b) :=
  fun L h => opcodeOf_encodeJ L h .jalr a b

theorem OpcodeField.halt : OpcodeField.Statement .halt := fun L h => opcodeOf_encodeO L h .halt

theorem OpcodeField.noop : OpcodeField.Statement .noop := fun L h => opcodeOf_encodeO L h .noop

end Sys2Proof.Laws
end

