-- ==== Sys2Proof/Laws/Reference.lean ====
section
/-! SUPPORT. What a step of the reference model can do, said once. -/

namespace Sys2Proof.Machine

@[simp] theorem withWord_outOfBoundsMemory (a w : Word) :
    (Fault.outOfBoundsMemory a).withWord w = .outOfBoundsMemory a := rfl

@[simp] theorem withWord_writeToRegisterZero (v w : Word) :
    (Fault.writeToRegisterZero v).withWord w = .writeToRegisterZero w := rfl

@[simp] theorem withWord_unrecognizedOpcode (v w : Word) :
    (Fault.unrecognizedOpcode v).withWord w = .unrecognizedOpcode w := rfl

@[simp] theorem withWord_outOfBoundsRegister (k : Nat) (w : Word) :
    (Fault.outOfBoundsRegister k).withWord w = .outOfBoundsRegister k := rfl

/-- A reference step at an invalid pc faults (45_reference_model.md R138). -/
theorem refStep_of_invalid {r : RefState} (h : inBounds r.cfg r.pc = false) :
    refStep r = .fault (.outOfBoundsMemory r.pc) := by
  unfold refStep
  rw [memRead_eq_error.2 ⟨h, rfl⟩]

/-- A reference step at a valid pc executes the word there (45_reference_model.md R138). -/
theorem refStep_of_valid {r : RefState} (h : inBounds r.cfg r.pc = true) :
    refStep r = refExec (r.mem.read (addressIndex r.pc))
      (decode r.cfg.layout (r.mem.read (addressIndex r.pc))) r := by
  unfold refStep
  rw [memRead_eq_ok.2 ⟨h, rfl⟩]

/-- An instruction but `jalr` runs as `exec` on the view, a fault with the word fetched. -/
theorem refExec_of_ne_jalr {w : Word} {i : Instr} {r : RefState} (h : i.opcode ≠ .jalr) :
    refExec w i r = match exec i r.view with
      | .next t => .next (r.absorb t)
      | .fault f => .fault (f.withWord w)
      | .refused q => .refused q := by
  cases i <;> first | rfl | exact absurd rfl h

end Sys2Proof.Machine
end

