-- ==== Sys2Proof/Laws/Stages.lean ====
section
/-! SUPPORT. What each stage and one whole cycle can do, said once; later proofs cite these and do not
unfold the stages. -/

namespace Sys2Proof.Machine

/-- Fetch answers the word at an in-bounds pc. -/
theorem fetchStage_eq_ok {s : State} {f : IfId} : fetchStage s = .ok f ↔
    inBounds s.cfg s.pc = true ∧ ⟨s.imem.read (addressIndex s.pc), s.pc + 1⟩ = f := by
  unfold fetchStage
  cases h : memRead s.cfg s.imem s.pc with
  | error f' => simp [(memRead_eq_error.1 h).1]
  | ok w => obtain ⟨h1, rfl⟩ := memRead_eq_ok.1 h; simp [h1]

theorem fetchStage_eq_error {s : State} {f : Fault} : fetchStage s = .error f ↔
    inBounds s.cfg s.pc = false ∧ .outOfBoundsMemory s.pc = f := by
  unfold fetchStage
  cases h : memRead s.cfg s.imem s.pc with
  | error f' => obtain ⟨h1, rfl⟩ := memRead_eq_error.1 h; simp [h1]
  | ok w => simp [(memRead_eq_ok.1 h).1]

/-- Execute's output, when it does not reject the word. -/
theorem executeStage_eq_ok {s : State} {e : ExMem} : executeStage s = .ok e ↔
    executeRejects s.cfg s.idex.instr = false ∧
    { instr := s.idex.instr
      branchTarget := s.idex.pcPlus1 + s.idex.offset
      aluResult := aluResultOf (s.decodes s.idex.instr) s.idex.readRegA s.idex.readRegB s.idex.offset
      readRegB := s.idex.readRegB } = e := by
  unfold executeStage
  split <;> simp [*, branchTargetOf]

theorem executeStage_eq_error {s : State} {f : Fault} : executeStage s = .error f ↔
    executeRejects s.cfg s.idex.instr = true ∧ .unrecognizedOpcode s.idex.instr = f := by
  unfold executeStage
  split <;> simp [*]

/-- Whether the instruction in the memory stage is a load or a store. -/
def accessesMemory (i : Instr) : Bool :=
  match i with
  | .lw _ _ _ => true
  | .sw _ _ _ => true
  | _ => false

/-- Everything the memory stage can do when it completes: a load, a store, a branch decision, or a pass. -/
theorem memoryOf_eq_ok {i : Instr} {c : Config} {m : Memory} {l : ExMem} {r : MemResult} :
    memoryOf i c m l = .ok r ↔
      (i.opcode = .lw ∧ inBounds c l.aluResult = true ∧
        ⟨m.read (addressIndex l.aluResult), m, none⟩ = r) ∨
      (i.opcode = .sw ∧ inBounds c l.aluResult = true ∧
        ⟨l.aluResult, m.write (addressIndex l.aluResult) l.readRegB, none⟩ = r) ∨
      (i.opcode = .beq ∧
        ⟨l.aluResult, m, if l.aluResult = 0#32 then some l.branchTarget else none⟩ = r) ∨
      (accessesMemory i = false ∧ i.opcode ≠ .beq ∧ ⟨l.aluResult, m, none⟩ = r) := by
  cases i with
  | lw a b o =>
    simp only [memoryOf, lwMemory]
    cases h : memRead c m l.aluResult with
    | error f => simp [accessesMemory, Instr.opcode, (memRead_eq_error.1 h).1]
    | ok v =>
      obtain ⟨h1, rfl⟩ := memRead_eq_ok.1 h
      simp [accessesMemory, Instr.opcode, h1]
  | sw a b o =>
    simp only [memoryOf, swMemory]
    cases h : memWrite c m l.aluResult l.readRegB with
    | error f => simp [accessesMemory, Instr.opcode, (memWrite_eq_error.1 h).1]
    | ok v =>
      obtain ⟨h1, rfl⟩ := memWrite_eq_ok.1 h
      simp [accessesMemory, Instr.opcode, h1]
  | beq a b o => simp [memoryOf, beqMemory, comparisonEqual, accessesMemory, Instr.opcode]
  | add => simp [memoryOf, passThrough, accessesMemory, Instr.opcode]
  | nor => simp [memoryOf, passThrough, accessesMemory, Instr.opcode]
  | jalr => simp [memoryOf, passThrough, accessesMemory, Instr.opcode]
  | halt => simp [memoryOf, passThrough, accessesMemory, Instr.opcode]
  | noop => simp [memoryOf, passThrough, accessesMemory, Instr.opcode]

/-- The memory stage faults exactly on a load or store whose address is out of bounds. -/
theorem memoryOf_eq_error {i : Instr} {c : Config} {m : Memory} {l : ExMem} {f : Fault} :
    memoryOf i c m l = .error f ↔
      accessesMemory i = true ∧ inBounds c l.aluResult = false ∧
        .outOfBoundsMemory l.aluResult = f := by
  cases i with
  | lw a b o =>
    simp only [memoryOf, lwMemory]
    cases h : memRead c m l.aluResult with
    | error f => obtain ⟨h1, rfl⟩ := memRead_eq_error.1 h; simp [accessesMemory, h1]
    | ok v => simp [accessesMemory, (memRead_eq_ok.1 h).1]
  | sw a b o =>
    simp only [memoryOf, swMemory]
    cases h : memWrite c m l.aluResult l.readRegB with
    | error f => obtain ⟨h1, rfl⟩ := memWrite_eq_error.1 h; simp [accessesMemory, h1]
    | ok v => simp [accessesMemory, (memWrite_eq_ok.1 h).1]
  | beq => simp [memoryOf, beqMemory, accessesMemory]
  | add => simp [memoryOf, passThrough, accessesMemory]
  | nor => simp [memoryOf, passThrough, accessesMemory]
  | jalr => simp [memoryOf, passThrough, accessesMemory]
  | halt => simp [memoryOf, passThrough, accessesMemory]
  | noop => simp [memoryOf, passThrough, accessesMemory]

/-- One cycle answers a next state exactly when all four faulting stages do, and then the next state is
their outputs under the overrides of a taken branch. -/
theorem cycle_eq_ok {s n : State} : cycle s = .ok n ↔
    ∃ f e m g, fetchStage s = .ok f ∧ executeStage s = .ok e ∧ memoryStage s = .ok m ∧
      writebackStage s = .ok g ∧ applyBranch (latchOutputs s f e m g) m.branch = n := by
  unfold cycle
  cases fetchStage s <;> simp
  cases executeStage s <;> simp
  cases memoryStage s <;> simp
  cases writebackStage s <;> simp

/-- One cycle faults with the first fault in the order fetch, execute, memory, writeback
(60_exceptions.md R196). -/
theorem cycle_eq_error {s : State} {q : Fault} : cycle s = .error q ↔
    fetchStage s = .error q ∨
    (∃ f, fetchStage s = .ok f) ∧ (executeStage s = .error q ∨
      (∃ e, executeStage s = .ok e) ∧ (memoryStage s = .error q ∨
        (∃ m, memoryStage s = .ok m) ∧ writebackStage s = .error q)) := by
  unfold cycle
  cases fetchStage s <;> simp
  cases executeStage s <;> simp
  cases memoryStage s <;> simp
  cases writebackStage s <;> simp

/-- The fields a completed cycle gives whatever the branch decision. -/
theorem cycle_fields {s n : State} (h : cycle s = .ok n) :
    n.cfg = s.cfg ∧ n.imem = s.imem ∧ n.status = s.status ∧ n.cycleCount = s.cycleCount + 1 ∧
      n.memwb.instr = s.exmem.instr ∧ n.wbend = ⟨s.memwb.instr, s.memwb.writeData⟩ := by
  obtain ⟨f, e, m, g, -, -, -, -, rfl⟩ := cycle_eq_ok.1 h
  simp

/-! ### One step -/

/-- A step of a running machine with no halt in MEMWB is one cycle. -/
theorem step_of_running {s : State} (hs : s.status = .running) (hh : haltDetected s = false) :
    step s = outcomeOf (cycle s) := by
  simp [step, driverStep, hs, hh]

/-- Everything a step can do when it answers a next state: one cycle, the end of a run, or nothing. -/
theorem step_cases {s n : State} (h : step s = .next n) :
    (s.status = .running ∧ haltDetected s = false ∧ cycle s = .ok n) ∨
    (s.status = .running ∧ haltDetected s = true ∧ n = s.stopHalted) ∨
    (s.status = .halted ∧ n = s) := by
  unfold step driverStep at h
  split at h
  · split at h
    · simp_all
    · exact .inl ⟨‹_›, by simp_all, outcomeOf_eq_next.1 h⟩
  · simp_all
  · simp at h

theorem step_next_of_running {s n : State} (hs : s.status = .running) (hh : haltDetected s = false) :
    step s = .next n ↔ cycle s = .ok n := by
  rw [step_of_running hs hh, outcomeOf_eq_next]

theorem step_fault_of_running {s : State} {q : Fault} (hs : s.status = .running)
    (hh : haltDetected s = false) : step s = .fault q ↔ cycle s = .error q := by
  rw [step_of_running hs hh, outcomeOf_eq_fault]

end Sys2Proof.Machine
end

