-- ==== Sys2Proof/Tests/Slice0.lean ====
section
/-! SUPPORT. Tests: ill-formed terms refused, words written out from the spec's encodings, one step or one
instruction at a time, and witnesses that meet the hypotheses of each obligation. Expected values come
from spec/95_test_vectors.md or by hand from the rules. -/

namespace Sys2Proof.Tests

open Sys2Proof Sys2Proof.Machine

/-! ### WellFormed refuses -/

theorem test_wf_lw_high : (Instr.lw 0 1 32768).wellFormed = false := by decide
theorem test_wf_sw_low : (Instr.sw 0 1 (-32769)).wellFormed = false := by decide
theorem test_wf_beq_high : (Instr.beq 0 1 40000).wellFormed = false := by decide
theorem test_wf_edges :
    (Instr.lw 0 1 32767).wellFormed = true ∧ (Instr.sw 0 1 (-32768)).wellFormed = true := by decide
theorem test_wf_fields_register : (Fields.rType 0 8 0 0).wellFormed = false := by decide
theorem test_wf_fields_regB : (Fields.jType 5 0 9).wellFormed = false := by decide
theorem test_wf_fields_opcode_of_format : (Fields.rType 2 0 0 0).wellFormed = false := by decide
theorem test_wf_fields_offset : (Fields.iType 4 0 0 32768).wellFormed = false := by decide
theorem test_wf_fields_otype : (Fields.oType 5).wellFormed = false := by decide
/-- Overlapping fields, an offset field overlapped, no unused high bit (00_scope.md R7). -/
theorem test_layout_refused : Layout.admissible ⟨22, 20, 16⟩ = false ∧
    Layout.admissible ⟨22, 19, 15⟩ = false ∧ Layout.admissible ⟨29, 25, 22⟩ = false := by decide
theorem test_config_refused : Config.admissible { Config.default with memSize := 0 } = false ∧
    Config.admissible { Config.default with memSize := 2 ^ 31 } = false := by decide

/-! ### Decode: words written out bit by bit (30_encoding.md R51 to R55; 95_test_vectors.md sections 2, 3) -/

/-- unused 0000000, opcode 000, regA 001, regB 010, unused, destReg 011. -/
theorem test_decode_add :
    decode .std 0b00000000000010100000000000000011#32 = .add 1 2 3 := by decide
/-- opcode 001, regA 101, regB 110, destReg 111. -/
theorem test_decode_nor :
    decode .std 0b00000000011011100000000000000111#32 = .nor 5 6 7 := by decide
/-- opcode 010, regA 011, regB 100, offset all ones. -/
theorem test_decode_lw :
    decode .std 0b00000000100111001111111111111111#32 = .lw 3 4 (-1) := by decide
/-- opcode 011, regA 010, regB 101, offset 1 and fifteen zeros. -/
theorem test_decode_sw :
    decode .std 0b00000000110101011000000000000000#32 = .sw 2 5 (-32768) := by decide
/-- opcode 100, regA 000, regB 001, offset 1. -/
theorem test_decode_beq :
    decode .std 0b00000001000000010000000000000001#32 = .beq 0 1 1 := by decide
/-- opcode 101, regA 100, regB 111. -/
theorem test_decode_jalr :
    decode .std 0b00000001011001110000000000000000#32 = .jalr 4 7 := by decide
theorem test_decode_halt : decode .std 0b00000001100000000000000000000000#32 = .halt := by decide
theorem test_decode_noop : decode .std 0b00000001110000000000000000000000#32 = .noop := by decide
/-- Unused bits set, ignored by decode (95_test_vectors.md section 3). -/
theorem test_decode_unused_bits : decode .std 0x01C01234#32 = .noop ∧ decode .std 0xFF800000#32 = .halt ∧
    decode .std 0xFFFFFFFF#32 = .noop ∧ decode .std 0x00011170#32 = .add 0 1 0 := by decide
/-- The alternative layout (95_test_vectors.md section 2). -/
theorem test_decode_alt : decode .alt 0x2040000D#32 = .lw 0 1 13 ∧ decode .alt 0x59C00000#32 = .jalr 4 7 ∧
    decode .alt 0x12400004#32 = .nor 1 1 4 := by decide
theorem test_decode_too_wide : decodeNumber .std (2 ^ 32) = .error .notA32BitWord := rfl
theorem test_table_word_reads_32_bits : decodeTableWord 32 0x01000002 = some (.beq 0 0 2) := by decide

/-- The encoder against the spec's words (95_test_vectors.md section 2). -/
theorem test_encode_std : encode .std (.add 1 2 3) = 0x000A0003#32 ∧ encode .std (.nor 1 1 4) = 0x00490004#32 ∧
    encode .std (.lw 7 7 32767) = 0x00BF7FFF#32 ∧ encode .std (.sw 2 5 (-32768)) = 0x00D58000#32 ∧
    encode .std (.beq 3 4 (-1)) = 0x011CFFFF#32 ∧ encode .std (.jalr 4 7) = 0x01670000#32 ∧
    haltWord .std = 0x01800000#32 ∧ noopWord .std = 0x01C00000#32 := by decide
theorem test_encode_alt : encode .alt (.sw 2 5 (-32768)) = 0x35408000#32 ∧
    haltWord .alt = 0x60000000#32 ∧ noopWord .alt = 0x70000000#32 := by decide
/-- The field masks the spec lists (95_test_vectors.md section 2). -/
theorem test_field_masks : fieldMask .std .R = 0x01FF0007#32 ∧ fieldMask .std .I = 0x01FFFFFF#32 ∧
    fieldMask .std .J = 0x01FF0000#32 ∧ fieldMask .std .O = 0x01C00000#32 ∧
    fieldMask .alt .I = 0x7FC0FFFF#32 := by decide

/-! ### Test states -/

/-- A state with words in flight in IFID, IDEX, EXMEM and MEMWB. `x[1] = 5`, `x[2] = -1`, `x[3] = 20`,
`x[4] = 65535`, `x[5] = 5`, `x[6] = 2147483647`, `x[7] = 70000`; data memory holds 5 at 13, -7 at 19 and 9 at
65535; instruction memory holds `add 1 2 3` at 2; pc is 2. -/
def flight (f d e m : Word) : State :=
  { State.reset with
    pc := 2
    regs := #v[0, 5, -1, 20, 65535, 5, 2147483647, 70000]
    imem := Memory.empty.write 2 0x000A0003
    dmem := ((Memory.empty.write 13 5).write 19 (-7)).write 65535 9
    ifid := ⟨f, 2⟩
    idex := ⟨d, 1, 5, 3, 8⟩
    exmem := ⟨e, 40, 13, 77⟩
    memwb := ⟨m, 99⟩ }

/-- The no-op word of the default layout. -/
abbrev nop : Word := 0x01C00000

/-- The state of `flight` with nothing in flight. -/
def calm : State := flight nop nop nop nop

/-- `calm` with the `fatal` settings of both policies. -/
def strict : State := { calm with cfg := { Config.default with r0Write := .fatal, unusedBits := .fatal } }

/-- Whether an outcome is a next state. -/
def isNext (o : Host.Outcome State Fault Refusal) : Bool :=
  match o with
  | .next _ => true
  | _ => false

/-- The next state of an outcome, else the given state. -/
def nextOr (s : State) (o : Host.Outcome State Fault Refusal) : State :=
  match o with
  | .next n => n
  | _ => s

/-- The fault of an outcome. -/
def faultOf (o : Host.Outcome State Fault Refusal) : Option Fault :=
  match o with
  | .fault f => some f
  | _ => none

/-- What the witnesses mean: an outcome that `isNext` is the next state `nextOr` gives. -/
theorem next_of_isNext (s : State) (o : Host.Outcome State Fault Refusal) (h : isNext o = true) :
    o = .next (nextOr s o) := by
  cases o <;> simp_all [isNext, nextOr]

/-- One step from a state. -/
def after (s : State) : State := nextOr s (step s)

/-- One instruction executed alone from `calm`. -/
def alone (i : Instr) : State := nextOr calm (exec i calm)

/-! ### Instructions executed alone (95_test_vectors.md sections 4 to 7) -/

theorem test_add : (alone (.add 1 2 3)).x 3 = 4 ∧ (alone (.add 1 2 3)).pc = 3 := by decide
/-- `0x7FFFFFFF + 5` wraps; a source that is also the destination. -/
theorem test_add_wraps : (alone (.add 6 5 6)).x 6 = 0x80000004 := by decide
theorem test_nor : (alone (.nor 1 1 4)).x 4 = 0xFFFFFFFA := by decide
theorem test_nor_discards_register_zero : (alone (.nor 0 0 0)).regs = calm.regs := by decide
theorem test_lw : (alone (.lw 0 1 13)).x 1 = 5 ∧ (alone (.lw 3 4 (-1))).x 4 = -7 := by decide
theorem test_lw_edge_of_memory : (alone (.lw 4 2 0)).x 2 = 9 ∧
    faultOf (exec (.lw 4 2 1) calm) = some (.outOfBoundsMemory 65536) := by decide
theorem test_sw : (alone (.sw 0 3 15)).dmem.read 15 = 20 ∧ (alone (.sw 0 3 15)).imem = calm.imem := by
  decide
theorem test_sw_wraps_negative :
    faultOf (exec (.sw 6 1 1) calm) = some (.outOfBoundsMemory 0x80000000) := by decide
theorem test_beq_taken : (alone (.beq 1 5 (-6))).pc = 2 + 1 - 6 := by decide
theorem test_beq_not_taken : (alone (.beq 6 2 9)).pc = 3 := by decide
theorem test_jalr_no_effect : (alone (.jalr 4 7)).pc = 3 ∧ (alone (.jalr 4 7)).regs = calm.regs := by decide
theorem test_halt : (alone .halt).status = .halted ∧ (alone .halt).pc = 3 := by decide
theorem test_noop : alone .noop = { calm with pc := 3 } := by decide
theorem test_add_register_zero_fatal :
    faultOf (exec (.add 1 2 0) strict) = some (.writeToRegisterZero 0x000A0000) := by decide

/-! ### One cycle (44_pipeline.md) -/

/-- `sw 0 3 15` in MEMORY stores the carried word at the carried address. -/
theorem test_cycle_store : (after (flight nop nop 0x00C3000F nop)).dmem.read 13 = 77 := by decide
/-- A `lw` in the memory stage loads; it does not write its register yet. -/
theorem test_cycle_load : (after (flight nop nop 0x0081000D nop)).memwb.writeData = 5 ∧
    (after (flight nop nop 0x0081000D nop)).x 1 = 5 := by decide
/-- Decode reads `x[3]` as it stood while writeback of `add 1 2 3` replaces it. -/
theorem test_cycle_stale_read : (after (flight 0x001A0003 nop nop 0x000A0003)).idex.readRegA = 20 ∧
    (after (flight 0x001A0003 nop nop 0x000A0003)).x 3 = 99 := by decide
/-- A taken `beq` dominates fetch and squashes three latches; MEMWB takes the `beq`. -/
theorem test_cycle_taken_branch :
    let s := { flight 0x00C3000F 0x00C3000F 0x01000002 nop with
      exmem := ⟨0x01000002, 40, 0, 0⟩ }
    (after s).pc = 40 ∧ (after s).ifid = ⟨nop, 0⟩ ∧ (after s).idex = ⟨nop, 0, 0, 0, 0⟩ ∧
      (after s).exmem = ⟨nop, 0, 0, 0⟩ ∧ (after s).memwb.instr = 0x01000002 := by decide
/-- An untaken `beq` overrides nothing. -/
theorem test_cycle_untaken_branch : (after (flight nop 0x000A0003 0x01010001 nop)).pc = 3 ∧
    (after (flight nop 0x000A0003 0x01010001 nop)).exmem = ⟨0x000A0003, 9, 8, 3⟩ := by decide
theorem test_cycle_halt_stops : (after (flight nop nop nop 0x01800000)).status = .halted ∧
    (after (flight nop nop nop 0x01800000)).cycleCount = 0 := by decide
/-- Four fault conditions at once: fetch is reported (60_exceptions.md R196). -/
theorem test_fault_priority :
    faultOf (step { strict with
      pc := -1
      idex := ⟨0xFE000000, 0, 0, 0, 0⟩
      exmem := ⟨0x0081000D, 0, 70000, 0⟩
      memwb := ⟨0, 0⟩ }) = some (.outOfBoundsMemory 0xFFFFFFFF) := by decide
theorem test_execute_rejects :
    faultOf (step { strict with idex := ⟨0xFF800000, 0, 0, 0, 0⟩ }) =
      some (.unrecognizedOpcode 0xFF800000) := by decide
theorem test_reset_runs_fetched_word :
    (after (State.reset.withFetchWord 32 0x000A0003)).ifid = ⟨0x000A0003, 1⟩ := by decide

/-! ### Reference model and assembler (95_test_vectors.md sections 6 and 8) -/

/-- `jalr 1 2` at 4 with `x[1] = 6` links 5 and goes to 6; `jalr 3 3` at 9 goes to 10. -/
theorem test_reference_jalr :
    (match refExec 0x014A0000 (.jalr 1 2) { RefState.initial .default .empty with pc := 4, regs := #v[0, 6, 0, 0, 0, 0, 0, 0] } with
      | .next t => t.x 2 = 5 ∧ t.pc = 6
      | _ => False) ∧
    (match refExec 0x015B0000 (.jalr 3 3) { RefState.initial .default .empty with pc := 9 } with
      | .next t => t.x 3 = 10 ∧ t.pc = 10
      | _ => False) := ⟨⟨rfl, rfl⟩, rfl, rfl⟩

/-- Under `fatal` a fault of the reference model carries the word fetched, unused bits and all, as the
pipeline's does: `add 0 1 0` with bits 15 to 3 not 0, and `jalr 0 0` (45_reference_model.md R138). -/
theorem test_reference_fault_word :
    refStep { RefState.initial strict.cfg .empty with mem := Memory.empty.write 0 0x00011170 } =
      .fault (.writeToRegisterZero 0x00011170) ∧
    refStep { RefState.initial strict.cfg .empty with mem := Memory.empty.write 0 0x01400005 } =
      .fault (.writeToRegisterZero 0x01400005) := ⟨rfl, rfl⟩
/-- `jalr 0 0` under `ignore`: the link is discarded and control goes to `x[0]`, that is 0. -/
theorem test_reference_jalr_zero :
    refExec 0x01400000 (.jalr 0 0) { RefState.initial .default .empty with pc := 9 } =
      .next { RefState.initial .default .empty with instrCount := 1 } := rfl

/-- Exit codes (60_exceptions.md R207): the program `halt`, malformed input, `UnrecognizedOpcode`. -/
theorem test_exit_codes :
    simulatorExitCode (simulate .default 5 [['2', '5', '1', '6', '5', '8', '2', '4']]) = some 0 ∧
    simulatorExitCode (simulate .default 5 [['h', 'a', 'l', 't']]) = some 1 ∧
    assemblerExitCode (assemble .default [⟨none, ['h', 'a', 'l', 't'], []⟩]) = some 0 ∧
    assemblerExitCode (assemble .default [⟨none, ['A', 'D', 'D'], []⟩]) = some 1 :=
  ⟨rfl, rfl, rfl, rfl⟩

/-- Vectors A15, A3, A7 and A20. -/
theorem test_assemble_forward_label : assemble .default
    [⟨none, ['b', 'e', 'q'], [['0'], ['0'], ['e']]⟩, ⟨none, ['n', 'o', 'o', 'p'], []⟩,
      ⟨some ['e'], ['h', 'a', 'l', 't'], []⟩] = .ok [16777217, 29360128, 25165824] := by rfl
theorem test_assemble_invalid_register :
    assemble .default [⟨none, ['a', 'd', 'd'], [['1'], ['8'], ['3']]⟩] =
      .error (.error .invalidRegister 0) := by rfl
theorem test_assemble_duplicate_label : assemble .default
    [⟨some ['L'], ['n', 'o', 'o', 'p'], []⟩, ⟨none, ['m', 'u', 'l'], [['1'], ['2'], ['3']]⟩,
      ⟨some ['L'], ['h', 'a', 'l', 't'], []⟩] = .error (.error .duplicateLabel 2) := by rfl
/-- Vectors A11c and A10b: the literal check comes before the offset check. -/
theorem test_literals : recordWord .default initialTable 0
      ⟨none, ['l', 'w'], [['0'], ['1'], ['4', '2', '9', '4', '9', '6', '7', '2', '9', '6']]⟩ =
        .error (.error .wordOverflow) ∧
    recordWord .default initialTable 0
      ⟨none, fillString, [['-', '2', '1', '4', '7', '4', '8', '3', '6', '4', '8']]⟩ =
        .ok 0x80000000#32 := ⟨rfl, rfl⟩
/-- A label stands where the line's first character is no white space (46_assembler.md R151). -/
theorem test_record_of_line : recordOfLine ['e', ' ', 'h', 'a', 'l', 't'] =
      some ⟨some ['e'], ['h', 'a', 'l', 't'], []⟩ ∧
    recordOfLine [' ', 'j', ' ', '4'] = some ⟨none, ['j'], [['4']]⟩ ∧ recordOfLine [' '] = none :=
  ⟨rfl, rfl, rfl⟩

/-! ### Witnesses: states and operands that meet each obligation's hypotheses -/

/-- DecodeReadsFieldsByFormat: a word for each format, at the first and last opcode of its range. -/
theorem witness_decode_formats :
    (0x00000005#32).toNat / 2 ^ 22 % 8 = 0 ∧ (0x00490004#32).toNat / 2 ^ 22 % 8 = 1 ∧
    (0x0081000D#32).toNat / 2 ^ 22 % 8 = 2 ∧ (0x0100FFFA#32).toNat / 2 ^ 22 % 8 = 4 ∧
    (0x01670000#32).toNat / 2 ^ 22 % 8 = 5 ∧ (0x01800000#32).toNat / 2 ^ 22 % 8 = 6 ∧
    (0xFFFFFFFF#32).toNat / 2 ^ 22 % 8 = 7 := by decide

/-- CodecRoundTrips, DecodeOfEncode, EncodePreconditions: well-formed terms at the edges of their ranges. -/
theorem witness_codec : Layout.std.admissible = true ∧ Layout.alt.admissible = true ∧
    (Fields.rType 1 7 7 7).wellFormed = true ∧ (Fields.iType 4 7 0 (-32768)).wellFormed = true ∧
    (Fields.iType 2 0 7 0).wellFormed = true ∧ offsetFits 32768 = false ∧
    (Fields.jType 5 7 7).wellFormed = true ∧ (Fields.oType 7).wellFormed = true ∧
    (Instr.beq 7 7 32767).wellFormed = true ∧
    encodeFields .std .wrap (.iType 2 0 1 32768) = .ok 0x00818000#32 :=
  ⟨rfl, rfl, rfl, rfl, rfl, rfl, rfl, rfl, rfl, rfl⟩

/-- UnusedBitsDoNotDecode: two words that differ outside the fields of their format only. -/
theorem witness_unused_bits : (0x01C01234#32) &&& fieldMask .std (opcodeOf .std nop).format =
    nop &&& fieldMask .std (opcodeOf .std nop).format := by decide

/-- OffsetIsSignExtended: the largest offset and the smallest. -/
theorem witness_offset_sign : (0x00BF7FFF#32).getLsbD 15 = false ∧ (0x00D58000#32).getLsbD 15 = true ∧
    decode .std 0x00BF7FFF#32 = .lw 7 7 32767 := by decide

/-- ResetValues, InvAfterReset: an image that just fits, and one that does not. -/
theorem witness_load : ([1, 2] : List Word).length ≤ ({ Config.default with memSize := 2 } : Config).memSize ∧
    ({ Config.default with memSize := 1 } : Config).memSize < ([1, 2] : List Word).length ∧
    load .default [] = .ok State.reset ∧ Config.default.admissible = true :=
  ⟨by decide, by decide, rfl, rfl⟩

/-- EmptyImageRunsOffMemory. -/
theorem witness_empty_image : Config.default.admissible = true ∧ Config.default.r0Write = .ignore :=
  ⟨rfl, rfl⟩

/-- StepKeepsInv, InstructionMemoryIsReadOnly: a state with the invariant that steps, and an instruction that
completes. -/
theorem witness_invariant : StateInv calm ∧ isNext (step calm) = true ∧ isNext (steps 2 calm) = true ∧
    isNext (exec (.sw 0 3 15) calm) = true := by decide

/-- FetchStage, FaultPriorityAndCompletion, OutOfBoundsExactly: pc just outside memory, and just inside. -/
theorem witness_fetch : Cycling { calm with pc := 65536 } ∧ ¬ ValidAddress calm.cfg 65536 ∧
    ¬ ValidAddress calm.cfg (-1) ∧ Cycling { calm with pc := 65535 } ∧
    isNext (step { calm with pc := 65535 }) = true ∧ ¬ TakesBranch { calm with pc := 65535 } := by decide

/-- DecodeStage, ExecuteStage, WbEndIsTraceOnly, CycleCountCountsCycles, RegistersReadOnlyByDecode,
DataMemoryTouchedOnlyByLwSw: a cycling state that takes no branch, with instructions in flight; and the
`fatal` policy meeting a high bit. -/
theorem witness_stages :
    (let s := flight 0x000A0003 0x00490004 0x000A0003 nop
     Cycling s ∧ ¬ TakesBranch s ∧ isNext (step s) = true ∧
      opcodeOf s.cfg.layout s.exmem.instr ≠ .lw ∧ opcodeOf s.cfg.layout s.exmem.instr ≠ .sw) ∧
    (let s := { strict with idex := ⟨0x02000000, 0, 0, 0, 0⟩ }
     Cycling s ∧ ValidAddress s.cfg s.pc ∧ s.cfg.unusedBits = .fatal ∧
      s.idex.instr.toNat / 2 ^ (s.cfg.layout.opLsb + 3) ≠ 0) := by decide

/-- DecodeStage: a word whose regA and regB fields name register 0. -/
theorem witness_decode_register_zero :
    regA .std 0x00000005#32 = 0#3 ∧ regB .std 0x00000005#32 = 0#3 := by decide

/-- MemoryStage, FaultPriorityAndCompletion: a load, a store and a branch in the memory stage, and a load just
out of bounds. -/
theorem witness_memory_stage :
    (let s := flight nop nop 0x0081000D nop
     Cycling s ∧ s.dmem.wf = true ∧ isNext (step s) = true ∧
      opcodeOf s.cfg.layout s.exmem.instr = .lw) ∧
    (let s := flight nop nop 0x00C3000F nop
     Cycling s ∧ s.dmem.wf = true ∧ isNext (step s) = true ∧
      opcodeOf s.cfg.layout s.exmem.instr = .sw) ∧
    (let s := { calm with exmem := ⟨0x0081000D, 0, 65536, 0⟩ }
     Cycling s ∧ ValidAddress s.cfg s.pc ∧ executeRejects s.cfg s.idex.instr = false ∧
      opcodeOf s.cfg.layout s.exmem.instr = .lw ∧ ¬ ValidAddress s.cfg s.exmem.aluResult) := by decide

/-- TakenBranchSquashes, SquashedLatchContent, PcChangesInTwoWays, TakenBranchCostsThreeCycles, MemoryStage: a
taken branch, its step and three more; and a branch not taken. -/
theorem witness_taken_branch :
    (let s := { flight 0x00C3000F 0x00C3000F nop nop with exmem := ⟨0x01000002, 40, 0, 0⟩ }
     Cycling s ∧ s.cfg.layout.admissible = true ∧ TakesBranch s ∧ isNext (step s) = true ∧
      isNext (steps 3 (after s)) = true) ∧
    (let s := flight nop nop 0x01010001 nop
     Cycling s ∧ ¬ TakesBranch s ∧ opcodeOf s.cfg.layout s.exmem.instr = .beq ∧
      s.exmem.aluResult ≠ 0#32 ∧ isNext (step s) = true) := by decide

/-- WritebackStage, FaultPriorityAndCompletion: `add` and `lw` in writeback, and a `lw` to register 0 under `fatal`. -/
theorem witness_writeback :
    (let s := flight nop nop nop 0x000A0003
     Cycling s ∧ isNext (step s) = true ∧ opcodeOf s.cfg.layout s.memwb.instr = .add) ∧
    (let s := flight nop nop nop 0x0081000D
     Cycling s ∧ isNext (step s) = true ∧ opcodeOf s.cfg.layout s.memwb.instr = .lw) ∧
    (let s := { strict with memwb := ⟨0x0080000D, 1⟩ }
     Cycling s ∧ s.cfg.r0Write = .fatal ∧ ValidAddress s.cfg s.pc ∧
      executeRejects s.cfg s.idex.instr = false ∧
      ¬ (opcodeOf s.cfg.layout s.exmem.instr = .lw ∨ opcodeOf s.cfg.layout s.exmem.instr = .sw) ∧
      opcodeOf s.cfg.layout s.memwb.instr = .lw ∧ regB s.cfg.layout s.memwb.instr = 0#3) := by decide

/-- CycleCountCountsCycles: a loaded state. -/
theorem witness_cycle_count : load .default [] = .ok State.reset := rfl

/-- HaltEndsRun, HaltedRunIsSafe: a `halt` in MEMWB, detected; UnreachableFaults: a state that has not faulted. -/
theorem witness_halt :
    (let s := flight nop nop nop 0x01800000
     s.status = .running ∧ opcodeOf s.cfg.layout s.memwb.instr = .halt ∧ (run 1 s).status = .halted) ∧
    calm.cfg.unusedBits = .ignore ∧ calm.cfg.r0Write = .ignore := by decide

theorem witness_not_faulted : ∀ q, calm.status ≠ .faulted q := by
  intro q h; exact absurd h (by simp [calm, flight, State.reset, State.initial])

/-- FaultEndsRun: a cycling state whose step faults. -/
theorem witness_fault : Cycling { calm with pc := 65536 } ∧
    faultOf (step { calm with pc := 65536 }) = some (.outOfBoundsMemory 65536) := by decide

/-- StaleReadWithoutForwarding: `add 1 2 3` in writeback and two readers of register 3 behind it. -/
theorem witness_stale_read :
    let s := { flight 0x001A0003 nop nop 0x000A0003 with imem := Memory.empty.write 2 0x001A0003 }
    Cycling s ∧ ¬ TakesBranch s ∧ isNext (step s) = true ∧ Cycling (after s) ∧ ¬ TakesBranch (after s) ∧
      isNext (step (after s)) = true ∧ writesRegOf (decode s.cfg.layout s.memwb.instr) = some 3 ∧
      regA s.cfg.layout s.ifid.instr = 3 ∧ regA s.cfg.layout (after s).ifid.instr = 3 := by decide

/-- StoreThenLoadSeesStore: `sw` in EXMEM with address 13 and `lw` in IDEX with base 5 and offset 8. -/
theorem witness_store_then_load :
    let s := flight nop 0x0081000D 0x00C3000F nop
    Cycling s ∧ s.dmem.wf = true ∧ opcodeOf s.cfg.layout s.exmem.instr = .sw ∧
      opcodeOf s.cfg.layout s.idex.instr = .lw ∧ s.idex.readRegA + s.idex.offset = s.exmem.aluResult ∧
      isNext (step s) = true ∧ isNext (step (after s)) = true := by decide

/-- AluResults, LoadResult, StoreResult, LoadStoreFaults, RegisterZeroWriteFaults: the last valid address and
the first invalid one; register 0 under `ignore`; the `fatal` policy. -/
theorem witness_alone : calm.cfg.r0Write = .ignore ∧ strict.cfg.r0Write = .fatal ∧ calm.dmem.wf = true ∧
    ValidAddress calm.cfg (calm.x 4 + BitVec.ofInt 32 0) ∧
    ¬ ValidAddress calm.cfg (calm.x 4 + BitVec.ofInt 32 1) ∧
    ValidAddress strict.cfg (strict.x 4 + BitVec.ofInt 32 0) := by decide

/-- FrameOfNonStoring, FrameOfStore: instructions of each shape that complete. -/
theorem witness_frames : isNext (exec (.add 1 2 3) calm) = true ∧ isNext (exec (.lw 0 1 13) calm) = true ∧
    isNext (exec (.beq 1 5 4) calm) = true ∧ isNext (exec .halt calm) = true ∧
    isNext (exec (.sw 0 3 15) calm) = true ∧ calm.dmem.wf = true := by decide

/-- A drained state with `sw 0 3 15` at pc and four no-ops behind it. -/
def isolated : State :=
  { calm with
    imem := ((((Memory.empty.write 2 0x00C3000F).write 3 nop).write 4 nop).write 5 nop).write 6 nop }

/-- StepRunsDecodedInstruction: its hypotheses together. -/
theorem witness_isolated : isolated.status = .running ∧ isolated.cfg.layout.admissible = true ∧
    Drained isolated ∧ 0 ≤ isolated.pc.s32 ∧ isolated.pc.s32 + 4 < isolated.cfg.memSize ∧
    isolated.cfg.memSize ≤ 2 ^ 31 - 1 ∧ executeRejects isolated.cfg (isolated.imem.read 2) = false ∧
    isNext (exec (decode isolated.cfg.layout (isolated.imem.read 2)) isolated) = true := by decide

theorem witness_isolated_inert : FollowedByInert isolated := by
  rintro j (rfl | rfl) <;> decide

/-- StepRunsDecodedInstruction: a taken `beq` at pc, to a valid target. -/
theorem witness_isolated_branch :
    let s := { isolated with imem := isolated.imem.write 2 0x01000002 }
    decode s.cfg.layout (s.imem.read 2) = .beq 0 0 2 ∧
      s.x (regA s.cfg.layout (s.imem.read 2)) = s.x (regB s.cfg.layout (s.imem.read 2)) ∧
      executeRejects s.cfg (s.imem.read 2) = false ∧
      (nextOr s (exec (.beq 0 0 2) s)).pc = 5 ∧ (nextOr s (steps 4 s)).pc = 5 := by decide

/-- StepRunsDecodedInstruction: states in which `exec` faults, by address and by register 0. -/
theorem witness_isolated_faults :
    (let s := { isolated with imem := isolated.imem.write 2 0x00A20001 }
     faultOf (exec (decode s.cfg.layout (s.imem.read 2)) s) = some (.outOfBoundsMemory 65536)) ∧
    (let s := { isolated with
       cfg := { isolated.cfg with r0Write := .fatal }, imem := isolated.imem.write 2 0x000A0000 }
     faultOf (exec (decode s.cfg.layout (s.imem.read 2)) s) = some (.writeToRegisterZero 0x000A0000)) := by
  decide

/-- StageOccupancy: four cycles with no branch taken, from a state with a `halt` at pc and from one without. -/
theorem witness_occupancy :
    (let s := { calm with imem := Memory.empty.write 2 0x01800000 }
     isNext (steps 4 s) = true ∧ Cycling (nextOr s (steps 3 s)) ∧ ¬ TakesBranch (nextOr s (steps 3 s)) ∧
      ¬ TakesBranch (nextOr s (steps 2 s)) ∧ ¬ TakesBranch (after s) ∧ ¬ TakesBranch s ∧
      opcodeOf s.cfg.layout (s.imem.read 2) = .halt) ∧
    (isNext (steps 5 calm) = true ∧ Cycling (nextOr calm (steps 3 calm)) ∧
      ¬ TakesBranch (nextOr calm (steps 3 calm)) ∧ opcodeOf .std (calm.imem.read 2) = .add) := by decide

/-- ReferenceStepRunsExec, ReferenceJalr, ReferenceFinalState: a reference machine that runs `halt`. -/
def refHalt : RefState := .initial .default (Memory.ofImage [0x01800000])

theorem witness_reference : ValidAddress refHalt.cfg refHalt.pc ∧
    (decode refHalt.cfg.layout (refWord refHalt)).opcode ≠ .jalr ∧ refHalt.status = .running ∧
    (refRun 1 refHalt).status = .halted ∧ refHalt.cfg.refJalr = .linkThenJump ∧
    strict.cfg.refJalr = .linkThenJump ∧ strict.cfg.r0Write = .fatal ∧
    refHalt.cfg.r0Write = .ignore ∧ ¬ ValidAddress refHalt.cfg 65536 := by decide

/-- PipelineEqualsReference: the image `lw 0 1 5; beq 0 0 0; halt`, whose run meets every condition. -/
def equivImage : List Word := [0x00810005, 0x01000000, 0x01800000]

/-- The reference run of `equivImage`, three instructions. -/
theorem witness_equivalence_run :
    (refRun 3 (.initial .default (Memory.ofImage equivImage))).status = .halted ∧
    refTrace 3 (.initial .default (Memory.ofImage equivImage)) =
      [⟨0, 0x00810005, .lw 0 1 5, false, none⟩, ⟨1, 0x01000000, .beq 0 0 0, true, none⟩,
        ⟨2, 0x01800000, .halt, false, none⟩] := by decide

theorem witness_equivalence :
    let es := refTrace 3 (.initial .default (Memory.ofImage equivImage))
    refLoad .default equivImage = .ok (.initial .default (Memory.ofImage equivImage)) ∧
    load .default equivImage = .ok (.initial .default (Memory.ofImage equivImage)) ∧
    HazardFree es ∧ NoLinkingJalr .default es ∧ NoExecutedStore (Memory.ofImage equivImage) es ∧
    SpeculationInBounds .default es ∧
    HighBitsClearWhereExecuted .default (Memory.ofImage equivImage) es := by
  intro es
  have hes : es = [⟨0, 0x00810005, .lw 0 1 5, false, none⟩, ⟨1, 0x01000000, .beq 0 0 0, true, none⟩,
      ⟨2, 0x01800000, .halt, false, none⟩] := witness_equivalence_run.2
  refine ⟨rfl, rfl, ?_, ?_, ?_, ?_, .inl rfl⟩
  · intro i j ei ej q hi hj hij hw hu hq
    have hmem : ej ∈ es := List.mem_of_getElem? hj
    rw [hes] at hmem
    simp only [List.mem_cons, List.not_mem_nil, or_false] at hmem
    rcases hmem with rfl | rfl | rfl <;> simp [usesRegs] at hu <;> exact absurd hu hq
  · exact .inr (by rw [hes]; decide)
  · intro i j ei ej a v hi hj hij hs
    have hmem : ei ∈ es := List.mem_of_getElem? hi
    rw [hes] at hmem
    simp only [List.mem_cons, List.not_mem_nil, or_false] at hmem
    rcases hmem with rfl | rfl | rfl <;> simp at hs
  · intro e he
    rw [hes] at he
    simp only [List.mem_cons, List.not_mem_nil, or_false] at he
    rcases he with rfl | rfl | rfl <;> decide

/-- Records for the assembler's statements: `L .fill L`, ` beq 0 0 L`. -/
def asmRecords : List Record :=
  [⟨some ['L'], fillString, [['L']]⟩, ⟨none, ['b', 'e', 'q'], [['0'], ['0'], ['L']]⟩]

/-- PassOneTable, LabelResolution, DefineThenLookup, LiteralIsNoLabel, OffsetOverflowExactly. -/
theorem witness_assembler : pass1 .default initialTable 0 asmRecords = .ok [(['L'], 0)] ∧
    assemble .default asmRecords = .ok [0#32, 0x0100FFFE#32] ∧ parseLiteral ['L'] = none ∧
    parseLiteral ['-', '1'] = some (-1) ∧ validLabel ['L'] = true ∧
    validLabel ['9', 'l', 'i', 'v', 'e', 's'] = false ∧ findLabel initialTable ['L'] = none ∧
    findLabel [(['L'], 0)] ['L'] = some 0 ∧ Config.default.offsetRange = .reject ∧
    (Instr.lw 0 1 32768).wellFormed = false := ⟨rfl, rfl, rfl, rfl, rfl, rfl, rfl, rfl, rfl, rfl⟩

/-- PassOneTable, DuplicateLabelFails: two records with different valid labels, and a pass 1 that fails. -/
theorem witness_pass_one :
    let rs : List Record := [⟨some ['L'], ['h', 'a', 'l', 't'], []⟩, ⟨some ['M'], ['h', 'a', 'l', 't'], []⟩]
    (∀ r ∈ rs, ∀ l, r.label = some l → Config.default.labelName = .loose ∨ validLabel l = true) ∧
    (∀ (i j : Nat) (ri rj : Record) (l : Token), rs[i]? = some ri → rs[j]? = some rj → i < j →
      ri.label = some l → rj.label ≠ some l) ∧
    pass1 .default initialTable 0 [⟨some ['9'], ['h', 'a', 'l', 't'], []⟩]
      = .error (.error .invalidLabel 0) := by
  refine ⟨?_, ?_, rfl⟩
  · intro r hr l hl
    simp only [List.mem_cons, List.not_mem_nil, or_false] at hr
    rcases hr with rfl | rfl <;> · simp only [Option.some.injEq] at hl; subst hl; exact .inr rfl
  · intro i j ri rj l hi hj hij hl hr
    match i, j with
    | 0, 1 =>
      simp only [List.getElem?_cons_zero, List.getElem?_cons_succ, Option.some.injEq] at hi hj
      subst hi hj
      simp only [Option.some.injEq] at hl hr
      subst hl
      exact absurd hr (by decide)
    | _, j + 2 => simp at hj
    | i + 1, 1 => omega
    | 0, 0 => omega
    | i + 1, 0 => omega

/-- LabelResolution: `asmRecords` is a program text without an error. -/
theorem witness_program_correct : ProgramCorrect .default asmRecords := by
  have at0 : LabelAt asmRecords ['L'] 0 := ⟨_, rfl, rfl⟩
  refine ⟨⟨?_, ?_⟩, ?_⟩
  · intro r hr l hl
    simp only [asmRecords, List.mem_cons, List.not_mem_nil, or_false] at hr
    rcases hr with rfl | rfl
    · simp only [Option.some.injEq] at hl; subst hl; exact .inr rfl
    · simp at hl
  · rintro i j l ⟨p, hp, hl⟩ ⟨q, hq, hl'⟩
    match i, j with
    | 0, 0 => rfl
    | 1, _ => simp only [asmRecords, List.getElem?_cons_succ, List.getElem?_cons_zero,
        Option.some.injEq] at hp; subst hp; simp at hl
    | _, 1 => simp only [asmRecords, List.getElem?_cons_succ, List.getElem?_cons_zero,
        Option.some.injEq] at hq; subst hq; simp at hl'
    | i + 2, _ => simp [asmRecords] at hp
    | _, j + 2 => simp [asmRecords] at hq
  · intro k r hr
    match k with
    | 0 =>
      simp only [asmRecords, List.getElem?_cons_zero, Option.some.injEq] at hr
      subst hr
      exact ⟨['L'], [], rfl, .inr ⟨rfl, 0, at0⟩⟩
    | 1 =>
      simp only [asmRecords, List.getElem?_cons_succ, List.getElem?_cons_zero, Option.some.injEq] at hr
      subst hr
      refine ⟨.beq, rfl, by decide, ?_, ?_⟩
      · intro j x hx hj hI
        have hj2 : j < 2 := hI.resolve_left (fun h => h rfl)
        refine ⟨0, ?_⟩
        match j with
        | 0 => simpa using hx.symm
        | 1 => simpa using hx.symm
        | j + 2 => omega
      · intro x _ hx
        simp only [List.getElem?_cons_succ, List.getElem?_cons_zero, Option.some.injEq] at hx
        subst hx
        exact .inr ⟨rfl, 0, at0, by decide, by decide⟩
    | k + 2 => simp [asmRecords] at hr

/-- PlacedWordRuns, ExitCodes: a 32-bit word; a file of one number that is loaded, one with a field that is no
number, one too long for its memory; a run that ends in each way. -/
theorem witness_host : imageOfTokens [['2', '5', '1', '6', '5', '8', '2', '4']] = .ok [0x01800000] ∧
    load .default [0x01800000] = .ok (.initial .default (Memory.ofImage [0x01800000])) ∧
    (run 5 (.initial .default (Memory.ofImage [0x01800000]))).status = .halted ∧
    (run 4 (.initial .default (Memory.ofImage [0x01800000]))).status = .running ∧
    (run 2 (.initial { Config.default with memSize := 1 } (Memory.ofImage [0x01800000]))).status =
      .faulted (.outOfBoundsMemory 1) ∧
    parseLiteral ['x'] = none ∧ parseLiteral ['+', '1'] = some 1 ∧
    ({ Config.default with memSize := 1 } : Config).memSize < [['0'], ['0']].length ∧
    assemble .default [⟨none, ['x'], []⟩] = .error (.error .unrecognizedOpcode 0) ∧
    Config.default.undefinedLabel = .fatal := ⟨rfl, rfl, rfl, rfl, rfl, rfl, rfl, by decide, rfl, rfl⟩

/-- RegisterOperands: a string that is no register operand. -/
theorem witness_no_register : ∀ r : RegIdx, (['8'] : Token) ≠ [Char.ofNat (48 + r.toNat)] := by decide

/-- DuplicateLabelFails: two records with one label, both valid, and no earlier repetition. -/
theorem witness_duplicate_label :
    let rs : List Record := [⟨some ['L'], ['h', 'a', 'l', 't'], []⟩, ⟨some ['L'], ['h', 'a', 'l', 't'], []⟩]
    rs[0]? = some ⟨some ['L'], ['h', 'a', 'l', 't'], []⟩ ∧
    rs[1]? = some ⟨some ['L'], ['h', 'a', 'l', 't'], []⟩ ∧
    (∀ r ∈ rs, ∀ l, r.label = some l → validLabel l = true) ∧
    (∀ (i j : Nat) (ri rj : Record) (l : Token), rs[i]? = some ri → rs[j]? = some rj → i < j →
      ri.label = some l → rj.label = some l → 1 ≤ j) := by
  refine ⟨rfl, rfl, ?_, fun i j _ _ _ _ _ h _ _ => by omega⟩
  intro r hr l hl
  simp only [List.mem_cons, List.not_mem_nil, or_false, or_self] at hr
  subst hr
  simp only [Option.some.injEq] at hl
  subst hl
  rfl

end Sys2Proof.Tests
end

section
/-! Proofs about the state of the pipelined machine (10_state.md): what one cycle does to pc, what a run
under fuel does in its first iteration, and that nothing reads the cycle count. -/

namespace Sys2Proof.Machine

/-! ### The program counter (10_state.md R15) -/

/-- The memory stage hands over the branch target exactly when it resolves a taken branch. -/
theorem memoryStage_branch {s : State} {m : MemResult} (h : memoryStage s = .ok m) :
    m.branch = if TakesBranch s then some s.exmem.branchTarget else none := by
  have hop : (s.decodes s.exmem.instr).opcode = opcodeOf s.cfg.layout s.exmem.instr :=
    decode_opcode _ _
  rcases memoryOf_eq_ok.1 h with ⟨ho, -, rfl⟩ | ⟨ho, -, rfl⟩ | ⟨ho, rfl⟩ | ⟨-, ho, rfl⟩
  · simp [TakesBranch, ← hop, ho]
  · simp [TakesBranch, ← hop, ho]
  · simp [TakesBranch, ← hop, ho]
  · simp [TakesBranch, ← hop, ho]

/-- The pc of the state after a completed cycle (44_pipeline.md R101, R105). -/
theorem cycle_pc {s n : State} (h : cycle s = .ok n) :
    n.pc = if TakesBranch s then s.exmem.branchTarget else s.pc + 1#32 := by
  obtain ⟨f, e, m, g, hf, -, hm, -, rfl⟩ := cycle_eq_ok.1 h
  obtain ⟨-, rfl⟩ := fetchStage_eq_ok.1 hf
  rw [memoryStage_branch hm]
  split
  · rw [applyBranch_some, squash_pc]
  · rw [applyBranch_none, latchOutputs_pc]; rfl

/-! ### The first iteration of a run under fuel (44_pipeline.md R113) -/

/-- A run that is over stays as it is. -/
theorem run_of_not_running {s : State} (hs : s.status ≠ .running) (k : Nat) : run k s = s := by
  cases k with
  | zero => rfl
  | succ k =>
    unfold run
    split
    · exact absurd ‹_› hs
    · rfl
    · rfl

section run
variable {s : State} (hs : s.status = .running)
include hs

theorem run_succ_of_halt (hh : haltDetected s = true) (k : Nat) : run (k + 1) s = s.stopHalted := by
  simp [run, hs, hh]

theorem run_succ_of_error {q : Fault} (hh : haltDetected s = false) (hc : cycle s = .error q)
    (k : Nat) : run (k + 1) s = s.stopFaulted q := by
  simp [run, hs, hh, hc]

theorem run_succ_of_ok {n : State} (hh : haltDetected s = false) (hc : cycle s = .ok n) (k : Nat) :
    run (k + 1) s = run k n := by
  simp [run, hs, hh, hc]

end run

/-! ### The cycle count (10_state.md R26) -/

/-- The state with its cycle count replaced by `m`. -/
def State.withCount (s : State) (m : Nat) : State := { s with cycleCount := m }

section withCount
variable (s : State) (m : Nat)
@[simp] theorem withCount_fetchStage : fetchStage (s.withCount m) = fetchStage s := rfl
@[simp] theorem withCount_executeStage : executeStage (s.withCount m) = executeStage s := rfl
@[simp] theorem withCount_memoryStage : memoryStage (s.withCount m) = memoryStage s := rfl
@[simp] theorem withCount_writebackStage : writebackStage (s.withCount m) = writebackStage s := rfl

/-- The outputs of a cycle, under the overrides of a branch, take the replaced count on by 1. -/
theorem applyBranch_latchOutputs_withCount (f : IfId) (e : ExMem) (r : MemResult)
    (g : Vector Word 8) (b : Option Word) :
    applyBranch (latchOutputs (s.withCount m) f e r g) b =
      (applyBranch (latchOutputs s f e r g) b).withCount (m + 1) := by
  cases b <;> rfl
end withCount

/-- A cycle that completes does so whatever the count, and differs in the count alone. -/
theorem cycle_withCount_of_ok {s n : State} (h : cycle s = .ok n) (m : Nat) :
    cycle (s.withCount m) = .ok (n.withCount (m + 1)) := by
  obtain ⟨f, e, r, g, hf, he, hr, hg, rfl⟩ := cycle_eq_ok.1 h
  exact cycle_eq_ok.2
    ⟨f, e, r, g, hf, he, hr, hg, applyBranch_latchOutputs_withCount s m f e r g r.branch⟩

/-- A cycle faults alike whatever the count. -/
theorem cycle_withCount_of_error {s : State} {q : Fault} (h : cycle s = .error q) (m : Nat) :
    cycle (s.withCount m) = .error q := by
  rw [cycle_eq_error] at h ⊢
  simpa using h

/-- A run under fuel `k` from `s` takes some number `d` of cycles, all of its fuel if it is still on
afterwards: it adds `d` to the count it starts from, and does so from any other count with no other
difference. -/
def RunCountsCycles (k : Nat) (s : State) : Prop :=
  ∃ d ≤ k, ((run k s).status = .running → d = k) ∧ (run k s).cycleCount = s.cycleCount + d ∧
    ∀ m, run k (s.withCount m) = (run k s).withCount (m + d)

/-- The case of a run that ends, in `e`, before its first cycle. -/
theorem runCountsCycles_of_no_cycle {k : Nat} {s e : State} (h : run k s = e)
    (he : e.status ≠ .running) (hcount : e.cycleCount = s.cycleCount)
    (hwith : ∀ m, run k (s.withCount m) = e.withCount m) : RunCountsCycles k s := by
  subst h
  exact ⟨0, Nat.zero_le k, fun hr => absurd hr he, hcount, hwith⟩

/-- The case of a first cycle that completes, in `n`. -/
theorem runCountsCycles_of_cycle {k : Nat} {s n : State} (hs : s.status = .running)
    (hh : haltDetected s = false) (hc : cycle s = .ok n) (ih : RunCountsCycles k n) :
    RunCountsCycles (k + 1) s := by
  obtain ⟨d, hdk, hrun, hcount, hwith⟩ := ih
  obtain ⟨-, -, -, hn, -, -⟩ := cycle_fields hc
  unfold RunCountsCycles
  rw [run_succ_of_ok hs hh hc]
  refine ⟨d + 1, by omega, fun hr => by rw [hrun hr], by omega, fun m => ?_⟩
  rw [run_succ_of_ok (s := s.withCount m) hs hh (cycle_withCount_of_ok hc m), hwith,
    Nat.add_right_comm, Nat.add_assoc]

theorem runCountsCycles (k : Nat) (s : State) : RunCountsCycles k s := by
  induction k generalizing s with
  | zero => exact ⟨0, le_rfl, fun _ => rfl, rfl, fun _ => rfl⟩
  | succ k ih =>
    by_cases hs : s.status = .running
    case neg =>
      exact runCountsCycles_of_no_cycle (run_of_not_running hs _) hs rfl
        fun m => run_of_not_running (s := s.withCount m) hs _
    case pos =>
      cases hh : haltDetected s with
      | true =>
        exact runCountsCycles_of_no_cycle (run_succ_of_halt hs hh k) (by simp) rfl
          fun m => run_succ_of_halt (s := s.withCount m) hs hh k
      | false =>
        cases hc : cycle s with
        | error q =>
          exact runCountsCycles_of_no_cycle (run_succ_of_error hs hh hc k) (by simp) rfl
            fun m => run_succ_of_error (s := s.withCount m) hs hh (cycle_withCount_of_error hc m) k
        | ok n => exact runCountsCycles_of_cycle hs hh hc (ih n)

/-- A loaded state has counted no cycle. -/
theorem load_cycleCount {c : Config} {image : List Word} {s : State} (h : load c image = .ok s) :
    s.cycleCount = 0 := by
  unfold load at h
  split at h
  · obtain rfl := Except.ok.inj h; rfl
  · cases h

/-- Settles O22: a run's cycles are counted by `runCountsCycles`, from 0 in a loaded state. -/
theorem cycleCountCountsCycles : Obligations.CycleCountCountsCycles := by
  refine ⟨?_, ?_, ?_⟩
  · rintro s n m ⟨hs, hh⟩ hstep
    have hc : cycle s = .ok n := (step_next_of_running hs hh).1 hstep
    obtain ⟨-, -, -, hn, -, -⟩ := cycle_fields hc
    exact ⟨hn, (step_next_of_running (s := s.withCount m) hs hh).2 (cycle_withCount_of_ok hc m)⟩
  · intro c image s k hload
    obtain ⟨d, hdk, hrun, hcount, -⟩ := runCountsCycles k s
    rw [load_cycleCount hload, Nat.zero_add] at hcount
    exact ⟨hcount.trans_le hdk, fun h => hcount.trans (hrun h)⟩
  · intro s m k
    obtain ⟨d, -, -, hcount, hwith⟩ := runCountsCycles k s
    exact ⟨d, hcount, hwith m⟩

/-- Settles O30: the three clauses are the cases of `TakesBranch` in `cycle_pc`. -/
theorem pcChangesInTwoWays : Obligations.PcChangesInTwoWays := by
  rintro s n ⟨hs, hh⟩ hstep
  have hpc := cycle_pc ((step_next_of_running hs hh).1 hstep)
  refine ⟨fun hop hz => ?_, fun _ hz => ?_, fun hop => ?_⟩
  · rw [hpc, if_pos ⟨hop, hz⟩]
  · rw [hpc, if_neg fun h => hz h.2]
  · rw [hpc, if_neg fun h => hop h.1]

end Sys2Proof.Machine
end

section
/-! Proofs about memory accesses out of bounds (20_memory.md R35, 60_exceptions.md R192): which stage of a
cycle raises `OutOfBoundsMemory`, and for which address. -/

namespace Sys2Proof.Machine

theorem accessesMemory_iff (i : Instr) :
    accessesMemory i = true ↔ i.opcode = .lw ∨ i.opcode = .sw := by
  cases i <;> simp [accessesMemory, Instr.opcode]

/-- The memory stage faults exactly on a `lw` or `sw` in EXMEM whose address is out of bounds. -/
theorem memoryStage_eq_error {s : State} {q : Fault} : memoryStage s = .error q ↔
    (opcodeOf s.cfg.layout s.exmem.instr = .lw ∨ opcodeOf s.cfg.layout s.exmem.instr = .sw) ∧
      inBounds s.cfg s.exmem.aluResult = false ∧ .outOfBoundsMemory s.exmem.aluResult = q := by
  rw [memoryStage, memoryOf_eq_error, accessesMemory_iff, State.decodes, decode_opcode]

/-- A register write can fault only as a write to register 0 (44_pipeline.md R108). -/
theorem writebackStage_error {s : State} {q : Fault} (h : writebackStage s = .error q) :
    q = .writeToRegisterZero s.memwb.instr := by
  unfold writebackStage at h
  match hr : writeRequestOf (s.decodes s.memwb.instr) s.memwb.writeData with
  | none => rw [hr, writeBack_none] at h; cases h
  | some (r, v) =>
    rw [hr, writeBack_some] at h
    obtain ⟨-, -, hq⟩ := writeReg_eq_error.1 h
    exact hq.symm

/-- A cycle raises `OutOfBoundsMemory` in fetch, or in the memory stage when neither fetch nor execute
faults; execute and writeback have faults of their own. -/
theorem cycle_eq_outOfBoundsMemory {s : State} {a : Word} :
    cycle s = .error (.outOfBoundsMemory a) ↔
      fetchStage s = .error (.outOfBoundsMemory a) ∨
      (∃ f, fetchStage s = .ok f) ∧ (∃ e, executeStage s = .ok e) ∧
        memoryStage s = .error (.outOfBoundsMemory a) := by
  have hexecute : executeStage s ≠ .error (.outOfBoundsMemory a) := fun h =>
    nomatch (executeStage_eq_error.1 h).2
  have hwriteback : writebackStage s ≠ .error (.outOfBoundsMemory a) := fun h =>
    nomatch writebackStage_error h
  simp [cycle_eq_error, hexecute, hwriteback]

/-- Settles O25: `cycle_eq_outOfBoundsMemory`, with what makes each of the two stages fault. -/
theorem outOfBoundsExactly : Obligations.OutOfBoundsExactly := by
  refine ⟨?_, ?_, ?_, fun _ => rfl⟩
  · rintro s ⟨hs, hh⟩ hpc
    have hfetch : fetchStage s = .error (.outOfBoundsMemory s.pc) :=
      fetchStage_eq_error.2 ⟨(inBounds_false_iff _ _).2 hpc, rfl⟩
    exact (step_fault_of_running hs hh).2 (cycle_eq_outOfBoundsMemory.2 (.inl hfetch))
  · rintro s ⟨hs, hh⟩ hpc hexecute hop haddr
    have hmemory : memoryStage s = .error (.outOfBoundsMemory s.exmem.aluResult) :=
      memoryStage_eq_error.2 ⟨hop, (inBounds_false_iff _ _).2 haddr, rfl⟩
    exact (step_fault_of_running hs hh).2 (cycle_eq_outOfBoundsMemory.2 (.inr
      ⟨⟨_, fetchStage_eq_ok.2 ⟨(inBounds_iff _ _).2 hpc, rfl⟩⟩,
        ⟨_, executeStage_eq_ok.2 ⟨hexecute, rfl⟩⟩, hmemory⟩))
  · rintro s a ⟨hs, hh⟩ hstep
    rcases cycle_eq_outOfBoundsMemory.1 ((step_fault_of_running hs hh).1 hstep) with
      hfetch | ⟨-, -, hmemory⟩
    case inl =>
      obtain ⟨hpc, ha⟩ := fetchStage_eq_error.1 hfetch
      obtain rfl := Fault.outOfBoundsMemory.inj ha
      exact ⟨(inBounds_false_iff _ _).1 hpc, .inl rfl⟩
    case inr =>
      obtain ⟨hop, haddr, ha⟩ := memoryStage_eq_error.1 hmemory
      obtain rfl := Fault.outOfBoundsMemory.inj ha
      exact ⟨(inBounds_false_iff _ _).1 haddr, .inr ⟨rfl, hop⟩⟩

end Sys2Proof.Machine
end

section
/-! Proofs about what decode reads from a word (30_encoding.md R58 to R61): the numbers its fields hold, the
format its opcode selects, and its offset. -/

namespace Sys2Proof

/-! ### The fields of a word as numbers (30_encoding.md R58, R59) -/

theorem field3_toNat (k : Nat) (w : Word) : (field3 k w).toNat = w.toNat / 2 ^ k % 8 := by
  rw [field3, BitVec.extractLsb'_toNat, Nat.shiftRight_eq_div_pow]

theorem destReg_toNat (w : Word) : (destReg w).toNat = w.toNat % 8 := by
  rw [destReg, field3_toNat, pow_zero, Nat.div_one]

theorem offset16_toNat (w : Word) : (offset16 w).toNat = w.toNat % 65536 := by
  rw [offset16, BitVec.extractLsb'_toNat, Nat.shiftRight_zero]

/-- The sign bit of the offset field is bit 15 of the word. -/
theorem offset16_msb (w : Word) : (offset16 w).msb = w.getLsbD 15 := by
  simp [offset16, BitVec.msb_eq_getLsbD_last]

theorem offset16_toInt (w : Word) : (offset16 w).toInt =
    if w.getLsbD 15 = true then ((w.toNat % 65536 : Nat) : Int) - 65536 else (w.toNat % 65536 : Nat) := by
  rw [BitVec.toInt_eq_msb_cond, offset16_msb, offset16_toNat]
  rfl

theorem offsetWord_s32 (w : Word) : (offsetWord w).s32 = (offset16 w).toInt :=
  BitVec.toInt_signExtend_of_le (by decide)

/-! ### The format the opcode selects (30_encoding.md R57, R61) -/

theorem format_opcodeOfBits (b : BitVec 3) (f : Format) :
    (opcodeOfBits b).format = f ↔ opcodeOfFormat f b.toNat = true := by
  cases f <;> · revert b; decide

section decodeFields
variable {L : Layout} {w : Word} {f : Format}

theorem format_opcodeOf :
    (opcodeOf L w).format = f ↔ opcodeOfFormat f (w.toNat / 2 ^ L.opLsb % 8) = true := by
  rw [opcodeOf, format_opcodeOfBits, opcodeBits, field3_toNat]

theorem decodeFields_of_formatR (h : (opcodeOf L w).format = .R) : decodeFields L w =
    .rType (opcodeBits L w).toNat (regA L w).toNat (regB L w).toNat (destReg w).toNat := by
  rw [decodeFields, h]

theorem decodeFields_of_formatI (h : (opcodeOf L w).format = .I) : decodeFields L w =
    .iType (opcodeBits L w).toNat (regA L w).toNat (regB L w).toNat (offset16 w).toInt := by
  rw [decodeFields, h]

theorem decodeFields_of_formatJ (h : (opcodeOf L w).format = .J) : decodeFields L w =
    .jType (opcodeBits L w).toNat (regA L w).toNat (regB L w).toNat := by
  rw [decodeFields, h]

theorem decodeFields_of_formatO (h : (opcodeOf L w).format = .O) :
    decodeFields L w = .oType (opcodeBits L w).toNat := by
  rw [decodeFields, h]

/-- The offset of an I-type tuple that decode gives is the word's offset field. -/
theorem offset_of_decodeFields {op a b : Nat} {o : Int} (h : decodeFields L w = .iType op a b o) :
    o = (offset16 w).toInt := by
  unfold decodeFields at h
  split at h <;> cases h
  rfl

end decodeFields

/-- The raw fields of the instruction a word decodes to are the fields of the word. -/
theorem fields_decode (L : Layout) (w : Word) : (decode L w).fields = decodeFields L w := by
  have hbits : opcodeBits L w = opcodeToBits (opcodeOf L w) := (opcodeToBits_ofBits _).symm
  unfold decode decodeFields
  rw [hbits]
  cases opcodeOf L w <;> rfl

/-- The offset operand of a decoded `lw`, `sw` or `beq` is the signed reading of the word's offset. -/
theorem offset_of_decode {L : Layout} {w : Word} {a b : RegIdx} {o : Int}
    (h : decode L w = .lw a b o ∨ decode L w = .sw a b o ∨ decode L w = .beq a b o) :
    o = (offset16 w).toInt := by
  have hfields := fields_decode L w
  rcases h with h | h | h <;> rw [h] at hfields <;> exact offset_of_decodeFields hfields.symm

/-- Settles O2: the opcode number selects the format by `format_opcodeOf`, and each field is the number that
`field3_toNat`, `destReg_toNat` or `offset16_toInt` gives. -/
theorem decodeReadsFieldsByFormat : Obligations.DecodeReadsFieldsByFormat := by
  intro L w op a b off
  have hop : (opcodeBits L w).toNat = op := field3_toNat L.opLsb w
  have ha : (regA L w).toNat = a := field3_toNat L.raLsb w
  have hb : (regB L w).toNat = b := field3_toNat L.rbLsb w
  have hoff : (offset16 w).toInt = off := by
    simp only [offset16_toInt, BitVec.getLsbD, Nat.testBit_eq_decide_div_mod_eq, decide_eq_true_eq, off]
  have hformat (f : Format) (h : opcodeOfFormat f op = true) : (opcodeOf L w).format = f :=
    format_opcodeOf.2 h
  refine ⟨fun h => ?_, fun h2 h4 => ?_, fun h => ?_, fun h => ?_, fields_decode L w⟩
  · rw [decodeFields_of_formatR (hformat .R (by simp [opcodeOfFormat, h])), hop, ha, hb, destReg_toNat]
  · rw [decodeFields_of_formatI (hformat .I (by simp [opcodeOfFormat, h2, h4])), hop, ha, hb, hoff]
  · rw [decodeFields_of_formatJ (hformat .J (by simp [opcodeOfFormat, h])), hop, ha, hb]
  · have h67 : op = 6 ∨ op = 7 := by omega
    rw [decodeFields_of_formatO (hformat .O (by simpa [opcodeOfFormat] using h67)), hop]

/-- Settles O8: the sign extension keeps the signed reading of the field, which `offset16_toInt` gives. -/
theorem offsetIsSignExtended : Obligations.OffsetIsSignExtended := by
  intro L w
  refine ⟨fun hpos => ?_, fun hneg => ?_, fun a b o hdecode => ?_⟩
  · rw [offsetWord_s32, offset16_toInt, hpos, if_neg Bool.false_ne_true]
  · rw [offsetWord_s32, offset16_toInt, if_pos hneg]
  · obtain rfl := offset_of_decode hdecode
    exact ⟨(offsetWord_s32 w).symm, offsetWord_eq w⟩

end Sys2Proof
end

section
/-! Proofs about the memory stage (44_pipeline.md R104, R105): what it hands to MEMWB and to data memory, and
what a completed cycle latches with and without the overrides of a taken branch. -/

namespace Sys2Proof.Machine

/-! ### The memory stage by the opcode in EXMEM (44_pipeline.md R104) -/

theorem accessesMemory_eq_false_iff (i : Instr) :
    accessesMemory i = false ↔ i.opcode ≠ .lw ∧ i.opcode ≠ .sw := by
  rw [← Bool.not_eq_true, accessesMemory_iff, not_or]

/-- What the memory stage answers when it completes: a load, a store, a branch decision, or a pass. -/
theorem memoryStage_eq_ok {s : State} {m : MemResult} : memoryStage s = .ok m ↔
    (opcodeOf s.cfg.layout s.exmem.instr = .lw ∧ ValidAddress s.cfg s.exmem.aluResult ∧
      ⟨s.dmem.read (addressIndex s.exmem.aluResult), s.dmem, none⟩ = m) ∨
    (opcodeOf s.cfg.layout s.exmem.instr = .sw ∧ ValidAddress s.cfg s.exmem.aluResult ∧
      ⟨s.exmem.aluResult, s.dmem.write (addressIndex s.exmem.aluResult) s.exmem.readRegB, none⟩ = m) ∨
    (opcodeOf s.cfg.layout s.exmem.instr = .beq ∧
      ⟨s.exmem.aluResult, s.dmem,
        if s.exmem.aluResult = 0#32 then some s.exmem.branchTarget else none⟩ = m) ∨
    ((opcodeOf s.cfg.layout s.exmem.instr ≠ .lw ∧ opcodeOf s.cfg.layout s.exmem.instr ≠ .sw) ∧
      opcodeOf s.cfg.layout s.exmem.instr ≠ .beq ∧ ⟨s.exmem.aluResult, s.dmem, none⟩ = m) := by
  rw [memoryStage, memoryOf_eq_ok, accessesMemory_eq_false_iff, inBounds_iff, State.decodes, decode_opcode]

section memoryStage
variable {s : State} {m : MemResult} (h : memoryStage s = .ok m)
include h

/-- The word MEMWB takes: a load's is read from data memory, any other is the ALU's (44_pipeline.md R104). -/
theorem memoryStage_writeData : m.writeData = if opcodeOf s.cfg.layout s.exmem.instr = .lw
    then s.dmem.read (addressIndex s.exmem.aluResult) else s.exmem.aluResult := by
  rcases memoryStage_eq_ok.1 h with ⟨hop, -, rfl⟩ | ⟨hop, -, rfl⟩ | ⟨hop, rfl⟩ | ⟨⟨hlw, -⟩, -, rfl⟩
  · simp [hop]
  · simp [hop]
  · simp [hop]
  · simp [hlw]

/-- Data memory after the stage: only a store writes it (44_pipeline.md R104). -/
theorem memoryStage_dmem : m.dmem = if opcodeOf s.cfg.layout s.exmem.instr = .sw
    then s.dmem.write (addressIndex s.exmem.aluResult) s.exmem.readRegB else s.dmem := by
  rcases memoryStage_eq_ok.1 h with ⟨hop, -, rfl⟩ | ⟨hop, -, rfl⟩ | ⟨hop, rfl⟩ | ⟨⟨-, hsw⟩, -, rfl⟩
  · simp [hop]
  · simp [hop]
  · simp [hop]
  · simp [hsw]

/-- A load or a store that completes has a valid address. -/
theorem validAddress_of_memoryStage (hop : opcodeOf s.cfg.layout s.exmem.instr = .lw ∨
    opcodeOf s.cfg.layout s.exmem.instr = .sw) : ValidAddress s.cfg s.exmem.aluResult := by
  by_contra haddr
  cases h.symm.trans (memoryStage_eq_error.2 ⟨hop, (inBounds_false_iff _ _).2 haddr, rfl⟩)

end memoryStage

/-! ### What a completed cycle takes from the memory stage (44_pipeline.md R104, R105) -/

section cycle
variable {s n : State} (h : cycle s = .ok n)
include h

/-- The memory stage of a completed cycle completes, and its outputs stand in the next state, squash or not. -/
theorem memoryStage_of_cycle : ∃ m, memoryStage s = .ok m ∧
    n.memwb = ⟨s.exmem.instr, m.writeData⟩ ∧ n.dmem = m.dmem := by
  obtain ⟨f, e, m, g, -, -, hm, -, rfl⟩ := cycle_eq_ok.1 h
  exact ⟨m, hm, by simp, by simp⟩

/-- A cycle that resolves a taken branch squashes the three younger latches. -/
theorem cycle_latches_of_takesBranch (hb : TakesBranch s) : n.ifid = .squashed s.cfg.layout ∧
    n.idex = .squashed s.cfg.layout ∧ n.exmem = .squashed s.cfg.layout := by
  obtain ⟨f, e, m, g, -, -, hm, -, rfl⟩ := cycle_eq_ok.1 h
  rw [memoryStage_branch hm, if_pos hb]
  simp

/-- A cycle that resolves no taken branch latches what fetch, decode and execute answer. -/
theorem cycle_latches_of_not_takesBranch (hb : ¬ TakesBranch s) :
    n.ifid = ⟨s.imem.read (addressIndex s.pc), s.pc + 1⟩ ∧ n.idex = decodeStage s ∧
      executeStage s = .ok n.exmem := by
  obtain ⟨f, e, m, g, hf, he, hm, -, rfl⟩ := cycle_eq_ok.1 h
  obtain ⟨-, rfl⟩ := fetchStage_eq_ok.1 hf
  rw [memoryStage_branch hm, if_neg hb]
  exact ⟨rfl, rfl, he⟩

end cycle

/-- Settles O18: the fault is `outOfBoundsExactly`; a completed cycle is `memoryStage_of_cycle` with the
stage's own rules, and its overrides are the two cases of `TakesBranch`. -/
theorem memoryStage_spec : Obligations.MemoryStage := by
  rintro s ⟨hs, hh⟩ hwf
  refine ⟨fun hop haddr hpc hexecute => ?_, fun n hstep => ?_⟩
  · obtain ⟨-, hfault, -, -⟩ := outOfBoundsExactly
    exact hfault s ⟨hs, hh⟩ hpc hexecute hop haddr
  · have hc : cycle s = .ok n := (step_next_of_running hs hh).1 hstep
    have hpc := cycle_pc hc
    obtain ⟨m, hm, hmemwb, hdmem⟩ := memoryStage_of_cycle hc
    rw [memoryStage_dmem hm] at hdmem
    rw [memoryStage_writeData hm] at hmemwb
    rw [hmemwb]
    refine ⟨rfl, fun hlw => ?_, fun hlw => ?_, fun hsw => ?_, fun hsw a => ?_, fun hbeq hz => ?_,
      fun hb => ?_⟩
    · exact ⟨validAddress_of_memoryStage hm (.inl hlw), if_pos hlw⟩
    · exact if_neg hlw
    · rw [hdmem, if_pos hsw]
      exact ⟨validAddress_of_memoryStage hm (.inr hsw), fun a => read_write _ _ a _ hwf⟩
    · rw [hdmem, if_neg hsw]
    · obtain ⟨hifid, hidex, hexmem⟩ := cycle_latches_of_takesBranch hc ⟨hbeq, hz⟩
      rw [hpc, if_pos ⟨hbeq, hz⟩, hifid, hidex, hexmem]
      exact ⟨rfl, rfl, rfl, rfl⟩
    · obtain ⟨hifid, hidex, hexecute⟩ := cycle_latches_of_not_takesBranch hc hb
      obtain ⟨-, hexmem⟩ := executeStage_eq_ok.1 hexecute
      rw [hpc, if_neg hb, hifid, hidex, ← hexmem]
      exact ⟨rfl, rfl, rfl, rfl⟩

end Sys2Proof.Machine
end

section
/-! Proofs about pass 1 of the assembler and the register operands (46_assembler.md R159, R160, R168): on
which labels pass 1 succeeds, what its table then holds, and where it fails. -/

namespace Sys2Proof.Machine

/-! ### `define` (46_assembler.md R155) -/

/-- `define` refuses an invalid name under `strict`, and a name it may enter that is there already. -/
theorem defineLabel_eq_error {c : Config} {t : SymbolTable} {name : Token} {a : Nat} {e : AsmError} :
    defineLabel c t name a = .error e ↔
      ((c.labelName = .strict ∧ validLabel name = false) ∧ e = .invalidLabel) ∨
      ((c.labelName = .loose ∨ validLabel name = true) ∧ (findLabel t name).isSome ∧
        e = .duplicateLabel) := by
  unfold defineLabel
  cases c.labelName <;> cases validLabel name <;> cases findLabel t name <;> simp [eq_comm]

/-! ### The labels of a list of records -/

theorem labelAt_append_singleton {xs : List Record} {r : Record} {name : Token} {k : Nat} :
    LabelAt (xs ++ [r]) name k ↔ LabelAt xs name k ∨ k = xs.length ∧ r.label = some name := by
  unfold LabelAt
  rcases Nat.lt_trichotomy k xs.length with hk | rfl | hk
  · simp [List.getElem?_append_left hk, hk.ne]
  · simp
  · simp [hk.ne', List.getElem?_eq_none (l := xs ++ [r]) (by simpa using hk), hk.le]

theorem labelAt_take {rs : List Record} {n : Nat} {name : Token} {k : Nat} :
    LabelAt (rs.take n) name k ↔ k < n ∧ LabelAt rs name k := by
  simp only [LabelAt, List.getElem?_take]
  split <;> simp [*]

theorem LabelAt.lt_length {rs : List Record} {name : Token} {k : Nat} (h : LabelAt rs name k) :
    k < rs.length := by
  obtain ⟨_, hr, _⟩ := h
  exact (List.getElem?_eq_some_iff.1 hr).1

/-- Labels are well-defined when each may be entered and none stands again further on. -/
theorem labelsWellDefined_of_lt {c : Config} {rs : List Record}
    (hvalid : ∀ r ∈ rs, ∀ l, r.label = some l → c.labelName = .loose ∨ validLabel l = true)
    (hdistinct : ∀ i j l, i < j → LabelAt rs l i → ¬ LabelAt rs l j) : LabelsWellDefined c rs := by
  refine ⟨hvalid, fun i j l hi hj => ?_⟩
  rcases Nat.lt_trichotomy i j with hij | hij | hij
  · exact absurd hj (hdistinct i j l hij hi)
  · exact hij
  · exact absurd hi (hdistinct j i l hij hj)

/-- Well-defined labels stay so without the last record, whose label may be entered and is a new one. -/
theorem labelsWellDefined_append_singleton {c : Config} {xs : List Record} {r : Record}
    (h : LabelsWellDefined c (xs ++ [r])) : LabelsWellDefined c xs ∧
      ∀ l, r.label = some l → (c.labelName = .loose ∨ validLabel l = true) ∧ ∀ k, ¬ LabelAt xs l k := by
  obtain ⟨hvalid, hdistinct⟩ := h
  simp only [labelAt_append_singleton] at hdistinct
  refine ⟨⟨fun q hq => hvalid q (by simp [hq]), fun i j l hi hj => hdistinct i j l (.inl hi) (.inl hj)⟩,
    fun l hl => ⟨hvalid r (by simp) l hl, fun k hk => ?_⟩⟩
  exact hk.lt_length.ne (hdistinct k xs.length l (.inl hk) (.inr ⟨rfl, hl⟩))

/-! ### Pass 1 (46_assembler.md R159) -/

/-- Pass 1 over two lists goes on, behind the first, from the table and the address reached. -/
theorem pass1_append (c : Config) (t : SymbolTable) (a : Nat) (xs ys : List Record) :
    pass1 c t a (xs ++ ys) = (pass1 c t a xs).bind fun t' => pass1 c t' (a + xs.length) ys := by
  induction xs generalizing t a with
  | nil => rfl
  | cons r xs ih =>
    have hlen : a + (r :: xs).length = a + 1 + xs.length := by simp; omega
    rw [List.cons_append, hlen, pass1, pass1]
    split
    · exact ih _ _
    · split
      · rfl
      · exact ih _ _

theorem pass1_eq_error_of_take {c : Config} {t : SymbolTable} {a n : Nat} {rs : List Record} {e : AsmStop}
    (h : pass1 c t a (rs.take n) = .error e) : pass1 c t a rs = .error e := by
  rw [← List.take_append_drop n rs, pass1_append, h]
  rfl

/-- Pass 1 over one more record defines its label, if it has one, at the index of the record. -/
theorem pass1_append_singleton_eq_ok {c : Config} {xs : List Record} {r : Record} {t : SymbolTable} :
    pass1 c initialTable 0 (xs ++ [r]) = .ok t ↔ ∃ t', pass1 c initialTable 0 xs = .ok t' ∧
      ((r.label = none ∧ t' = t) ∨ ∃ l, r.label = some l ∧ defineLabel c t' l xs.length = .ok t) := by
  rw [pass1_append]
  cases pass1 c initialTable 0 xs with
  | error e => simp [Except.bind]
  | ok t' =>
    cases hr : r.label with
    | none => simp [Except.bind, pass1, hr]
    | some l => cases hd : defineLabel c t' l xs.length <;> simp [Except.bind, pass1, hr, hd]

/-- After pass 1 the table finds exactly the labels of the records, at their indices. -/
theorem findLabel_pass1 {c : Config} {rs : List Record} {t : SymbolTable}
    (h : pass1 c initialTable 0 rs = .ok t) (name : Token) (k : Nat) :
    findLabel t name = some k ↔ LabelAt rs name k := by
  induction rs using List.reverseRecOn generalizing t with
  | nil =>
    cases h
    simp [LabelAt]
  | append_singleton xs r ih =>
    rw [labelAt_append_singleton]
    obtain ⟨t', hxs, ⟨hr, rfl⟩ | ⟨l, hr, hdefine⟩⟩ := pass1_append_singleton_eq_ok.1 h
    · simp [ih hxs, hr]
    · obtain ⟨-, habsent, rfl⟩ := defineLabel_eq_ok.1 hdefine
      rw [findLabel_append, ← ih hxs, hr]
      by_cases hl : l = name
      · subst hl
        simp [habsent, findLabel, eq_comm]
      · simp [findLabel, hl]

theorem pass1_ok_of_labelsWellDefined {c : Config} {rs : List Record} (h : LabelsWellDefined c rs) :
    ∃ t, pass1 c initialTable 0 rs = .ok t := by
  induction rs using List.reverseRecOn with
  | nil => exact ⟨initialTable, rfl⟩
  | append_singleton xs r ih =>
    obtain ⟨hxs, hnew⟩ := labelsWellDefined_append_singleton h
    obtain ⟨t, ht⟩ := ih hxs
    cases hr : r.label with
    | none => exact ⟨t, pass1_append_singleton_eq_ok.2 ⟨t, ht, .inl ⟨hr, rfl⟩⟩⟩
    | some l =>
      obtain ⟨hvalid, hfree⟩ := hnew l hr
      have habsent : findLabel t l = none :=
        Option.eq_none_iff_forall_ne_some.2 fun k hk => hfree k ((findLabel_pass1 ht l k).1 hk)
      exact ⟨_, pass1_append_singleton_eq_ok.2
        ⟨t, ht, .inr ⟨l, hr, defineLabel_eq_ok.2 ⟨hvalid, habsent, rfl⟩⟩⟩⟩

/-- Pass 1 reads of a record only its label. -/
theorem pass1_map_of_label_eq {f : Record → Record} (hf : ∀ r, (f r).label = r.label) (c : Config)
    (t : SymbolTable) (a : Nat) (rs : List Record) : pass1 c t a (rs.map f) = pass1 c t a rs := by
  induction rs generalizing t a with
  | nil => rfl
  | cons r rs ih => simp only [List.map_cons, pass1, hf, ih]

/-- Settles O51: success is `pass1_ok_of_labelsWellDefined`, the table is `findLabel_pass1`. -/
theorem passOneTable : Obligations.PassOneTable := by
  refine fun c rs => ⟨fun hvalid hdistinct => ?_, fun ops => ?_, fun t ht => ⟨?_, ?_⟩⟩
  · refine pass1_ok_of_labelsWellDefined (labelsWellDefined_of_lt hvalid ?_)
    rintro i j l hij ⟨ri, hi, hli⟩ ⟨rj, hj, hlj⟩
    exact hdistinct i j ri rj l hi hj hij hli hlj
  · exact pass1_map_of_label_eq (f := fun r => ⟨r.label, (ops r).1, (ops r).2⟩) (fun _ => rfl) c _ 0 rs
  · exact fun k r name hr hl => (findLabel_pass1 ht name k).2 ⟨r, hr, hl⟩
  · exact fun k name hk => (findLabel_pass1 ht name k).1 hk

/-! ### The failures of pass 1 (46_assembler.md R160) -/

/-- Pass 1 fails at a record it has read, for its label. -/
theorem pass1_eq_error {c : Config} {t : SymbolTable} {a : Nat} {rs : List Record} {s : AsmStop}
    (h : pass1 c t a rs = .error s) : ∃ e k, s = .error e k ∧ k < a + rs.length ∧
      (e = .duplicateLabel ∨ e = .invalidLabel) := by
  induction rs generalizing t a with
  | nil => cases h
  | cons r rs ih =>
    have hlen : a + (r :: rs).length = a + 1 + rs.length := by simp; omega
    rw [hlen]
    rw [pass1] at h
    split at h
    · exact ih h
    · split at h
      next e hdefine =>
        cases h
        refine ⟨e, a, rfl, by omega, ?_⟩
        rcases defineLabel_eq_error.1 hdefine with ⟨-, he⟩ | ⟨-, -, he⟩
        · exact .inr he
        · exact .inl he
      · exact ih h

theorem assemble_eq_error_of_pass1 {c : Config} {rs : List Record} {e : AsmStop}
    (h : pass1 c initialTable 0 rs = .error e) : assemble c rs = .error e := by
  rw [assemble, h]

/-- Two records with one label make pass 1 fail, at the later one or before it. -/
theorem pass1_eq_error_of_labelAt {c : Config} {rs : List Record} {i j : Nat} {name : Token}
    (hij : i < j) (hi : LabelAt rs name i) (hj : LabelAt rs name j) :
    ∃ e a, pass1 c initialTable 0 rs = .error (.error e a) ∧ a ≤ j ∧
      (e = .duplicateLabel ∨ e = .invalidLabel) := by
  cases h : pass1 c initialTable 0 (rs.take (j + 1)) with
  | ok t =>
    have hfind := fun k => findLabel_pass1 h name k
    have hfi := (hfind i).2 (labelAt_take.2 ⟨by omega, hi⟩)
    have hfj := (hfind j).2 (labelAt_take.2 ⟨by omega, hj⟩)
    rw [hfi] at hfj
    exact absurd (Option.some.inj hfj) hij.ne
  | error s =>
    obtain ⟨e, a, rfl, ha, he⟩ := pass1_eq_error h
    rw [List.length_take] at ha
    exact ⟨e, a, pass1_eq_error_of_take h, by omega, he⟩

/-- Where the labels before index `j` are well-defined, a valid label at `j` that one of them repeats is
the failure. -/
theorem pass1_eq_duplicateLabel {c : Config} {rs : List Record} {i j : Nat} {name : Token} (hij : i < j)
    (hbefore : LabelsWellDefined c (rs.take j)) (hvalid : validLabel name = true)
    (hi : LabelAt rs name i) (hj : LabelAt rs name j) :
    pass1 c initialTable 0 rs = .error (.error .duplicateLabel j) := by
  obtain ⟨t, ht⟩ := pass1_ok_of_labelsWellDefined hbefore
  have hfind : findLabel t name = some i := (findLabel_pass1 ht name i).2 (labelAt_take.2 ⟨hij, hi⟩)
  have hdefine : defineLabel c t name j = .error .duplicateLabel :=
    defineLabel_eq_error.2 (.inr ⟨.inr hvalid, by simp [hfind], rfl⟩)
  have hlen : 0 + (rs.take j).length = j := by simp [hj.lt_length.le]
  obtain ⟨r, hr, hl⟩ := hj
  apply pass1_eq_error_of_take (n := j + 1)
  rw [List.take_add_one, hr, Option.toList_some, pass1_append, ht, hlen]
  simp only [Except.bind, pass1, hl, hdefine]

/-- Settles O53: every repetition is a failure by `pass1_eq_error_of_labelAt`; before the earliest one the
labels are well-defined, so `pass1_eq_duplicateLabel` says which. -/
theorem duplicateLabelFails : Obligations.DuplicateLabelFails := by
  refine ⟨fun c rs e => assemble_eq_error_of_pass1,
    fun c rs i j ri rj name hri hrj hij hli hlj => ⟨?_, fun hvalid hfirst => ?_⟩⟩
  · obtain ⟨e, a, h, ha, he⟩ := pass1_eq_error_of_labelAt hij ⟨ri, hri, hli⟩ ⟨rj, hrj, hlj⟩
    exact ⟨e, a, assemble_eq_error_of_pass1 h, ha, he⟩
  · have hbefore : LabelsWellDefined c (rs.take j) := by
      refine labelsWellDefined_of_lt (fun r hr l hl => .inr (hvalid r (List.mem_of_mem_take hr) l hl))
        fun p q l hpq hp hq => ?_
      obtain ⟨-, rp, hrp, hlp⟩ := labelAt_take.1 hp
      obtain ⟨hqj, rq, hrq, hlq⟩ := labelAt_take.1 hq
      exact absurd (hfirst p q rp rq l hrp hrq hpq hlp hlq) (Nat.not_le_of_lt hqj)
    exact assemble_eq_error_of_pass1 (pass1_eq_duplicateLabel hij hbefore
      (hvalid rj (List.mem_of_getElem? hrj) name hlj) ⟨ri, hri, hli⟩ ⟨rj, hrj, hlj⟩)

/-! ### Register operands (46_assembler.md R168) -/

/-- The digit of a register is the character with code 48 plus its number. -/
theorem toNat_registerDigit : ∀ r : RegIdx, (Char.ofNat (48 + r.toNat)).toNat = 48 + r.toNat := by
  decide

theorem parseRegister_eq_ok {t : Token} {r : RegIdx} :
    parseRegister t = .ok r ↔ t = [Char.ofNat (48 + r.toNat)] := by
  have hr := r.isLt
  constructor
  · intro h
    unfold parseRegister at h
    split at h
    next ch =>
      split at h
      next hdigit =>
        cases h
        have hmod : (ch.toNat - 48) % 2 ^ 3 = ch.toNat - 48 := Nat.mod_eq_of_lt (by omega)
        rw [BitVec.toNat_ofNat, hmod, Nat.add_sub_cancel' hdigit.1, Char.ofNat_toNat]
      · cases h
    · cases h
  · rintro rfl
    rw [parseRegister, toNat_registerDigit, if_pos (by omega), Nat.add_sub_cancel_left]
    simp

/-- Whatever a string fails to be a register operand for, the error is `InvalidRegister`. -/
theorem parseRegister_eq_error {t : Token} {e : AsmReason} (h : parseRegister t = .error e) :
    e = .error .invalidRegister := by
  unfold parseRegister at h
  split at h
  · split at h <;> cases h
    rfl
  · cases h
    rfl

/-- Settles O55, from what `parseRegister` accepts and its only error. -/
theorem registerOperands : Obligations.RegisterOperands := by
  refine ⟨fun t r => parseRegister_eq_ok, fun t hno => ?_⟩
  cases h : parseRegister t with
  | ok r => exact absurd (parseRegister_eq_ok.1 h) (hno r)
  | error e => rw [parseRegister_eq_error h]

end Sys2Proof.Machine
end

section
/-! Proofs about the codec as a whole (30_encoding.md section 4): encode gives the word made of an
instruction's fields, and decode and encode undo each other up to the bits no field covers. -/

namespace Sys2Proof

/-! ### A word as the union of its fields (30_encoding.md R51 to R55) -/

/-- A field put back where it was read is the word without its other bits. -/
theorem place3_field3 (k : Nat) (w : Word) : place3 (field3 k w) k = w &&& place3 7#3 k := by
  have h7 (j : Nat) : (7#3).getLsbD j = decide (j < 3) := by
    rcases j with _ | _ | _ | j <;> simp [BitVec.getLsbD_of_ge]
  ext i hi
  simp only [place3, field3, BitVec.getElem_shiftLeft, BitVec.getElem_and, BitVec.getElem_setWidth,
    BitVec.getLsbD_extractLsb', h7]
  by_cases hk : i < k
  · simp [hk]
  · simp [hk, Nat.add_sub_cancel' (Nat.le_of_not_lt hk), BitVec.getLsbD_eq_getElem hi, Bool.and_comm]

theorem setWidth_offset16 (w : Word) : (offset16 w).setWidth 32 = w &&& 0xFFFF#32 := by
  refine BitVec.eq_of_toNat_eq ?_
  rw [BitVec.toNat_setWidth, offset16_toNat, BitVec.toNat_and]
  change w.toNat % 65536 % 2 ^ 32 = w.toNat &&& (2 ^ 16 - 1)
  rw [Nat.and_two_pow_sub_one_eq_mod]
  omega

theorem offset16_eq_setWidth (w : Word) : offset16 w = w.setWidth 16 :=
  BitVec.eq_of_toNat_eq (by rw [offset16_toNat, BitVec.toNat_setWidth])

theorem ofInt_toInt_offset16 (w : Word) : BitVec.ofInt 16 (offset16 w).toInt = offset16 w :=
  BitVec.ofInt_toInt

/-- The bits that encoding a decoded word keeps are those its format's fields cover (30_encoding.md R62). -/
theorem encode_decode (L : Layout) (w : Word) :
    encode L (decode L w) = w &&& fieldMask L (opcodeOf L w).format := by
  have hop : opcodePart L (opcodeOf L w) = w &&& place3 7#3 L.opLsb := by
    rw [opcodePart, opcodeOf, opcodeToBits_ofBits, opcodeBits, place3_field3]
  unfold decode
  cases h : opcodeOf L w <;> rw [h] at hop <;>
    simp only [encode, encodeR, encodeI, encodeJ, encodeO, hop, regA, regB, destReg, place3_field3,
      ofInt_toInt_offset16, setWidth_offset16, Opcode.format, fieldMask, BitVec.and_or_distrib_left,
      BitVec.or_assoc]

theorem unusedBitsClear_iff {L : Layout} {w : Word} :
    unusedBitsClear L w = true ↔ encode L (decode L w) = w := by
  rw [encode_decode, unusedBitsClear, beq_iff_eq]
  generalize fieldMask L (opcodeOf L w).format = m
  constructor
  · intro h
    rw [← BitVec.or_zero (x := w &&& m), ← h, ← BitVec.and_or_distrib_left, BitVec.or_not_self,
      BitVec.and_allOnes]
  · intro h
    rw [← h, BitVec.and_assoc, BitVec.and_not_self]
    exact BitVec.and_zero

/-! ### What the accessors read from an encoded word -/

section parts
variable {L : Layout} (h : L.admissible = true) (o : Opcode) (a b : RegIdx) (rest : Word)
include h

theorem regA_parts (hr : field3 L.raLsb rest = 0#3) :
    regA L (opcodePart L o ||| place3 a L.raLsb ||| place3 b L.rbLsb ||| rest) = a := by
  obtain ⟨h1, h2, h3, h4⟩ := (L.admissible_iff).1 h
  simp only [regA, field3_or, opcodePart, hr]
  rw [field3_place3_other _ _ _ (by omega), field3_place3 _ _ (by omega),
    field3_place3_other b _ _ (by omega)]
  simp

theorem regB_parts (hr : field3 L.rbLsb rest = 0#3) :
    regB L (opcodePart L o ||| place3 a L.raLsb ||| place3 b L.rbLsb ||| rest) = b := by
  obtain ⟨h1, h2, h3, h4⟩ := (L.admissible_iff).1 h
  simp only [regB, field3_or, opcodePart, hr]
  rw [field3_place3_other _ _ _ (by omega), field3_place3_other a _ _ (by omega),
    field3_place3 _ _ (by omega)]
  simp

/-- destReg lies below every other field of an R-type word. -/
theorem destReg_encodeR (d : RegIdx) : destReg (encodeR L o a b d) = d := by
  obtain ⟨h1, h2, h3, h4⟩ := (L.admissible_iff).1 h
  simp only [destReg, encodeR, field3_or, opcodePart]
  rw [field3_place3_other _ _ _ (by omega), field3_place3_other a _ _ (by omega),
    field3_place3_other b _ _ (by omega), field3_place3 _ _ (by omega)]
  simp

/-- The offset field lies below every other field of an I-type word. -/
theorem offset16_encodeI (off : Int) : offset16 (encodeI L o a b off) = BitVec.ofInt 16 off := by
  obtain ⟨h1, h2, h3, h4⟩ := (L.admissible_iff).1 h
  simp only [encodeI, offset16_or, opcodePart]
  rw [offset16_place3 _ _ (by omega), offset16_place3 a _ (by omega), offset16_place3 b _ h1,
    offset16_setWidth]
  simp

theorem registers_encodeR (d : RegIdx) :
    regA L (encodeR L o a b d) = a ∧ regB L (encodeR L o a b d) = b := by
  obtain ⟨h1, h2, h3, h4⟩ := (L.admissible_iff).1 h
  exact ⟨regA_parts h o a b _ (field3_place3_other _ _ _ (by omega)),
    regB_parts h o a b _ (field3_place3_other _ _ _ (by omega))⟩

theorem registers_encodeI (off : Int) :
    regA L (encodeI L o a b off) = a ∧ regB L (encodeI L o a b off) = b := by
  obtain ⟨h1, h2, h3, h4⟩ := (L.admissible_iff).1 h
  exact ⟨regA_parts h o a b _ (field3_offset _ _ (by omega)),
    regB_parts h o a b _ (field3_offset _ _ h1)⟩

theorem registers_encodeJ : regA L (encodeJ L o a b) = a ∧ regB L (encodeJ L o a b) = b := by
  have hA := regA_parts h o a b 0#32 (by simp [field3])
  have hB := regB_parts h o a b 0#32 (by simp [field3])
  rw [BitVec.or_zero] at hA hB
  exact ⟨hA, hB⟩

end parts

/-! ### Decode of encode (30_encoding.md section 4) -/

/-- The instruction with its offset, if it has one, reduced to the 16-bit field (30_encoding.md R67). -/
def Instr.wrapOffset : Instr → Instr
  | .lw a b off => .lw a b (BitVec.ofInt 16 off).toInt
  | .sw a b off => .sw a b (BitVec.ofInt 16 off).toInt
  | .beq a b off => .beq a b (BitVec.ofInt 16 off).toInt
  | i => i

theorem wrapOffset_of_wellFormed {i : Instr} (h : i.wellFormed = true) : i.wrapOffset = i := by
  cases i with
  | lw a b off | sw a b off | beq a b off => rw [Instr.wrapOffset, toInt_ofInt_of_offsetFits h]
  | _ => rfl

theorem encode_wrapOffset (L : Layout) (i : Instr) : encode L i.wrapOffset = encode L i := by
  cases i with
  | lw a b off | sw a b off | beq a b off =>
    simp only [Instr.wrapOffset, encode, encodeI, BitVec.ofInt_toInt]
  | _ => rfl

theorem decode_encode {L : Layout} (h : L.admissible = true) (i : Instr) :
    decode L (encode L i) = i.wrapOffset := by
  cases i with
  | add a b d | nor a b d =>
    simp only [decode, encode, opcodeOf_encodeR L h, registers_encodeR h, destReg_encodeR h,
      Instr.wrapOffset]
  | lw a b off | sw a b off | beq a b off =>
    simp only [decode, encode, opcodeOf_encodeI L h, registers_encodeI h, offset16_encodeI h,
      Instr.wrapOffset]
  | jalr a b => simp only [decode, encode, opcodeOf_encodeJ L h, registers_encodeJ h, Instr.wrapOffset]
  | halt | noop => simp only [decode, encode, opcodeOf_encodeO L h, Instr.wrapOffset]

theorem unusedBitsClear_encode {L : Layout} (h : L.admissible = true) (i : Instr) :
    unusedBitsClear L (encode L i) = true := by
  rw [unusedBitsClear_iff, decode_encode h, encode_wrapOffset]

/-! ### Encode over raw fields (30_encoding.md R60, R67) -/

@[simp] theorem registerFits_toNat (r : RegIdx) : registerFits r.toNat = true :=
  decide_eq_true (Nat.le_of_lt_succ r.isLt)

/-- Encode refuses of an instruction's fields only an offset out of range, and only under `reject`. -/
theorem encodeFields_fields (L : Layout) (p : OffsetRangePolicy) (i : Instr) :
    encodeFields L p i.fields =
      if p = .reject ∧ i.wellFormed = false then .error .offsetOutOfRange else .ok (encode L i) := by
  cases i with
  | lw a b off | sw a b off | beq a b off =>
    simp only [Instr.fields, encodeFields, registerFits_toNat, opcodeOfNumber, BitVec.ofNat_toNat,
      BitVec.setWidth_eq]
    rfl
  | _ =>
    simp [Instr.fields, Instr.wellFormed, encodeFields, opcodeOfFormat, encode, opcodeOfNumber,
      opcodeOfBits]

theorem exists_toNat_of_registerFits {r : Nat} (h : registerFits r = true) :
    ∃ q : RegIdx, q.toNat = r := by
  have hr : r ≤ 7 := of_decide_eq_true h
  exact ⟨BitVec.ofNat 3 r, by rw [BitVec.toNat_ofNat]; omega⟩

/-- A tuple that is the fields of an instruction: it meets the preconditions of encode, the offset range
apart (30_encoding.md R60). -/
def Fields.SpellsInstr (f : Fields) : Prop := ∃ i : Instr, i.fields = f

theorem spellsInstr_rType {op a b d : Nat} (hop : opcodeOfFormat .R op = true)
    (ha : registerFits a = true) (hb : registerFits b = true) (hd : registerFits d = true) :
    (Fields.rType op a b d).SpellsInstr := by
  obtain ⟨ra, rfl⟩ := exists_toNat_of_registerFits ha
  obtain ⟨rb, rfl⟩ := exists_toNat_of_registerFits hb
  obtain ⟨rd, rfl⟩ := exists_toNat_of_registerFits hd
  have hop : op = 0 ∨ op = 1 := by simp [opcodeOfFormat] at hop; omega
  rcases hop with rfl | rfl
  · exact ⟨.add ra rb rd, rfl⟩
  · exact ⟨.nor ra rb rd, rfl⟩

theorem spellsInstr_iType {op a b : Nat} (off : Int) (hop : opcodeOfFormat .I op = true)
    (ha : registerFits a = true) (hb : registerFits b = true) :
    (Fields.iType op a b off).SpellsInstr := by
  obtain ⟨ra, rfl⟩ := exists_toNat_of_registerFits ha
  obtain ⟨rb, rfl⟩ := exists_toNat_of_registerFits hb
  have hop : op = 2 ∨ op = 3 ∨ op = 4 := by simp [opcodeOfFormat] at hop; omega
  rcases hop with rfl | rfl | rfl
  · exact ⟨.lw ra rb off, rfl⟩
  · exact ⟨.sw ra rb off, rfl⟩
  · exact ⟨.beq ra rb off, rfl⟩

theorem spellsInstr_jType {op a b : Nat} (hop : opcodeOfFormat .J op = true)
    (ha : registerFits a = true) (hb : registerFits b = true) : (Fields.jType op a b).SpellsInstr := by
  obtain ⟨ra, rfl⟩ := exists_toNat_of_registerFits ha
  obtain ⟨rb, rfl⟩ := exists_toNat_of_registerFits hb
  obtain rfl : op = 5 := of_decide_eq_true hop
  exact ⟨.jalr ra rb, rfl⟩

theorem spellsInstr_oType {op : Nat} (hop : opcodeOfFormat .O op = true) :
    (Fields.oType op).SpellsInstr := by
  have hop : op = 6 ∨ op = 7 := by simpa [opcodeOfFormat] using hop
  rcases hop with rfl | rfl
  · exact ⟨.halt, rfl⟩
  · exact ⟨.noop, rfl⟩

/-- What encode accepts spells an instruction. -/
theorem spellsInstr_of_encodeFields {L : Layout} {p : OffsetRangePolicy} {f : Fields} {w : Word}
    (h : encodeFields L p f = .ok w) : f.SpellsInstr := by
  cases f with
  | rType op a b d =>
    simp only [encodeFields] at h
    split at h
    · cases h
    split at h
    · cases h
    simp_all [spellsInstr_rType]
  | iType op a b off =>
    simp only [encodeFields] at h
    split at h
    · cases h
    split at h
    · cases h
    simp_all [spellsInstr_iType]
  | jType op a b =>
    simp only [encodeFields] at h
    split at h
    · cases h
    split at h
    · cases h
    simp_all [spellsInstr_jType]
  | oType op =>
    simp only [encodeFields] at h
    split at h
    · cases h
    simp_all [spellsInstr_oType]

/-- A well-formed tuple spells an instruction. -/
theorem spellsInstr_of_wellFormed {f : Fields} (h : f.wellFormed = true) : f.SpellsInstr := by
  cases f <;> simp only [Fields.wellFormed, Bool.and_eq_true] at h
  case rType =>
    obtain ⟨⟨⟨hop, ha⟩, hb⟩, hd⟩ := h
    exact spellsInstr_rType hop ha hb hd
  case iType =>
    obtain ⟨⟨⟨hop, ha⟩, hb⟩, -⟩ := h
    exact spellsInstr_iType _ hop ha hb
  case jType =>
    obtain ⟨⟨hop, ha⟩, hb⟩ := h
    exact spellsInstr_jType hop ha hb
  case oType => exact spellsInstr_oType h

@[simp] theorem fields_wellFormed (i : Instr) : i.fields.wellFormed = i.wellFormed := by
  cases i <;> simp [Instr.fields, Fields.wellFormed, Instr.wellFormed, opcodeOfFormat]

/-- Under `reject` an I-type tuple with a bad offset only is refused for it (30_encoding.md R67). -/
theorem encodeFields_eq_offsetOutOfRange {L : Layout} {op a b : Nat} {off : Int}
    (h : (Fields.iType op a b 0).wellFormed = true) (hoff : offsetFits off = false) :
    encodeFields L .reject (.iType op a b off) = .error .offsetOutOfRange := by
  simp only [Fields.wellFormed, Bool.and_eq_true] at h
  obtain ⟨⟨⟨hop, ha⟩, hb⟩, -⟩ := h
  simp [encodeFields, hop, ha, hb, hoff]

/-- Under `wrap` no I-type tuple is refused for its offset (30_encoding.md R67). -/
theorem encodeFields_wrap_eq_ok {L : Layout} {op a b : Nat} {off : Int}
    (h : (Fields.iType op a b 0).wellFormed = true) :
    ∃ w, encodeFields L .wrap (.iType op a b off) = .ok w := by
  simp only [Fields.wellFormed, Bool.and_eq_true] at h
  obtain ⟨⟨⟨hop, ha⟩, hb⟩, -⟩ := h
  simp [encodeFields, hop, ha, hb]

theorem encodeFields_wrap_add_mul (L : Layout) (op a b : Nat) (off k : Int) :
    encodeFields L .wrap (.iType op a b (off + 65536 * k)) =
      encodeFields L .wrap (.iType op a b off) := by
  have hoff : BitVec.ofInt 16 (off + 65536 * k) = BitVec.ofInt 16 off := by
    refine BitVec.eq_of_toInt_eq ?_
    rw [BitVec.toInt_ofInt, BitVec.toInt_ofInt]
    exact Int.add_mul_bmod_self_left off (2 ^ 16) k
  simp only [encodeFields, encodeI, hoff, reduceCtorEq, false_and]

/-- The word of an accepted tuple is the word of the instruction it spells. -/
theorem exists_encode_of_encodeFields {L : Layout} {p : OffsetRangePolicy} {f : Fields} {w : Word}
    (h : encodeFields L p f = .ok w) :
    ∃ i : Instr, i.fields = f ∧ (p = .reject → i.wellFormed = true) ∧ encode L i = w := by
  obtain ⟨i, rfl⟩ := spellsInstr_of_encodeFields h
  rw [encodeFields_fields] at h
  split at h
  · cases h
  next hwf =>
    exact ⟨i, rfl, fun hp => by simpa [hp] using hwf, Except.ok.inj h⟩

theorem encodeFields_of_wellFormed (L : Layout) (p : OffsetRangePolicy) {i : Instr}
    (h : i.wellFormed = true) : encodeFields L p i.fields = .ok (encode L i) := by
  rw [encodeFields_fields, if_neg (by simp [h])]

theorem encodeFields_decodeFields (L : Layout) (p : OffsetRangePolicy) (w : Word) :
    encodeFields L p (decodeFields L w) = .ok (encode L (decode L w)) := by
  rw [← fields_decode, encodeFields_of_wellFormed L p (decode_wellFormed L w)]

/-! ### The opcode field and the top bit (30_encoding.md R63, R64) -/

theorem field3_and (k : Nat) (u v : Word) : field3 k (u &&& v) = field3 k u &&& field3 k v := by
  ext i hi; simp [field3]

theorem field3_zero (k : Nat) : field3 k 0#32 = 0#3 := by simp [field3]

theorem field3_allOnes {k : Nat} (h : k + 3 ≤ 32) : field3 k 0xFFFFFFFF#32 = 7#3 := by
  change field3 k (BitVec.allOnes 32) = BitVec.allOnes 3
  ext i hi
  simp only [field3, BitVec.getElem_extractLsb', BitVec.getLsbD_allOnes, BitVec.getElem_allOnes,
    decide_eq_true_eq]
  omega

/-- Every format covers the opcode field. -/
theorem opcodeOf_and_fieldMask {L : Layout} (h : L.admissible = true) (w : Word) (f : Format) :
    opcodeOf L (w &&& fieldMask L f) = opcodeOf L w := by
  obtain ⟨h1, h2, h3, h4⟩ := (L.admissible_iff).1 h
  have hop : field3 L.opLsb (place3 7#3 L.opLsb) = BitVec.allOnes 3 := field3_place3 _ _ (by omega)
  have hmask : field3 L.opLsb (fieldMask L f) = BitVec.allOnes 3 := by
    cases f <;> simp only [fieldMask, field3_or, hop, BitVec.allOnes_or]
  rw [opcodeOf, opcodeBits, field3_and, hmask, BitVec.and_allOnes]
  rfl

theorem place3_getLsbD_31 (v : BitVec 3) {k : Nat} (h : k + 3 ≤ 31) :
    (place3 v k).getLsbD 31 = false := by
  have hge : v.getLsbD (31 - k) = false := BitVec.getLsbD_of_ge _ _ (by omega)
  simp [place3, hge]

/-- No field reaches bit 31. -/
theorem fieldMask_getLsbD_31 {L : Layout} (h : L.admissible = true) (f : Format) :
    (fieldMask L f).getLsbD 31 = false := by
  obtain ⟨h1, h2, h3, h4⟩ := (L.admissible_iff).1 h
  have hop := place3_getLsbD_31 7#3 (show L.opLsb + 3 ≤ 31 by omega)
  have ha := place3_getLsbD_31 7#3 (show L.raLsb + 3 ≤ 31 by omega)
  have hb := place3_getLsbD_31 7#3 (show L.rbLsb + 3 ≤ 31 by omega)
  have hd := place3_getLsbD_31 7#3 (show 0 + 3 ≤ 31 by omega)
  have hoff : (0xFFFF#32).getLsbD 31 = false := rfl
  cases f <;> simp only [fieldMask, BitVec.getLsbD_or, hop, ha, hb, hd, hoff, Bool.or_self]

theorem s32_nonneg_of_unusedBitsClear {L : Layout} (h : L.admissible = true) {w : Word}
    (hw : unusedBitsClear L w = true) : 0 ≤ w.s32 := by
  rw [unusedBitsClear_iff, encode_decode] at hw
  have hmsb : w.msb = false := by
    rw [← hw, BitVec.msb_eq_getLsbD_last, BitVec.getLsbD_and, fieldMask_getLsbD_31 h, Bool.and_false]
  rw [Word.s32, BitVec.toInt_eq_toNat_of_msb hmsb]
  exact Int.natCast_nonneg _

theorem decode_zero (L : Layout) : decode L 0#32 = .add 0 0 0 := by
  simp [decode, opcodeOf, opcodeBits, opcodeOfBits, regA, regB, destReg, field3_zero]

theorem decode_allOnes {L : Layout} (h : L.admissible = true) : decode L 0xFFFFFFFF#32 = .noop := by
  obtain ⟨h1, h2, h3, h4⟩ := (L.admissible_iff).1 h
  simp [decode, opcodeOf, opcodeBits, opcodeOfBits, field3_allOnes (show L.opLsb + 3 ≤ 32 by omega)]

theorem noopWord_ne_allOnes {L : Layout} (h : L.admissible = true) : noopWord L ≠ 0xFFFFFFFF#32 := by
  intro heq
  have hnonneg := s32_nonneg_of_unusedBitsClear h (unusedBitsClear_encode h .noop)
  rw [← noopWord, heq] at hnonneg
  exact absurd hnonneg (by decide)

/-! ### The obligations -/

/-- Settles O3, from `decode_encode`, `encode_decode` and the instruction an accepted tuple spells; the word
of all ones decodes as the canonical no-op does. -/
theorem codecRoundTrips : Obligations.CodecRoundTrips := by
  intro L hL
  have hword (p : OffsetRangePolicy) (w : Word) :
      encodeFields L p (decodeFields L w) = .ok w ↔ unusedBitsClear L w = true := by
    rw [encodeFields_decodeFields, unusedBitsClear_iff, Except.ok.injEq]
  have hclear {p : OffsetRangePolicy} {f : Fields} {w : Word} (h : encodeFields L p f = .ok w) :
      encodeFields L p (decodeFields L w) = .ok w := by
    obtain ⟨i, -, -, rfl⟩ := exists_encode_of_encodeFields h
    exact (hword p _).2 (unusedBitsClear_encode hL i)
  refine ⟨fun p f hf => ?_, hword, fun hinj => ?_, fun p f g u v hf hg huv => ?_⟩
  · obtain ⟨i, rfl⟩ := spellsInstr_of_wellFormed hf
    rw [fields_wellFormed] at hf
    refine ⟨encode L i, encodeFields_of_wellFormed L p hf, ?_⟩
    rw [← fields_decode, decode_encode hL, wrapOffset_of_wellFormed hf]
  · refine noopWord_ne_allOnes hL (hinj ?_)
    rw [← fields_decode, ← fields_decode, decode_noopWord L hL, decode_allOnes hL]
  · have hu := hclear hf
    rw [huv, hclear hg] at hu
    exact (Except.ok.inj hu).symm

/-- Settles O4: a well-formed instruction's offset is its own 16-bit reading. -/
theorem decodeOfEncode : Obligations.DecodeOfEncode := by
  intro L i hL hi
  refine ⟨?_, fun p => encodeFields_of_wellFormed L p hi⟩
  rw [decode_encode hL, wrapOffset_of_wellFormed hi]

/-- Settles O5: acceptance through the instruction a tuple spells, the word's shape by
`unusedBitsClear_encode`. -/
theorem encodePreconditions : Obligations.EncodePreconditions := by
  intro L hL
  refine ⟨fun f => ⟨?_, fun hf => ?_⟩, fun op a b off => encodeFields_eq_offsetOutOfRange,
    encodeFields_wrap_add_mul L, fun op a b off => encodeFields_wrap_eq_ok, fun p f w h => ?_⟩
  · rintro ⟨w, hw⟩
    obtain ⟨i, rfl, hi, -⟩ := exists_encode_of_encodeFields hw
    rw [fields_wellFormed, hi rfl]
  · obtain ⟨i, rfl⟩ := spellsInstr_of_wellFormed hf
    rw [fields_wellFormed] at hf
    exact ⟨_, encodeFields_of_wellFormed L .reject hf⟩
  · obtain ⟨i, -, -, rfl⟩ := exists_encode_of_encodeFields h
    have hclear := unusedBitsClear_encode hL i
    exact ⟨s32_nonneg_of_unusedBitsClear hL hclear, hclear⟩

/-- Settles O6: words that agree on the fields have one opcode, so they have one canonical word, and that
decodes as they do. -/
theorem unusedBitsDoNotDecode : Obligations.UnusedBitsDoNotDecode := by
  intro L v w hL hvw
  have hop : opcodeOf L v = opcodeOf L w := by
    rw [← opcodeOf_and_fieldMask hL v (opcodeOf L w).format, hvw, opcodeOf_and_fieldMask hL]
  have hencode : encode L (decode L v) = encode L (decode L w) := by
    rw [encode_decode, encode_decode, hop, hvw]
  have hround (u : Word) : decode L (encode L (decode L u)) = decode L u := by
    rw [decode_encode hL, wrapOffset_of_wellFormed (decode_wellFormed L u)]
  rw [← hround v, hencode, hround w]

/-- Settles O1, by running the decoder on the nine words. -/
theorem specWordsDecode : Obligations.SpecWordsDecode := by
  refine ⟨?_, ?_, ?_, ?_, ?_, ?_, ?_, ?_, ?_⟩ <;> decide

/-- Settles O7, from what the opcode field of each word reads. -/
theorem distinguishedWords : Obligations.DistinguishedWords := by
  intro L hL
  have hhalt : decode L (haltWord L) = .halt := decode_encode hL .halt
  exact ⟨decode_noopWord L hL, rfl, hhalt, rfl, decode_zero L, decode_allOnes hL⟩

end Sys2Proof
end

section
/-! Proofs about instructions executed alone (40_alu.md to 43_system.md): `exec` as the stages applied to one
instruction, what it gives, where it faults and what it leaves unchanged. -/

namespace Sys2Proof.Machine

/-! ### `exec` in terms of the stages -/

/-- The registers an instruction's regA and regB fields name, and its offset operand; 0 where it has none. -/
def operandsOf : Instr → RegIdx × RegIdx × Word
  | .add a b _ => (a, b, 0#32)
  | .nor a b _ => (a, b, 0#32)
  | .lw a b off => (a, b, offsetOperand off)
  | .sw a b off => (a, b, offsetOperand off)
  | .beq a b off => (a, b, offsetOperand off)
  | .jalr a b => (a, b, 0#32)
  | .halt => (0#3, 0#3, 0#32)
  | .noop => (0#3, 0#3, 0#32)

/-- What execute hands to the memory stage for an instruction executed alone. -/
def executeAlone (i : Instr) (s : State) : ExMem :=
  let (a, b, off) := operandsOf i
  { instr := encode s.cfg.layout i
    branchTarget := branchTargetOf (s.pc + 1) off
    aluResult := aluResultOf i (s.x a) (s.x b) off
    readRegB := s.x b }

/-- The state after an instruction whose memory stage gave `m` and whose writeback gave `g`. -/
def retire (i : Instr) (s : State) (m : MemResult) (g : Vector Word 8) : State :=
  { s with
    regs := g
    dmem := m.dmem
    pc := m.branch.getD (s.pc + 1)
    status := if i.opcode = .halt then .halted else s.status }

/-- The stages applied to one instruction executed alone. -/
def execStages (i : Instr) (s : State) : Except Fault State :=
  match memoryOf i s.cfg s.dmem (executeAlone i s) with
  | .error f => .error f
  | .ok m =>
    match writeBack s.cfg s.regs (encode s.cfg.layout i) (writeRequestOf i m.writeData) with
    | .error f => .error f
    | .ok g => .ok (retire i s m g)

/-- A register write of an instruction without a memory access, as writeback and retirement. -/
theorem finishRegister_eq {i : Instr} (hi : i.opcode ≠ .halt) (s : State) (w : Word) (rd : RegIdx)
    (v : Word) : finishRegister s w rd v =
      match writeBack s.cfg s.regs w (some (rd, v)) with
      | .error f => .error f
      | .ok g => .ok (retire i s ⟨v, s.dmem, none⟩ g) := by
  unfold finishRegister retire
  rw [if_neg hi]
  cases writeBack s.cfg s.regs w (some (rd, v)) <;> rfl

/-- Executing an instruction alone is passing it through the stages (log entry 5 of the model's notes). -/
theorem exec_eq_execStages (i : Instr) (s : State) : exec i s = outcomeOf (execStages i s) := by
  cases i with
  | add a b d => exact congrArg outcomeOf (finishRegister_eq (i := .add a b d) nofun s _ d _)
  | nor a b d => exact congrArg outcomeOf (finishRegister_eq (i := .nor a b d) nofun s _ d _)
  | lw a b off =>
    simp only [exec, execLw, execStages, memoryOf, executeAlone, operandsOf, aluResultOf, lwMemory,
      finishRegister_eq (i := .lw a b off) nofun]
    cases memRead s.cfg s.dmem (effectiveAddress (s.x a) (offsetOperand off)) <;> rfl
  | sw a b off =>
    simp only [exec, execSw, execStages, memoryOf, executeAlone, operandsOf, aluResultOf, swMemory]
    cases memWrite s.cfg s.dmem (effectiveAddress (s.x a) (offsetOperand off)) (s.x b) <;> rfl
  | beq a b off =>
    have hexecute : executeAlone (.beq a b off) s = ⟨encode s.cfg.layout (.beq a b off),
      branchTargetOf (s.pc + 1) (offsetOperand off), beqAlu (s.x a) (s.x b), s.x b⟩ := rfl
    simp only [exec, execBeq, execStages, hexecute, memoryOf, beqMemory]
    cases comparisonEqual (beqAlu (s.x a) (s.x b)) <;> rfl
  | jalr | halt | noop => rfl

/-- Everything an instruction executed alone can do when it gives a next state. -/
theorem exec_eq_next {i : Instr} {s t : State} : exec i s = .next t ↔
    ∃ m g, memoryOf i s.cfg s.dmem (executeAlone i s) = .ok m ∧
      writeBack s.cfg s.regs (encode s.cfg.layout i) (writeRequestOf i m.writeData) = .ok g ∧
      retire i s m g = t := by
  rw [exec_eq_execStages, outcomeOf_eq_next, execStages]
  cases memoryOf i s.cfg s.dmem (executeAlone i s) with
  | error f => simp
  | ok m =>
    cases h : writeBack s.cfg s.regs (encode s.cfg.layout i) (writeRequestOf i m.writeData) <;> simp [h]

/-- An instruction executed alone faults in its memory stage, or in its writeback. -/
theorem exec_eq_fault {i : Instr} {s : State} {f : Fault} : exec i s = .fault f ↔
    memoryOf i s.cfg s.dmem (executeAlone i s) = .error f ∨
    ∃ m, memoryOf i s.cfg s.dmem (executeAlone i s) = .ok m ∧
      writeBack s.cfg s.regs (encode s.cfg.layout i) (writeRequestOf i m.writeData) = .error f := by
  rw [exec_eq_execStages, outcomeOf_eq_fault, execStages]
  cases memoryOf i s.cfg s.dmem (executeAlone i s) with
  | error f => simp
  | ok m =>
    cases h : writeBack s.cfg s.regs (encode s.cfg.layout i) (writeRequestOf i m.writeData) <;> simp [h]

theorem outcomeOf_ne_refused (r : Except Fault State) (q : Refusal) : outcomeOf r ≠ .refused q := by
  cases r <;> nofun

theorem exec_ne_refused (i : Instr) (s : State) (q : Refusal) : exec i s ≠ .refused q := by
  rw [exec_eq_execStages]
  exact outcomeOf_ne_refused _ q

/-! ### Writeback by the register written (44_pipeline.md R108) -/

/-- The write an instruction asks for is of the register it writes. -/
theorem writeRequestOf_eq (i : Instr) (v : Word) :
    writeRequestOf i v = (writesRegOf i).map fun r => (r, v) := by
  cases i <;> rfl

section writeBack
variable {c : Config} {g g' : Vector Word 8} {w v : Word} {i : Instr}

/-- What the registers read as after an instruction's writeback. -/
theorem readReg_writeBack (h : writeBack c g w (writeRequestOf i v) = .ok g') (r : RegIdx) :
    readReg g' r = if writesRegOf i = some r ∧ r ≠ 0#3 then v else readReg g r := by
  rw [writeRequestOf_eq] at h
  cases hi : writesRegOf i with
  | none =>
    rw [hi, Option.map_none, writeBack_none] at h
    rw [Except.ok.inj h, if_neg nofun]
  | some q =>
    rw [hi, Option.map_some, writeBack_some] at h
    rw [readReg_writeReg h]
    by_cases hr : r = q
    · simp [hr]
    · rw [if_neg fun ⟨hq, _⟩ => hr hq, if_neg fun ⟨hq, _⟩ => hr (Option.some.inj hq).symm]

/-- An instruction's writeback faults exactly as a write to register 0 under `fatal`. -/
theorem writeBack_eq_error {f : Fault} : writeBack c g w (writeRequestOf i v) = .error f ↔
    writesRegOf i = some 0#3 ∧ c.r0Write = .fatal ∧ .writeToRegisterZero w = f := by
  rw [writeRequestOf_eq]
  cases writesRegOf i with
  | none => simp
  | some r => rw [Option.map_some, writeBack_some, writeReg_eq_error, Option.some.injEq]

/-- Whether a writeback completes does not depend on the registers, the word or the value. -/
theorem exists_writeBack_eq_ok : (∃ g', writeBack c g w (writeRequestOf i v) = .ok g') ↔
    ¬ (writesRegOf i = some 0#3 ∧ c.r0Write = .fatal) := by
  cases h : writeBack c g w (writeRequestOf i v) with
  | ok g' =>
    exact iff_of_true ⟨g', rfl⟩ fun ⟨h0, hf⟩ =>
      nomatch h.symm.trans (writeBack_eq_error.2 ⟨h0, hf, rfl⟩)
  | error f =>
    obtain ⟨h0, hf, -⟩ := writeBack_eq_error.1 h
    exact iff_of_false nofun (not_not_intro ⟨h0, hf⟩)

end writeBack

/-! ### Results and faults -/

/-- An instruction that ends in a register write completes with it. -/
theorem exists_finishRegister {s : State} {w : Word} {rd : RegIdx} {v : Word}
    (h : rd ≠ 0#3 ∨ s.cfg.r0Write = .ignore) :
    ∃ t, outcomeOf (finishRegister s w rd v) = .next t ∧
      (∀ r, t.x r = if r = rd ∧ r ≠ 0#3 then v else s.x r) ∧
      t = { s with regs := t.regs, pc := s.pc + 1#32 } := by
  obtain ⟨g, hg⟩ := writeReg_total s.cfg s.regs w rd v h
  refine ⟨{ s with regs := g, pc := s.pc + 1 }, outcomeOf_eq_next.2 (finishRegister_eq_ok.2 ⟨g, hg, rfl⟩),
    fun r => ?_, rfl⟩
  rw [State.x, readReg_writeReg hg]
  by_cases hr : r = rd
  · simp only [hr, State.x]
  · rw [if_neg fun ⟨hq, _⟩ => hr hq, if_neg fun ⟨hq, _⟩ => hr hq, State.x]

/-- Settles O37: both instructions end in one register write. -/
theorem aluResults : Obligations.AluResults :=
  fun _ _ _ _ h => ⟨exists_finishRegister h, exists_finishRegister h⟩

/-- Settles O38: the load answers the word at its address, and its register write completes. -/
theorem loadResult : Obligations.LoadResult := by
  intro ra rb off s h haddr
  have hload := lwMemory_eq_ok (m := s.dmem).2 ⟨(inBounds_iff _ _).2 haddr, rfl⟩
  have hexec : exec (.lw ra rb off) s = outcomeOf (finishRegister s (encode s.cfg.layout (.lw ra rb off)) rb
      (s.dmem.read (addressIndex (s.x ra + BitVec.ofInt 32 off)))) := by
    rw [exec, execLw, effectiveAddress, offsetOperand, hload]
  rw [hexec]
  exact exists_finishRegister h

/-- Settles O39, by the rules of a write to a canonical memory. -/
theorem storeResult : Obligations.StoreResult := by
  intro ra rb off s hwf haddr
  have hstore := swMemory_eq_ok (m := s.dmem) (v := s.x rb).2 ⟨(inBounds_iff _ _).2 haddr, rfl⟩
  refine ⟨_, by rw [exec, execSw, effectiveAddress, offsetOperand, hstore]; rfl, fun a => ?_, ?_, rfl⟩
  · exact read_write _ _ a _ hwf
  · exact write_wf _ _ _ hwf

/-- `OutOfBoundsMemory` of an instruction executed alone is its own load's or store's. -/
theorem exec_eq_outOfBoundsMemory {i : Instr} {s : State} {a : Word} :
    exec i s = .fault (.outOfBoundsMemory a) ↔ accessesMemory i = true ∧
      ¬ ValidAddress s.cfg (executeAlone i s).aluResult ∧ (executeAlone i s).aluResult = a := by
  simp only [exec_eq_fault, memoryOf_eq_error, writeBack_eq_error, inBounds_false_iff, reduceCtorEq,
    and_false, exists_false, or_false, Fault.outOfBoundsMemory.injEq]

/-- Settles O40, from `exec_eq_outOfBoundsMemory`. -/
theorem loadStoreFaults : Obligations.LoadStoreFaults := by
  intro ra rb off s
  rw [exec_eq_outOfBoundsMemory, exec_eq_outOfBoundsMemory]
  exact ⟨⟨fun h => ⟨rfl, h, rfl⟩, fun ⟨_, h, _⟩ => h⟩, ⟨fun h => ⟨rfl, h, rfl⟩, fun ⟨_, h, _⟩ => h⟩⟩

/-- Settles O41, from the one fault of a register write. -/
theorem registerZeroWriteFaults : Obligations.RegisterZeroWriteFaults := by
  intro ra rb off s hfatal
  have hfault (w v : Word) : outcomeOf (finishRegister s w 0#3 v) = .fault (.writeToRegisterZero w) :=
    outcomeOf_eq_fault.2 (finishRegister_eq_error.2 ⟨rfl, hfatal, rfl⟩)
  refine ⟨hfault _ _, hfault _ _, fun haddr => ?_⟩
  have hload := lwMemory_eq_ok (m := s.dmem).2 ⟨(inBounds_iff _ _).2 haddr, rfl⟩
  rw [exec, execLw, effectiveAddress, offsetOperand, hload]
  exact hfault _ _

theorem exec_beq (ra rb : RegIdx) (off : Int) (s : State) : exec (.beq ra rb off) s =
    .next { s with pc := if s.x ra = s.x rb then s.pc + 1#32 + BitVec.ofInt 32 off else s.pc + 1#32 } := by
  simp only [exec, execBeq, beqAlu_equal]
  split <;> rfl

/-- Settles O42, from `exec_beq`; a register's word equals itself. -/
theorem branchResult : Obligations.BranchResult := by
  refine fun ra rb off s => ⟨exec_beq ra rb off s, ?_⟩
  rw [exec_beq, if_pos rfl]

/-- Settles O43: the three meanings are these states. -/
theorem jalrHaltNoopResults : Obligations.JalrHaltNoopResults := fun _ _ _ => ⟨rfl, rfl, rfl⟩

/-! ### Frames -/

/-- An instruction but `sw` leaves data memory as it is. -/
theorem memoryOf_dmem {i : Instr} {c : Config} {d : Memory} {l : ExMem} {m : MemResult}
    (h : memoryOf i c d l = .ok m) (hi : i.opcode ≠ .sw) : m.dmem = d := by
  rcases memoryOf_eq_ok.1 h with ⟨-, -, rfl⟩ | ⟨hsw, -, -⟩ | ⟨-, rfl⟩ | ⟨-, -, rfl⟩
  · rfl
  · exact absurd hsw hi
  · rfl
  · rfl

theorem eq_halt_of_opcode {i : Instr} (h : i.opcode = .halt) : i = .halt := by
  cases i with
  | halt => rfl
  | _ => cases h

/-- Settles O44: of the state, `retire` changes the registers as writeback does, data memory as the memory
stage does, pc and the status. -/
theorem frameOfNonStoring : Obligations.FrameOfNonStoring := by
  intro i s t hi h
  obtain ⟨m, g, hm, hg, rfl⟩ := exec_eq_next.1 h
  refine ⟨fun a => ?_, fun _ => rfl, fun r hr => ?_, rfl, rfl, rfl, rfl, rfl, rfl, rfl, rfl, fun hne => ?_⟩
  · exact congrArg (·.read a) (memoryOf_dmem hm hi)
  · exact (readReg_writeBack hg r).trans (if_neg fun ⟨hw, _⟩ => hr hw)
  · have hop : i.opcode ≠ .halt := by cases i <;> first | exact absurd rfl hne | nofun
    exact if_neg hop

/-- Settles O45: `sw` gives the written memory, and `retire` the rest. -/
theorem frameOfStore : Obligations.FrameOfStore := by
  intro ra rb off s t hwf h
  obtain ⟨m, g, hm, hg, rfl⟩ := exec_eq_next.1 h
  obtain ⟨-, rfl⟩ := swMemory_eq_ok.1 hm
  obtain rfl := Except.ok.inj hg
  exact ⟨fun a ha => read_write_other _ _ hwf ha, fun _ => rfl, fun _ => rfl, rfl, rfl, rfl, rfl, rfl, rfl,
    rfl, rfl⟩

end Sys2Proof.Machine
end

section
/-! Proofs about one cycle of the pipeline (44_pipeline.md sections 2 and 3): when each stage completes, what
the next state holds, and what a cycle does not depend on. -/

namespace Sys2Proof.Machine

/-! ### When a stage completes (60_exceptions.md section 1) -/

theorem executeRejects_iff {c : Config} {w : Word} : executeRejects c w = true ↔
    c.unusedBits = .fatal ∧ highBitsClear c.layout w = false := by
  unfold executeRejects
  cases c.unusedBits <;> simp

theorem executeRejects_of_ignore {c : Config} (h : c.unusedBits = .ignore) (w : Word) :
    executeRejects c w = false := by
  rw [executeRejects, h]

theorem highBitsClear_iff {L : Layout} {w : Word} :
    highBitsClear L w = true ↔ w.toNat / 2 ^ (L.opLsb + 3) = 0 := by
  rw [highBitsClear, beq_iff_eq, ← BitVec.toNat_inj, BitVec.toNat_ushiftRight, Nat.shiftRight_eq_div_pow,
    BitVec.toNat_zero]

section complete
variable {s : State}

theorem exists_fetchStage : (∃ f, fetchStage s = .ok f) ↔ ValidAddress s.cfg s.pc := by
  simp [fetchStage_eq_ok, inBounds_iff]

theorem exists_executeStage :
    (∃ e, executeStage s = .ok e) ↔ executeRejects s.cfg s.idex.instr = false := by
  simp [executeStage_eq_ok]

theorem exists_memoryStage : (∃ m, memoryStage s = .ok m) ↔
    ¬ ((opcodeOf s.cfg.layout s.exmem.instr = .lw ∨ opcodeOf s.cfg.layout s.exmem.instr = .sw) ∧
      ¬ ValidAddress s.cfg s.exmem.aluResult) := by
  cases h : memoryStage s with
  | ok m => exact iff_of_true ⟨m, rfl⟩ fun ⟨hop, haddr⟩ => haddr (validAddress_of_memoryStage h hop)
  | error q =>
    obtain ⟨hop, haddr, -⟩ := memoryStage_eq_error.1 h
    exact iff_of_false nofun (not_not_intro ⟨hop, (inBounds_false_iff _ _).1 haddr⟩)

/-- A cycle completes exactly when its four faulting stages do. -/
theorem exists_cycle : (∃ n, cycle s = .ok n) ↔ (∃ f, fetchStage s = .ok f) ∧
    (∃ e, executeStage s = .ok e) ∧ (∃ m, memoryStage s = .ok m) ∧ ∃ g, writebackStage s = .ok g := by
  constructor
  · rintro ⟨n, h⟩
    obtain ⟨f, e, m, g, hf, he, hm, hg, -⟩ := cycle_eq_ok.1 h
    exact ⟨⟨f, hf⟩, ⟨e, he⟩, ⟨m, hm⟩, g, hg⟩
  · rintro ⟨⟨f, hf⟩, ⟨e, he⟩, ⟨m, hm⟩, g, hg⟩
    exact ⟨_, cycle_eq_ok.2 ⟨f, e, m, g, hf, he, hm, hg, rfl⟩⟩

end complete

/-! ### The register a decoded instruction writes (44_pipeline.md R108) -/

section writes
variable {L : Layout} {w : Word}

theorem writesRegOf_decode_of_alu (h : opcodeOf L w = .add ∨ opcodeOf L w = .nor) :
    writesRegOf (decode L w) = some (destReg w) := by
  rcases h with h | h <;> simp [decode, h, writesRegOf]

theorem writesRegOf_decode_of_lw (h : opcodeOf L w = .lw) :
    writesRegOf (decode L w) = some (regB L w) := by
  simp [decode, h, writesRegOf]

theorem writesRegOf_decode_eq_none (hadd : opcodeOf L w ≠ .add) (hnor : opcodeOf L w ≠ .nor)
    (hlw : opcodeOf L w ≠ .lw) : writesRegOf (decode L w) = none := by
  cases h : opcodeOf L w with
  | add => exact absurd h hadd
  | nor => exact absurd h hnor
  | lw => exact absurd h hlw
  | _ => simp [decode, h, writesRegOf]

theorem writesRegOf_decode_eq_some {r : RegIdx} : writesRegOf (decode L w) = some r ↔
    (opcodeOf L w = .add ∨ opcodeOf L w = .nor) ∧ destReg w = r ∨ opcodeOf L w = .lw ∧ regB L w = r := by
  cases h : opcodeOf L w <;> simp [decode, h, writesRegOf]

end writes

theorem writebackStage_eq_error {s : State} {q : Fault} : writebackStage s = .error q ↔
    writesRegOf (decode s.cfg.layout s.memwb.instr) = some 0#3 ∧ s.cfg.r0Write = .fatal ∧
      .writeToRegisterZero s.memwb.instr = q :=
  writeBack_eq_error

theorem exists_writebackStage {s : State} : (∃ g, writebackStage s = .ok g) ↔
    ¬ (writesRegOf (decode s.cfg.layout s.memwb.instr) = some 0#3 ∧ s.cfg.r0Write = .fatal) :=
  exists_writeBack_eq_ok

/-! ### What a completed cycle holds -/

theorem cycle_of_step {s n : State} (hc : Cycling s) (h : step s = .next n) : cycle s = .ok n :=
  (step_next_of_running hc.1 hc.2).1 h

section fields
variable {s n : State} (h : cycle s = .ok n)
include h

theorem validAddress_of_cycle : ValidAddress s.cfg s.pc := by
  obtain ⟨hf, -⟩ := exists_cycle.1 ⟨n, h⟩
  exact exists_fetchStage.1 hf

theorem writebackStage_of_cycle : writebackStage s = .ok n.regs := by
  obtain ⟨f, e, m, g, -, -, -, hg, rfl⟩ := cycle_eq_ok.1 h
  simpa using hg

/-- The registers of the next state are those writeback leaves. -/
theorem cycle_x (r : RegIdx) : n.x r =
    if writesRegOf (decode s.cfg.layout s.memwb.instr) = some r ∧ r ≠ 0#3 then s.memwb.writeData
    else s.x r :=
  readReg_writeBack (writebackStage_of_cycle h) r

theorem cycle_dmem : n.dmem = if opcodeOf s.cfg.layout s.exmem.instr = .sw
    then s.dmem.write (addressIndex s.exmem.aluResult) s.exmem.readRegB else s.dmem := by
  obtain ⟨m, hm, -, hd⟩ := memoryStage_of_cycle h
  rw [hd, memoryStage_dmem hm]

theorem cycle_memwb : n.memwb = ⟨s.exmem.instr, if opcodeOf s.cfg.layout s.exmem.instr = .lw
    then s.dmem.read (addressIndex s.exmem.aluResult) else s.exmem.aluResult⟩ := by
  obtain ⟨m, hm, hmemwb, -⟩ := memoryStage_of_cycle h
  rw [hmemwb, memoryStage_writeData hm]

end fields

/-- What a cycle that resolves no taken branch does to the latches, pc and the rest: every instruction moves
on by one stage. -/
structure Advances (s n : State) : Prop where
  cfg : n.cfg = s.cfg
  imem : n.imem = s.imem
  status : n.status = s.status
  cycleCount : n.cycleCount = s.cycleCount + 1
  pc : n.pc = s.pc + 1#32
  ifid : n.ifid = ⟨s.imem.read (addressIndex s.pc), s.pc + 1#32⟩
  idex : n.idex = decodeStage s
  exmem : n.exmem = ⟨s.idex.instr, s.idex.pcPlus1 + s.idex.offset,
    aluResultOf (s.decodes s.idex.instr) s.idex.readRegA s.idex.readRegB s.idex.offset, s.idex.readRegB⟩
  memwb_instr : n.memwb.instr = s.exmem.instr
  wbend : n.wbend = ⟨s.memwb.instr, s.memwb.writeData⟩

theorem advances_of_cycle {s n : State} (h : cycle s = .ok n) (hb : ¬ TakesBranch s) : Advances s n := by
  obtain ⟨hcfg, himem, hstatus, hcount, hmemwb, hwbend⟩ := cycle_fields h
  obtain ⟨hifid, hidex, hexecute⟩ := cycle_latches_of_not_takesBranch h hb
  obtain ⟨-, hexmem⟩ := executeStage_eq_ok.1 hexecute
  exact ⟨hcfg, himem, hstatus, hcount, by rw [cycle_pc h, if_neg hb], hifid, hidex, hexmem.symm, hmemwb,
    hwbend⟩

theorem advances_of_step {s n : State} (hc : Cycling s) (hb : ¬ TakesBranch s) (h : step s = .next n) :
    Advances s n :=
  advances_of_cycle (cycle_of_step hc h) hb

/-! ### The stages of a cycle (44_pipeline.md section 2) -/

/-- Settles O15: the fault is `outOfBoundsExactly`, the latch is that of `Advances`. -/
theorem fetchStage_spec : Obligations.FetchStage := by
  intro s hc
  obtain ⟨hfault, -⟩ := outOfBoundsExactly
  refine ⟨hfault s hc, fun n h => ⟨validAddress_of_cycle (cycle_of_step hc h), fun hb => ?_⟩⟩
  have ha := advances_of_step hc hb h
  rw [ha.ifid, ha.pc]
  exact ⟨rfl, rfl, rfl⟩

/-- Settles O16: the latch is what `decodeStage` reads, and register 0 reads 0. -/
theorem decodeStage_spec : Obligations.DecodeStage := by
  intro s n hc h hb
  rw [(advances_of_step hc hb h).idex]
  refine ⟨rfl, rfl, rfl, rfl, fun h0 => ?_, fun h0 => ?_, ?_⟩
  · rw [decodeStage, h0, x_zero]
  · rw [decodeStage, h0, x_zero]
  · rw [decodeStage, offsetWord, sext16, offset16_eq_setWidth]

/-- Settles O17: execute rejects a word with a high bit set, and its result follows the opcode. -/
theorem executeStage_spec : Obligations.ExecuteStage := by
  intro s hc
  refine ⟨fun hpc hfatal hbits => ?_, fun n h hb => ?_⟩
  · have hreject : executeRejects s.cfg s.idex.instr = true :=
      executeRejects_iff.2 ⟨hfatal, by rw [← Bool.not_eq_true, highBitsClear_iff]; exact hbits⟩
    exact (step_fault_of_running hc.1 hc.2).2 (cycle_eq_error.2
      (.inr ⟨exists_fetchStage.2 hpc, .inl (executeStage_eq_error.2 ⟨hreject, rfl⟩)⟩))
  · rw [(advances_of_step hc hb h).exmem]
    refine ⟨rfl, rfl, rfl, ?_⟩
    cases hop : opcodeOf s.cfg.layout s.idex.instr <;>
      simp only [State.decodes, decode, hop, aluResultOf] <;> rfl

/-- Settles O19: the two cases of `TakesBranch`. -/
theorem takenBranchSquashes : Obligations.TakenBranchSquashes := by
  intro s n hc h
  have hcycle := cycle_of_step hc h
  refine ⟨fun hb => ?_, fun hb => ?_⟩
  · obtain ⟨hifid, hidex, hexmem⟩ := cycle_latches_of_takesBranch hcycle hb
    obtain ⟨-, -, -, -, hmemwb, hwbend⟩ := cycle_fields hcycle
    rw [cycle_pc hcycle, if_pos hb, hifid, hidex, hexmem, hmemwb, hwbend]
    exact ⟨rfl, rfl, rfl, rfl, rfl, rfl⟩
  · have ha := advances_of_cycle hcycle hb
    rw [ha.pc, ha.ifid, ha.idex, ha.exmem, ha.memwb_instr, ha.wbend]
    exact ⟨rfl, rfl, rfl, rfl, rfl, rfl⟩

/-- Settles O20: the squashed latches, and what the memory stage of a `beq` passes on. -/
theorem squashedLatchContent : Obligations.SquashedLatchContent := by
  intro s n hc hb h
  have hcycle := cycle_of_step hc h
  obtain ⟨hifid, hidex, hexmem⟩ := cycle_latches_of_takesBranch hcycle hb
  obtain ⟨-, himem, -, hcount, -, hwbend⟩ := cycle_fields hcycle
  obtain ⟨hop, hz⟩ := hb
  refine ⟨hifid, hidex, hexmem, ?_, hwbend, ?_, himem, hcount⟩
  · rw [cycle_memwb hcycle, hop, if_neg nofun, hz]
  · rw [cycle_dmem hcycle, hop, if_neg nofun]

/-- Settles O21: the register file is `cycle_x`, and the fault is the stage's when no earlier one faults. -/
theorem writebackStage_spec : Obligations.WritebackStage := by
  intro s hc w L
  refine ⟨fun n h => ?_, fun hfatal hpc hexecute hmemory hzero => ?_⟩
  · have hx := cycle_x (cycle_of_step hc h)
    refine ⟨fun hop r => ?_, fun hop r => ?_, fun hadd hnor hlw r => ?_, fun hb => ?_⟩
    · rw [hx, writesRegOf_decode_of_alu hop]
      simp only [Option.some.injEq, eq_comm, w]
    · rw [hx, writesRegOf_decode_of_lw hop]
      simp only [Option.some.injEq, eq_comm, w, L]
    · rw [hx, writesRegOf_decode_eq_none hadd hnor hlw, if_neg nofun]
    · rw [(advances_of_step hc hb h).idex]
      exact ⟨rfl, rfl⟩
  · refine (step_fault_of_running hc.1 hc.2).2 (cycle_eq_error.2 (.inr ⟨exists_fetchStage.2 hpc,
      .inr ⟨exists_executeStage.2 hexecute, .inr ⟨exists_memoryStage.2 ?_, ?_⟩⟩⟩))
    · exact fun ⟨hop, haddr⟩ => haddr (hmemory hop)
    · exact writebackStage_eq_error.2 ⟨writesRegOf_decode_eq_some.2 hzero, hfatal, rfl⟩

/-- Settles O24: `exists_cycle` and `cycle_eq_error`, with what makes each stage fault. -/
theorem faultPriorityAndCompletion : Obligations.FaultPriorityAndCompletion := by
  intro s hc L fetchFaults executeFaults memoryFaults writebackFaults
  have hfault {q : Fault} (h : cycle s = .error q) : step s = .fault q :=
    (step_fault_of_running hc.1 hc.2).2 h
  have hexecute (h : ¬ executeFaults) : ∃ e, executeStage s = .ok e :=
    exists_executeStage.2 (by rw [← Bool.not_eq_true, executeRejects_iff]; exact h)
  refine ⟨fun hf => ?_, fun hf he => ?_, fun hf he hm => ?_, fun hf he hm hw => ?_, fun hf he hm hw => ?_⟩
  · exact hfault (cycle_eq_error.2 (.inl (fetchStage_eq_error.2 ⟨(inBounds_false_iff _ _).2 hf, rfl⟩)))
  all_goals have hfetch := exists_fetchStage.2 (not_not.1 hf)
  · exact hfault (cycle_eq_error.2 (.inr
      ⟨hfetch, .inl (executeStage_eq_error.2 ⟨executeRejects_iff.2 he, rfl⟩)⟩))
  · obtain ⟨hop, haddr⟩ := hm
    exact hfault (cycle_eq_error.2 (.inr ⟨hfetch, .inr ⟨hexecute he,
      .inl (memoryStage_eq_error.2 ⟨hop, (inBounds_false_iff _ _).2 haddr, rfl⟩)⟩⟩))
  · obtain ⟨hfatal, hzero⟩ := hw
    exact hfault (cycle_eq_error.2 (.inr ⟨hfetch, .inr ⟨hexecute he, .inr ⟨exists_memoryStage.2 hm,
      writebackStage_eq_error.2 ⟨writesRegOf_decode_eq_some.2 hzero, hfatal, rfl⟩⟩⟩⟩))
  · have hwriteback : ∃ g, writebackStage s = .ok g :=
      exists_writebackStage.2 fun ⟨hzero, hfatal⟩ => hw ⟨hfatal, writesRegOf_decode_eq_some.1 hzero⟩
    obtain ⟨n, hn⟩ := exists_cycle.2 ⟨hfetch, hexecute he, exists_memoryStage.2 hm, hwriteback⟩
    exact ⟨n, (step_next_of_running hc.1 hc.2).2 hn⟩

/-! ### Which faults occur (60_exceptions.md section 1) -/

/-- A step faults with the fault of a cycle, or with the one the machine has stopped with. -/
theorem step_eq_fault {s : State} {q : Fault} (h : step s = .fault q) :
    cycle s = .error q ∨ s.status = .faulted q := by
  unfold step driverStep at h
  split at h
  · split at h
    · cases h
    · exact .inl (outcomeOf_eq_fault.1 h)
  · cases h
  next hs =>
    cases h
    exact .inr hs

theorem step_ne_refused (s : State) (r : Refusal) : step s ≠ .refused r := by
  intro h
  unfold step driverStep at h
  split at h
  · split at h
    · cases h
    · exact outcomeOf_ne_refused _ r h
  · cases h
  · cases h

/-- Every fault a cycle can raise: out of bounds, an unrecognised opcode or a write to register 0, each of the
last two under its own policy only. -/
theorem cycle_error_cases {s : State} {q : Fault} (h : cycle s = .error q) :
    (∃ a, q = .outOfBoundsMemory a) ∨ (s.cfg.unusedBits = .fatal ∧ ∃ w, q = .unrecognizedOpcode w) ∨
      (s.cfg.r0Write = .fatal ∧ ∃ w, q = .writeToRegisterZero w) := by
  rcases cycle_eq_error.1 h with hf | ⟨-, he | ⟨-, hm | ⟨-, hw⟩⟩⟩
  · obtain ⟨-, rfl⟩ := fetchStage_eq_error.1 hf
    exact .inl ⟨_, rfl⟩
  · obtain ⟨hreject, rfl⟩ := executeStage_eq_error.1 he
    obtain ⟨hfatal, -⟩ := executeRejects_iff.1 hreject
    exact .inr (.inl ⟨hfatal, _, rfl⟩)
  · obtain ⟨-, -, rfl⟩ := memoryStage_eq_error.1 hm
    exact .inl ⟨_, rfl⟩
  · obtain ⟨-, hfatal, rfl⟩ := writebackStage_eq_error.1 hw
    exact .inr (.inr ⟨hfatal, _, rfl⟩)

/-- Settles O26, from the faults a cycle can raise. -/
theorem unreachableFaults : Obligations.UnreachableFaults := by
  intro s hs
  have hcases {q : Fault} (h : step s = .fault q) :=
    cycle_error_cases ((step_eq_fault h).resolve_right (hs q))
  refine ⟨step_ne_refused s, fun k h => ?_, fun hignore w h => ?_, fun hignore w h => ?_⟩
  · obtain ⟨_, hq⟩ | ⟨-, _, hq⟩ | ⟨-, _, hq⟩ := hcases h <;> cases hq
  · obtain ⟨_, hq⟩ | ⟨hfatal, -⟩ | ⟨-, _, hq⟩ := hcases h
    · cases hq
    · cases hignore.symm.trans hfatal
    · cases hq
  · obtain ⟨_, hq⟩ | ⟨-, _, hq⟩ | ⟨hfatal, -⟩ := hcases h
    · cases hq
    · cases hq
    · cases hignore.symm.trans hfatal

/-! ### What a cycle does not depend on -/

/-- Settles O23: every stage reads the same from a state with another WBEND. -/
theorem wbEndIsTraceOnly : Obligations.WbEndIsTraceOnly := by
  intro s n b hc h
  obtain ⟨f, e, m, g, hf, he, hm, hg, rfl⟩ := cycle_eq_ok.1 (cycle_of_step hc h)
  refine ⟨by simp, ?_⟩
  rw [step_next_of_running (s := { s with wbend := b }) hc.1 hc.2]
  exact cycle_eq_ok.2 ⟨f, e, m, g, hf, he, hm, hg, rfl⟩

/-- Settles O31: fetch, execute and memory answer the same, writeback completes again and leaves alone what
it left alone. -/
theorem registersReadOnlyByDecode : Obligations.RegistersReadOnlyByDecode := by
  intro s n g hc h
  have hcycle := cycle_of_step hc h
  obtain ⟨f, e, m, g1, hf, he, hm, hg, rfl⟩ := cycle_eq_ok.1 hcycle
  have hwriteback : ∃ g', writebackStage { s with regs := g } = .ok g' :=
    exists_writebackStage.2 (exists_writebackStage (s := s).1 ⟨g1, hg⟩)
  obtain ⟨g', hg'⟩ := hwriteback
  have hcycle' : cycle { s with regs := g } = .ok (applyBranch (latchOutputs { s with regs := g } f e m g')
      m.branch) := cycle_eq_ok.2 ⟨f, e, m, g', hf, he, hm, hg', rfl⟩
  refine ⟨_, (step_next_of_running (s := { s with regs := g }) hc.1 hc.2).2 hcycle', ?_, ?_, fun r => ?_⟩
  · cases m.branch <;> rfl
  · cases m.branch <;> exact ⟨rfl, rfl, rfl⟩
  · rw [cycle_x hcycle, cycle_x hcycle']
    split
    · exact .inl rfl
    · exact .inr ⟨rfl, rfl⟩

/-- Settles O32: without a load or a store the memory stage passes data memory on. -/
theorem dataMemoryTouchedOnlyByLwSw : Obligations.DataMemoryTouchedOnlyByLwSw := by
  intro s n d hc h hlw hsw
  have hcycle := cycle_of_step hc h
  refine ⟨by rw [cycle_dmem hcycle, if_neg hsw], ?_⟩
  obtain ⟨f, e, m, g, hf, he, hm, hg, rfl⟩ := cycle_eq_ok.1 hcycle
  have hm' : memoryStage { s with dmem := d } = .ok { m with dmem := d } := by
    rcases memoryStage_eq_ok.1 hm with ⟨hop, -⟩ | ⟨hop, -⟩ | ⟨hop, rfl⟩ | ⟨-, hop, rfl⟩
    · exact absurd hop hlw
    · exact absurd hop hsw
    · exact memoryStage_eq_ok.2 (.inr (.inr (.inl ⟨hop, rfl⟩)))
    · exact memoryStage_eq_ok.2 (.inr (.inr (.inr ⟨⟨hlw, hsw⟩, hop, rfl⟩)))
  rw [step_next_of_running (s := { s with dmem := d }) hc.1 hc.2]
  refine cycle_eq_ok.2 ⟨f, e, _, g, hf, he, hm', hg, ?_⟩
  change applyBranch _ m.branch = _
  cases m.branch <;> rfl

end Sys2Proof.Machine
end

section
/-! Proofs about several steps and about runs under fuel (44_pipeline.md sections 4 and 5,
70_reset_and_hazards.md section 2): the end of a run, and instructions that follow each other through the
stages. -/

namespace Sys2Proof.Machine

/-! ### The end of a run (44_pipeline.md R112, R113) -/

theorem haltDetected_iff {s : State} :
    haltDetected s = true ↔ opcodeOf s.cfg.layout s.memwb.instr = .halt := by
  simp [haltDetected]

theorem haltDetected_eq_false_iff {s : State} :
    haltDetected s = false ↔ opcodeOf s.cfg.layout s.memwb.instr ≠ .halt := by
  rw [← Bool.not_eq_true, haltDetected_iff]

theorem step_of_halt {s : State} (hs : s.status = .running) (hh : haltDetected s = true) :
    step s = .next s.stopHalted := by
  simp [step, driverStep, hs, hh]

theorem step_of_halted {s : State} (hs : s.status = .halted) : step s = .next s := by
  simp [step, driverStep, hs]

theorem steps_of_halted {s : State} (hs : s.status = .halted) (k : Nat) : steps k s = .next s := by
  induction k with
  | zero => rfl
  | succ k ih => rw [steps, step_of_halted hs]; exact ih

theorem steps_succ_of_next {s n : State} (h : step s = .next n) (k : Nat) :
    steps (k + 1) s = steps k n := by
  rw [steps, h]

theorem steps_succ_eq_next {s n : State} {k : Nat} :
    steps (k + 1) s = .next n ↔ ∃ t, step s = .next t ∧ steps k t = .next n := by
  rw [steps]
  cases step s <;> simp

theorem steps_add_of_next {j : Nat} {s n : State} (h : steps j s = .next n) (k : Nat) :
    steps (j + k) s = steps k n := by
  induction j generalizing s with
  | zero => cases h; rw [Nat.zero_add]
  | succ j ih =>
    obtain ⟨t, ht, hj⟩ := steps_succ_eq_next.1 h
    rw [Nat.add_right_comm, steps_succ_of_next ht, ih hj]

/-- A run takes the step of a cycle and goes on. -/
theorem run_succ_of_step {s n : State} (hc : Cycling s) (h : step s = .next n) (k : Nat) :
    run (k + 1) s = run k n :=
  run_succ_of_ok hc.1 hc.2 (cycle_of_step hc h) k

/-- Settles O27: the detecting step halts the machine, and a halted one stays as it is. -/
theorem haltEndsRun : Obligations.HaltEndsRun := by
  intro s hs hop
  have hh := haltDetected_iff.2 hop
  have hstep := step_of_halt hs hh
  refine ⟨hstep, fun k => ?_, fun k => run_succ_of_halt hs hh k, rfl⟩
  rw [steps_succ_of_next hstep, steps_of_halted (stopHalted_status s)]
  rfl

/-- Settles O28: the faulting cycle is the run's first. -/
theorem faultEndsRun : Obligations.FaultEndsRun := by
  intro s f hc h
  have hcycle := (step_fault_of_running hc.1 hc.2).1 h
  exact ⟨fun k => run_succ_of_error hc.1 hc.2 hcycle k, fun k => by rw [steps, h], rfl, rfl⟩

/-- A run that has ended is the same with more fuel. -/
theorem run_of_le {s : State} {k j : Nat} (hk : (run k s).status ≠ .running) (hkj : k ≤ j) :
    run j s = run k s := by
  induction k generalizing s j with
  | zero => exact run_of_not_running hk j
  | succ k ih =>
    obtain ⟨j, rfl⟩ := Nat.exists_eq_add_of_lt hkj
    by_cases hs : s.status = .running
    case neg => rw [run_of_not_running hs, run_of_not_running hs]
    case pos =>
      cases hh : haltDetected s with
      | true => rw [run_succ_of_halt hs hh, run_succ_of_halt hs hh]
      | false =>
        cases hcycle : cycle s with
        | error q => rw [run_succ_of_error hs hh hcycle, run_succ_of_error hs hh hcycle]
        | ok n =>
          rw [run_succ_of_ok hs hh hcycle] at hk
          rw [run_succ_of_ok hs hh hcycle, run_succ_of_ok hs hh hcycle]
          exact ih hk (by omega)

/-- Settles O29: of two amounts of fuel that end a run, the smaller one's state is both's. -/
theorem haltedRunIsSafe : Obligations.HaltedRunIsSafe := by
  intro s k hk
  have hmore (j : Nat) (hkj : k ≤ j) : run j s = run k s := run_of_le (by rw [hk]; nofun) hkj
  refine ⟨fun j f hj => ?_, hmore⟩
  have hless : run (max j k) s = run j s := run_of_le (by rw [hj]; nofun) (le_max_left j k)
  rw [hmore _ (le_max_right j k)] at hless
  rw [hless, hj] at hk
  cases hk

/-! ### A cycle between two others -/

/-- Of a cycle's next state, a `halt` is detected exactly when one is in EXMEM. -/
theorem cycling_of_cycle {s n : State} (hs : s.status = .running) (h : cycle s = .ok n)
    (hop : opcodeOf s.cfg.layout s.exmem.instr ≠ .halt) : Cycling n := by
  obtain ⟨hcfg, -, hstatus, -, hmemwb, -⟩ := cycle_fields h
  exact ⟨hstatus.trans hs, haltDetected_eq_false_iff.2 (by rwa [hcfg, hmemwb])⟩

theorem not_takesBranch_of_opcode {s : State} (h : opcodeOf s.cfg.layout s.exmem.instr ≠ .beq) :
    ¬ TakesBranch s :=
  fun hb => h hb.1

/-- Settles O33: decode reads the register file of its own step, which writeback changes for the next. -/
theorem staleReadWithoutForwarding : Obligations.StaleReadWithoutForwarding := by
  intro s n m r hs hbs hstep hn hbn hstep' hr hw hA hA'
  have hread : n.x r = s.memwb.writeData := by
    rw [cycle_x (cycle_of_step hs hstep), if_pos ⟨hw, hr⟩]
  have hsn := advances_of_step hs hbs hstep
  have hnm := advances_of_step hn hbn hstep'
  refine ⟨?_, hread, ?_⟩
  · rw [hsn.idex, decodeStage, hA]
  · rw [hnm.idex, decodeStage, hsn.cfg, hA', hread]

/-- Settles O34: the store is in data memory when the load reads there. -/
theorem storeThenLoadSeesStore : Obligations.StoreThenLoadSeesStore := by
  intro s n m hs hwf hsw hlw haddr hstep hstep'
  have hcycle := cycle_of_step hs hstep
  have hsn := advances_of_cycle hcycle (not_takesBranch_of_opcode (by rw [hsw]; nofun))
  have hn : Cycling n := cycling_of_cycle hs.1 hcycle (by rw [hsw]; nofun)
  have hdmem : n.dmem = s.dmem.write (addressIndex s.exmem.aluResult) s.exmem.readRegB := by
    rw [cycle_dmem hcycle, if_pos hsw]
  have halu : n.exmem.aluResult = s.exmem.aluResult := by
    rw [hsn.exmem, State.decodes, decode, hlw]
    exact haddr
  have hload : opcodeOf n.cfg.layout n.exmem.instr = .lw := by rw [hsn.cfg, hsn.exmem, hlw]
  rw [cycle_memwb (cycle_of_step hn hstep'), if_pos hload, hdmem, halu, read_write_same _ _ _ hwf]

/-! ### Behind a taken branch (44_pipeline.md R105, R116) -/

/-- A running state whose MEMWB holds neither a `halt` nor a register write and whose EXMEM holds a no-op. -/
structure QuietBack (s : State) : Prop where
  status : s.status = .running
  memwb_ne_halt : opcodeOf s.cfg.layout s.memwb.instr ≠ .halt
  memwb_writes : writesRegOf (decode s.cfg.layout s.memwb.instr) = none
  exmem : opcodeOf s.cfg.layout s.exmem.instr = .noop

/-- The next cycle of such a state takes no branch, writes neither a register nor data memory, and ends with
no `halt` detected. -/
theorem QuietBack.step {s n : State} (hq : QuietBack s) (h : step s = .next n) :
    Advances s n ∧ n.regs = s.regs ∧ n.dmem = s.dmem ∧ Cycling n := by
  have hcycle := cycle_of_step ⟨hq.status, haltDetected_eq_false_iff.2 hq.memwb_ne_halt⟩ h
  refine ⟨advances_of_cycle hcycle (not_takesBranch_of_opcode (by rw [hq.exmem]; nofun)), ?_, ?_,
    cycling_of_cycle hq.status hcycle (by rw [hq.exmem]; nofun)⟩
  · have hg := writebackStage_of_cycle hcycle
    rw [writebackStage, writeRequestOf_eq, State.decodes, hq.memwb_writes] at hg
    exact (Except.ok.inj hg).symm
  · rw [cycle_dmem hcycle, hq.exmem, if_neg nofun]

/-- With a no-op in IDEX as well, the next state's back is quiet again. -/
theorem QuietBack.next {s n : State} (hq : QuietBack s) (h : Machine.step s = .next n)
    (hidex : opcodeOf s.cfg.layout s.idex.instr = .noop) : QuietBack n := by
  obtain ⟨ha, -, -, hn⟩ := hq.step h
  refine ⟨hn.1, haltDetected_eq_false_iff.1 hn.2, ?_, by rw [ha.cfg, ha.exmem, hidex]⟩
  rw [ha.cfg, ha.memwb_instr, decode, hq.exmem]
  rfl

/-- The state after a squash has a quiet back. -/
theorem quietBack_of_takesBranch {s n : State} (hs : s.status = .running)
    (hL : s.cfg.layout.admissible = true) (hb : TakesBranch s) (h : cycle s = .ok n) : QuietBack n := by
  obtain ⟨hcfg, -, hstatus, -, hmemwb, -⟩ := cycle_fields h
  obtain ⟨-, -, hexmem⟩ := cycle_latches_of_takesBranch h hb
  refine ⟨hstatus.trans hs, ?_, ?_, ?_⟩
  · rw [hcfg, hmemwb, hb.1]; nofun
  · rw [hcfg, hmemwb, decode, hb.1]; rfl
  · rw [hcfg, hexmem]; exact opcodeOf_noopWord _ hL

/-- Settles O35: in each of the three cycles behind the squash the back of the pipeline is quiet, since the
three squashed latches hold no-ops. -/
theorem takenBranchCostsThreeCycles : Obligations.TakenBranchCostsThreeCycles := by
  intro s n hs hL hb hstep m hsteps
  obtain ⟨n1, h1, hsteps⟩ := steps_succ_eq_next.1 hsteps
  obtain ⟨n2, h2, hsteps⟩ := steps_succ_eq_next.1 hsteps
  obtain ⟨_, h3, hsteps⟩ := steps_succ_eq_next.1 hsteps
  cases hsteps
  have hcycle := cycle_of_step hs hstep
  have hnoop := opcodeOf_noopWord s.cfg.layout hL
  obtain ⟨hcfg, himem, -, -, -, -⟩ := cycle_fields hcycle
  obtain ⟨hifid, hidex, -⟩ := cycle_latches_of_takesBranch hcycle hb
  have hpc : n.pc = s.exmem.branchTarget := by rw [cycle_pc hcycle, if_pos hb]
  have hq := quietBack_of_takesBranch hs.1 hL hb hcycle
  obtain ⟨ha1, hregs1, hdmem1, -⟩ := hq.step h1
  have hq1 : QuietBack n1 := hq.next h1 (by rw [hcfg, hidex]; exact hnoop)
  obtain ⟨ha2, hregs2, hdmem2, -⟩ := hq1.step h2
  have hq2 : QuietBack n2 := hq1.next h2 (by rw [ha1.cfg, hcfg, ha1.idex, decodeStage, hifid]; exact hnoop)
  obtain ⟨ha3, hregs3, hdmem3, hm⟩ := hq2.step h3
  refine ⟨by rw [hregs3, hregs2, hregs1], by rw [hdmem3, hdmem2, hdmem1], ?_, ?_, hm, ?_⟩
  · rw [ha3.cycleCount, ha2.cycleCount, ha1.cycleCount]
  · rw [ha3.pc, ha2.pc, ha1.pc, hpc, BitVec.add_assoc, BitVec.add_assoc]
    rfl
  · rw [ha3.exmem, ha2.idex, decodeStage, ha1.ifid, hpc, himem]
    rfl

/-! ### Stage occupancy (44_pipeline.md R114, R115) -/

/-- Adding 1 to a word address does not wrap where the sum is an address again. -/
theorem addressIndex_add_one {a : Word} (h0 : 0 ≤ a.s32) (h1 : 0 ≤ (a + 1#32).s32) :
    addressIndex (a + 1#32) = addressIndex a + 1 := by
  simp only [Word.s32, addressIndex, BitVec.toInt_eq_toNat_cond, BitVec.toNat_add, BitVec.toNat_ofNat] at *
  omega

/-- Settles O36: each of the four steps moves every instruction on by one stage. -/
theorem stageOccupancy : Obligations.StageOccupancy := by
  intro s s1 s2 s3 s4 hc hb h1 hc1 hb1 h2 hc2 hb2 h3 hc3 hb3 h4 h w
  have ha1 := advances_of_step hc hb h1
  have ha2 := advances_of_step hc1 hb1 h2
  have ha3 := advances_of_step hc2 hb2 h3
  have ha4 := advances_of_step hc3 hb3 h4
  obtain ⟨hv, -⟩ := validAddress_of_cycle (cycle_of_step hc h1)
  obtain ⟨hv1, -⟩ := validAddress_of_cycle (cycle_of_step hc1 h2)
  obtain ⟨hv2, -⟩ := validAddress_of_cycle (cycle_of_step hc2 h3)
  obtain ⟨hv3, -⟩ := validAddress_of_cycle (cycle_of_step hc3 h4)
  rw [ha1.pc] at hv1
  rw [ha2.pc, ha1.pc] at hv2
  rw [ha3.pc, ha2.pc, ha1.pc] at hv3
  have hi1 : addressIndex s1.pc = h + 1 := by rw [ha1.pc, addressIndex_add_one hv hv1]; rfl
  have hi2 : addressIndex s2.pc = h + 2 := by rw [ha2.pc, ha1.pc, addressIndex_add_one hv1 hv2, ← ha1.pc, hi1]
  have hi3 : addressIndex s3.pc = h + 3 := by
    rw [ha3.pc, ha2.pc, ha1.pc, addressIndex_add_one hv2 hv3, ← ha1.pc, ← ha2.pc, hi2]
  have hw4 : s4.memwb.instr = w := by
    rw [ha4.memwb_instr, ha3.exmem, ha2.idex, decodeStage, ha1.ifid]; rfl
  refine ⟨?_, ?_, ?_, hw4, ?_, ?_, ?_, ?_, ?_, ?_, fun hhalt k => ?_, fun hhalt s5 h5 => ?_⟩
  · rw [ha1.ifid]; rfl
  · rw [ha2.idex, decodeStage, ha1.ifid]; rfl
  · rw [ha3.exmem, ha2.idex, decodeStage, ha1.ifid]; rfl
  · rw [ha4.wbend, ha3.memwb_instr, ha2.exmem, ha1.idex, decodeStage]
  · rw [ha4.exmem, ha3.idex, decodeStage, ha2.ifid, hi1, ha1.imem]
  · rw [ha4.idex, decodeStage, ha3.ifid, hi2, ha2.imem, ha1.imem]
  · rw [ha4.ifid, hi3, ha3.imem, ha2.imem, ha1.imem]
  · rw [ha4.pc, ha3.pc, ha2.pc, ha1.pc, BitVec.add_assoc, BitVec.add_assoc, BitVec.add_assoc]; rfl
  · rw [ha4.cycleCount, ha3.cycleCount, ha2.cycleCount, ha1.cycleCount]
  · rw [run_succ_of_step hc h1, run_succ_of_step hc1 h2, run_succ_of_step hc2 h3, run_succ_of_step hc3 h4]
    have hrunning : s4.status = .running := by rw [ha4.status, hc3.1]
    refine run_succ_of_halt hrunning (haltDetected_iff.2 ?_) k
    rw [hw4, ha4.cfg, ha3.cfg, ha2.cfg, ha1.cfg, hhalt]
  · have hc4 : Cycling s4 := by
      refine ⟨by rw [ha4.status, hc3.1], haltDetected_eq_false_iff.2 ?_⟩
      rwa [hw4, ha4.cfg, ha3.cfg, ha2.cfg, ha1.cfg]
    obtain ⟨-, -, -, -, -, hwbend⟩ := cycle_fields (cycle_of_step hc4 h5)
    rw [hwbend, hw4]

end Sys2Proof.Machine
end

section
/-! Proofs about reset, loading and the state invariant (10_state.md section 9, 70_reset_and_hazards.md
section 1): what a loaded state holds, what every step keeps, and the run of the empty image. -/

namespace Sys2Proof.Machine

/-! ### Loaded states (10_state.md R29) -/

theorem load_eq_ok {c : Config} {image : List Word} {s : State} : load c image = .ok s ↔
    image.length ≤ c.memSize ∧ State.initial c (Memory.ofImage image) = s := by
  unfold load
  split <;> simp [*]

theorem load_eq_error {c : Config} {image : List Word} (h : c.memSize < image.length) :
    load c image = .error .imageTooLong :=
  if_neg (Nat.not_le_of_lt h)

theorem readReg_replicate (r : RegIdx) : readReg (Vector.replicate 8 0#32) r = 0#32 := by
  unfold readReg
  split <;> simp

theorem load_default_nil : load .default [] = .ok State.reset := rfl

/-- Settles O9: the fields of `State.initial`, whose memories hold the image. -/
theorem resetValues : Obligations.ResetValues := by
  refine ⟨fun c image hlen => ?_, fun c image => load_eq_error, load_default_nil, findLabel_initialTable⟩
  exact ⟨_, load_eq_ok.2 ⟨hlen, rfl⟩, rfl, rfl, readReg_replicate, by simp [State.initial],
    read_ofImage image, fun _ => rfl, rfl, rfl, rfl, rfl, rfl, rfl, rfl⟩

/-- Settles O11: a word is its signed reading, and a number's word depends on its residue only. -/
theorem decimalImageRoundTrips : Obligations.DecimalImageRoundTrips := by
  refine ⟨fun image => ?_, fun w => ?_, fun d k => ?_⟩
  · have hword : wordOfDecimal ∘ decimalOfWord = id := funext fun w => BitVec.ofInt_toInt
    rw [imageOfDecimals, decimalsOfImage, List.map_map, hword, List.map_id]
  · have hlow := BitVec.le_toInt w
    have hhigh := BitVec.toInt_lt (x := w)
    norm_num at hlow hhigh
    exact ⟨hlow, Int.le_of_lt_add_one hhigh⟩
  · refine BitVec.eq_of_toInt_eq ?_
    rw [wordOfDecimal, wordOfDecimal, BitVec.toInt_ofInt, BitVec.toInt_ofInt]
    exact Int.add_mul_bmod_self_left d (2 ^ 32) k

/-! ### The invariant (00_scope.md section 3) -/

theorem below_mono {m : Memory} {a b : Nat} (h : m.below a = true) (hab : a ≤ b) : m.below b = true := by
  rw [Memory.below_iff] at h ⊢
  exact fun p hp => (h p hp).trans_le hab

theorem stateInv_of_load {c : Config} {image : List Word} {s : State} (hc : c.admissible = true)
    (h : load c image = .ok s) : StateInv s := by
  obtain ⟨hlen, rfl⟩ := load_eq_ok.1 h
  have hwf := ofImage_wf image
  have hbelow := below_mono (ofImage_below image) hlen
  exact ⟨hc, hwf, hwf, hbelow, hbelow, by simp [State.initial]⟩

/-- Settles O12: `State.reset` is a loaded state. -/
theorem invAfterReset : Obligations.InvAfterReset :=
  ⟨stateInv_of_load rfl load_default_nil, fun _ _ _ hc h => stateInv_of_load hc h⟩

/-- A cycle keeps the invariant: a store is checked and canonical, and register 0 is never written. -/
theorem stateInv_of_cycle {s n : State} (hs : StateInv s) (h : cycle s = .ok n) : StateInv n := by
  obtain ⟨hc, hiwf, hdwf, hibelow, hdbelow, hzero⟩ := hs
  obtain ⟨hcfg, himem, -, -, -, -⟩ := cycle_fields h
  obtain ⟨m, hm, -, -⟩ := memoryStage_of_cycle h
  rw [StateInv, hcfg, himem, writeBack_slot0 (writebackStage_of_cycle h), cycle_dmem h]
  refine ⟨hc, hiwf, ?_, hibelow, ?_, hzero⟩
  · split
    · exact write_wf _ _ _ hdwf
    · exact hdwf
  · split
    next hsw =>
      have haddr := validAddress_of_memoryStage hm (.inr hsw)
      exact write_below _ _ _ _ hdbelow (addressIndex_lt ((inBounds_iff _ _).2 haddr))
    · exact hdbelow

/-- Settles O13: besides a cycle, a step changes the status at most. -/
theorem stepKeepsInv : Obligations.StepKeepsInv := by
  intro s n hs h
  rcases step_cases h with ⟨-, -, hcycle⟩ | ⟨-, -, rfl⟩ | ⟨-, rfl⟩
  · exact stateInv_of_cycle hs hcycle
  · exact hs
  · exact hs

/-! ### Instruction memory is read-only (20_memory.md section 4) -/

theorem step_imem_cfg {s n : State} (h : step s = .next n) : n.imem = s.imem ∧ n.cfg = s.cfg := by
  rcases step_cases h with ⟨-, -, hcycle⟩ | ⟨-, -, rfl⟩ | ⟨-, rfl⟩
  · obtain ⟨hcfg, himem, -, -, -, -⟩ := cycle_fields hcycle
    exact ⟨himem, hcfg⟩
  · exact ⟨rfl, rfl⟩
  · exact ⟨rfl, rfl⟩

theorem steps_imem_cfg {k : Nat} {s n : State} (h : steps k s = .next n) :
    n.imem = s.imem ∧ n.cfg = s.cfg := by
  induction k generalizing s with
  | zero => cases h; exact ⟨rfl, rfl⟩
  | succ k ih =>
    obtain ⟨t, ht, hk⟩ := steps_succ_eq_next.1 h
    obtain ⟨himem, hcfg⟩ := step_imem_cfg ht
    obtain ⟨himem', hcfg'⟩ := ih hk
    exact ⟨himem'.trans himem, hcfg'.trans hcfg⟩

theorem run_imem_cfg (k : Nat) (s : State) : (run k s).imem = s.imem ∧ (run k s).cfg = s.cfg := by
  induction k generalizing s with
  | zero => exact ⟨rfl, rfl⟩
  | succ k ih =>
    by_cases hs : s.status = .running
    case neg => rw [run_of_not_running hs]; exact ⟨rfl, rfl⟩
    case pos =>
      cases hh : haltDetected s with
      | true => rw [run_succ_of_halt hs hh]; exact ⟨rfl, rfl⟩
      | false =>
        cases hcycle : cycle s with
        | error q => rw [run_succ_of_error hs hh hcycle]; exact ⟨rfl, rfl⟩
        | ok n =>
          obtain ⟨hcfg, himem, -, -, -, -⟩ := cycle_fields hcycle
          rw [run_succ_of_ok hs hh hcycle, ← himem, ← hcfg]
          exact ih n

/-- Settles O14: neither a cycle nor `retire` writes either of them. -/
theorem instructionMemoryIsReadOnly : Obligations.InstructionMemoryIsReadOnly := by
  refine ⟨fun k s n => steps_imem_cfg, run_imem_cfg, fun i s t h => ?_⟩
  obtain ⟨m, g, -, -, rfl⟩ := exec_eq_next.1 h
  exact ⟨rfl, rfl⟩

/-! ### The run of the empty image (70_reset_and_hazards.md section 1) -/

/-- The words in flight while the empty image runs: the no-op of the reset, and the zero word. -/
def IdleWord (L : Layout) (w : Word) : Prop := w = noopWord L ∨ w = 0#32

section IdleWord
variable {L : Layout} {w : Word} (hL : L.admissible = true) (hw : IdleWord L w)
include hL hw

theorem IdleWord.opcode : opcodeOf L w = .add ∨ opcodeOf L w = .noop := by
  rcases hw with rfl | rfl
  · exact .inr (opcodeOf_noopWord L hL)
  · rw [← decode_opcode, decode_zero]
    exact .inl rfl

/-- They write at most register 0. -/
theorem IdleWord.writes {r : RegIdx} (hr : writesRegOf (decode L w) = some r) : r = 0#3 := by
  rcases hw with rfl | rfl
  · rw [decode_noopWord L hL] at hr; cases hr
  · rw [decode_zero] at hr; cases hr; rfl

theorem IdleWord.highBitsClear : highBitsClear L w = true := by
  rcases hw with rfl | rfl
  · exact highBitsClear_noopWord L hL
  · rw [highBitsClear_iff]; simp

end IdleWord

/-- The state after `k` cycles of the empty image, as far as memory reaches. -/
structure IdleAfter (c : Config) (k : Nat) (s : State) : Prop where
  cfg : s.cfg = c
  status : s.status = .running
  pc : s.pc = BitVec.ofNat 32 k
  cycleCount : s.cycleCount = k
  x : ∀ r, s.x r = 0#32
  imem : s.imem = .empty
  ifid : IdleWord c.layout s.ifid.instr
  idex : IdleWord c.layout s.idex.instr
  exmem : IdleWord c.layout s.exmem.instr
  memwb : IdleWord c.layout s.memwb.instr

theorem idleAfter_zero (c : Config) : IdleAfter c 0 (State.initial c .empty) where
  cfg := rfl
  status := rfl
  pc := rfl
  cycleCount := rfl
  x := readReg_replicate
  imem := rfl
  ifid := .inl rfl
  idex := .inl rfl
  exmem := .inl rfl
  memwb := .inl rfl

/-- A number below 2^31 is the signed reading of its word. -/
theorem s32_ofNat {k : Nat} (h : k < 2 ^ 31) : Word.s32 (BitVec.ofNat 32 k) = k := by
  rw [Word.s32, BitVec.toInt_eq_toNat_cond, BitVec.toNat_ofNat, Nat.mod_eq_of_lt (by omega),
    if_pos (by omega)]

theorem admissible_iff {c : Config} : c.admissible = true ↔
    c.layout.admissible = true ∧ 1 ≤ c.memSize ∧ c.memSize ≤ 2 ^ 31 - 1 := by
  simp [Config.admissible, and_assoc]

section IdleAfter
variable {c : Config} (hc : c.admissible = true) {k : Nat} {s : State} (h : IdleAfter c k s)
include hc h

theorem IdleAfter.haltDetected : haltDetected s = false := by
  obtain ⟨hL, -⟩ := admissible_iff.1 hc
  rw [haltDetected_eq_false_iff, h.cfg]
  rcases h.memwb.opcode hL with hop | hop <;> rw [hop] <;> nofun

/-- While pc is in memory a cycle completes. -/
theorem IdleAfter.exists_cycle (hignore : c.r0Write = .ignore) (hk : k < c.memSize) :
    ∃ n, cycle s = .ok n := by
  obtain ⟨hL, -, hsize⟩ := admissible_iff.1 hc
  refine Machine.exists_cycle.2 ⟨exists_fetchStage.2 ?_, exists_executeStage.2 ?_, exists_memoryStage.2 ?_,
    exists_writebackStage.2 ?_⟩
  · rw [h.cfg, h.pc, ValidAddress, s32_ofNat (by omega)]
    omega
  · rw [← Bool.not_eq_true, executeRejects_iff, h.cfg, h.idex.highBitsClear hL]
    exact fun ⟨_, hbits⟩ => nomatch hbits
  · rw [h.cfg]
    rcases h.exmem.opcode hL with hop | hop <;> rw [hop] <;> simp
  · rw [h.cfg, hignore]
    exact fun ⟨_, hfatal⟩ => nomatch hfatal

theorem IdleAfter.next {n : State} (hcycle : cycle s = .ok n) : IdleAfter c (k + 1) n := by
  obtain ⟨hL, -⟩ := admissible_iff.1 hc
  have hb : ¬ TakesBranch s := not_takesBranch_of_opcode (by
    rw [h.cfg]
    rcases h.exmem.opcode hL with hop | hop <;> rw [hop] <;> nofun)
  have ha := advances_of_cycle hcycle hb
  exact {
    cfg := ha.cfg.trans h.cfg
    status := ha.status.trans h.status
    pc := by rw [ha.pc, h.pc, BitVec.ofNat_add]
    cycleCount := by rw [ha.cycleCount, h.cycleCount]
    x := fun r => by
      rw [cycle_x hcycle, if_neg, h.x]
      rw [h.cfg]
      exact fun ⟨hw, hr⟩ => hr (h.memwb.writes hL hw)
    imem := ha.imem.trans h.imem
    ifid := by rw [ha.ifid, h.imem]; exact .inr rfl
    idex := by rw [ha.idex]; exact h.ifid
    exmem := by rw [ha.exmem]; exact h.idex
    memwb := by rw [ha.memwb_instr]; exact h.exmem }

end IdleAfter

/-- The empty image runs for as many cycles as memory has addresses. -/
theorem exists_idleAfter {c : Config} (hc : c.admissible = true) (hignore : c.r0Write = .ignore) {k : Nat}
    (hk : k ≤ c.memSize) :
    ∃ s, IdleAfter c k s ∧ ∀ j, run (k + j) (State.initial c .empty) = run j s := by
  induction k with
  | zero => exact ⟨_, idleAfter_zero c, fun j => by rw [Nat.zero_add]⟩
  | succ k ih =>
    obtain ⟨s, hs, hrun⟩ := ih (by omega)
    obtain ⟨n, hn⟩ := hs.exists_cycle hc hignore hk
    refine ⟨n, hs.next hc hn, fun j => ?_⟩
    rw [Nat.add_right_comm, Nat.add_assoc, hrun, run_succ_of_ok hs.status (hs.haltDetected hc) hn]

/-- Settles O10: after `MEM_SIZE` idle cycles pc is the first invalid address. -/
theorem emptyImageRunsOffMemory : Obligations.EmptyImageRunsOffMemory := by
  intro c hc hignore
  obtain ⟨-, -, hsize⟩ := admissible_iff.1 hc
  obtain ⟨s, hs, hrun⟩ := exists_idleAfter hc hignore le_rfl
  have hpc : ¬ ValidAddress s.cfg s.pc := by
    rw [hs.cfg, hs.pc, ValidAddress, s32_ofNat (by omega)]
    omega
  have hfault : cycle s = .error (.outOfBoundsMemory s.pc) :=
    cycle_eq_error.2 (.inl (fetchStage_eq_error.2 ⟨(inBounds_false_iff _ _).2 hpc, rfl⟩))
  refine ⟨State.initial c .empty, load_eq_ok.2 ⟨Nat.zero_le _, rfl⟩, ?_⟩
  rw [hrun, run_succ_of_error hs.status (hs.haltDetected hc) hfault, hs.pc]
  exact ⟨rfl, hs.cycleCount, hs.pc, hs.x⟩

end Sys2Proof.Machine
end

section
/-! Proofs about pass 2 of the assembler, labels and literals, and exit codes (46_assembler.md sections 2, 4
and 5, 60_exceptions.md section 3). -/

namespace Sys2Proof.Machine

/-! ### The symbol table and literals (46_assembler.md R155, R156, R158) -/

theorem lookupLabel_eq_of_findLabel_eq {c : Config} {t u : SymbolTable} {name : Token}
    (h : findLabel t name = findLabel u name) : lookupLabel c t name = lookupLabel c u name := by
  rw [lookupLabel, lookupLabel, h]

/-- Settles O52, from `defineLabel_eq_ok` and `defineLabel_eq_error`. -/
theorem defineThenLookup : Obligations.DefineThenLookup := by
  refine fun c t name a => ⟨fun hstrict hinvalid => ?_, fun hname => ?_, fun habsent hfatal => ?_,
    fun habsent hsentinel => ?_⟩
  · exact defineLabel_eq_error.2 (.inl ⟨⟨hstrict, hinvalid⟩, rfl⟩)
  · refine ⟨fun b hb => defineLabel_eq_error.2 (.inr ⟨hname.symm, by simp [hb], rfl⟩), fun habsent => ?_⟩
    refine ⟨_, defineLabel_eq_ok.2 ⟨hname.symm, habsent, rfl⟩, ?_, fun q hq => ?_⟩
    · simp [lookupLabel, findLabel_append, habsent, findLabel]
    · exact lookupLabel_eq_of_findLabel_eq (by simp [findLabel_append, findLabel, hq.symm])
  · simp [lookupLabel, habsent, hfatal]
  · simp [lookupLabel, habsent, hsentinel]

/-- A digit is no letter. -/
theorem isLetter_of_isDecimalDigit {ch : Char} (h : isDecimalDigit ch = true) : isLetter ch = false := by
  simp only [isDecimalDigit, isLetter, Bool.and_eq_true, decide_eq_true_eq, Bool.or_eq_false_iff,
    Bool.and_eq_false_iff, decide_eq_false_iff_not] at *
  omega

/-- A literal begins with a sign or a digit. -/
theorem isLetter_of_parseLiteral {ch : Char} {cs : Token} {v : Int}
    (h : parseLiteral (ch :: cs) = some v) : isLetter ch = false := by
  by_cases hplus : ch = '+'
  · rw [hplus]; rfl
  · by_cases hminus : ch = '-'
    · rw [hminus]; rfl
    · rw [parseLiteral, if_neg hplus, if_neg hminus, parseDigits, digitsFrom] at h
      split at h
      next hdigit => exact isLetter_of_isDecimalDigit hdigit
      · cases h

/-- Settles O56, from the first character. -/
theorem literalIsNoLabel : Obligations.LiteralIsNoLabel := by
  intro t v h
  cases t with
  | nil => rfl
  | cons ch cs => rw [validLabel, isLetter_of_parseLiteral h, Bool.false_and]

/-! ### The word of an instruction (46_assembler.md R172) -/

theorem encodeInstr_eq_ok {c : Config} {i : Instr} {w : Word} : encodeInstr c i = .ok w ↔
    (i.wellFormed = true ∨ c.offsetRange = .wrap) ∧ encode c.layout i = w := by
  rw [encodeInstr, encodeFields_fields]
  cases i.wellFormed <;> cases c.offsetRange <;> simp

theorem encodeInstr_eq_error {c : Config} {i : Instr} (hreject : c.offsetRange = .reject)
    (hi : i.wellFormed = false) : encodeInstr c i = .error (.error .offsetOverflow) := by
  rw [encodeInstr, encodeFields_fields, if_pos ⟨hreject, hi⟩]

/-- Settles O57: of an instruction's fields, encode refuses only an offset out of range. -/
theorem offsetOverflowExactly : Obligations.OffsetOverflowExactly :=
  fun _ _ => ⟨encodeInstr_eq_error, fun h => encodeInstr_eq_ok.2 ⟨h, rfl⟩⟩

/-! ### Pass 2 (46_assembler.md R161) -/

/-- Pass 2 fails at a record that gives no word, for its reason. -/
theorem pass2_eq_error {c : Config} {tbl : SymbolTable} {addr : Nat} {rs : List Record} {s : AsmStop}
    (h : pass2 c tbl addr rs = .error s) : ∃ k r e, rs[k]? = some r ∧
      recordWord c tbl (addr + k) r = .error e ∧ s = e.atAddress (addr + k) := by
  induction rs generalizing addr with
  | nil => cases h
  | cons r rs ih =>
    rw [pass2] at h
    split at h
    next e hword =>
      cases h
      exact ⟨0, r, e, rfl, hword, rfl⟩
    · split at h
      next e hrest =>
        cases h
        obtain ⟨k, q, e, hq, hword, hs⟩ := ih hrest
        rw [Nat.add_assoc, Nat.add_comm 1 k] at hword hs
        exact ⟨k + 1, q, e, hq, hword, hs⟩
      · cases h

/-- After pass 1, records that each give a word assemble. -/
theorem assemble_of_recordWord {c : Config} {rs : List Record} {tbl : SymbolTable}
    (hpass1 : pass1 c initialTable 0 rs = .ok tbl)
    (hword : ∀ (k : Nat) (r : Record), rs[k]? = some r → ∃ w, recordWord c tbl k r = .ok w) :
    ∃ ws, assemble c rs = .ok ws := by
  cases hpass2 : pass2 c tbl 0 rs with
  | ok ws => exact ⟨ws, assemble_eq_ok.2 ⟨tbl, hpass1, hpass2⟩⟩
  | error s =>
    obtain ⟨k, r, e, hr, herror, -⟩ := pass2_eq_error hpass2
    obtain ⟨w, hw⟩ := hword k r hr
    rw [Nat.zero_add, hw] at herror
    cases herror

/-- An assembly that fails does so in pass 1, or at a record after it. -/
theorem assemble_eq_error {c : Config} {rs : List Record} {s : AsmStop} (h : assemble c rs = .error s) :
    (∃ e k, s = .error e k ∧ k < rs.length) ∨ ∃ tbl k r e, rs[k]? = some r ∧
      recordWord c tbl k r = .error e ∧ s = e.atAddress k := by
  unfold assemble at h
  split at h
  next e hpass1 =>
    cases h
    obtain ⟨e, k, hs, hk, -⟩ := pass1_eq_error hpass1
    exact .inl ⟨e, k, hs, by omega⟩
  next tbl _ =>
    obtain ⟨k, r, e, hr, hword, hs⟩ := pass2_eq_error h
    rw [Nat.zero_add] at hword hs
    exact .inr ⟨tbl, k, r, e, hr, hword, hs⟩

/-! ### Instructions with an offset operand (46_assembler.md R170) -/

/-- The instruction of an I-type opcode; `noop` for any other, which no lemma uses. -/
def offsetInstr (o : Opcode) (a b : RegIdx) (off : Int) : Instr :=
  match o with
  | .lw => .lw a b off
  | .sw => .sw a b off
  | .beq => .beq a b off
  | _ => .noop

/-- The offset an I-type opcode at address `addr` takes from its operand. -/
def operandOffset (addr : Nat) (o : Opcode) (v : Operand) : Int :=
  if o = .beq then branchOffset addr v else absoluteOffset v

theorem operandOffset_label (addr : Nat) (o : Opcode) (t : Nat) :
    operandOffset addr o (.label t) = labelOffset o addr t := rfl

theorem operandOffset_literal (addr : Nat) (o : Opcode) (v : Int) :
    operandOffset addr o (.literal v) = v := by
  unfold operandOffset
  split <;> rfl

section formatI
variable {o : Opcode} (ho : o.format = .I)
include ho

theorem parseInstr_of_formatI (c : Config) (tbl : SymbolTable) (addr : Nat) (a b x : Token)
    (rest : List Token) : parseInstr c tbl addr o (a :: b :: x :: rest) =
      registersAndOffset c tbl a b x (operandOffset addr o) (offsetInstr o) := by
  cases o with
  | lw | sw | beq => rfl
  | _ => cases ho

theorem offsetInstr_wellFormed (a b : RegIdx) (off : Int) :
    (offsetInstr o a b off).wellFormed = offsetFits off := by
  cases o with
  | lw | sw | beq => rfl
  | _ => cases ho

/-- The opcode and the offset of the word of an I-type instruction. -/
theorem fields_encode_offsetInstr {L : Layout} (hL : L.admissible = true) (a b : RegIdx) {off : Int}
    (hoff : offsetFits off = true) : opcodeOf L (encode L (offsetInstr o a b off)) = o ∧
      (offsetWord (encode L (offsetInstr o a b off))).s32 = off := by
  have hencode : encode L (offsetInstr o a b off) = encodeI L o a b off := by
    cases o with
    | lw | sw | beq => rfl
    | _ => cases ho
  rw [hencode, offsetWord_s32, offset16_encodeI hL, toInt_ofInt_of_offsetFits hoff]
  exact ⟨opcodeOf_encodeI L hL o a b off, rfl⟩

end formatI

theorem registersAndOffset_eq_ok {c : Config} {tbl : SymbolTable} {a b x : Token}
    {offsetOf : Operand → Int} {f : RegIdx → RegIdx → Int → Instr} {i : Instr} :
    registersAndOffset c tbl a b x offsetOf f = .ok i ↔ ∃ ra rb v, parseRegister a = .ok ra ∧
      parseRegister b = .ok rb ∧ resolveOperand c tbl x = .ok v ∧ f ra rb (offsetOf v) = i := by
  unfold registersAndOffset
  cases parseRegister a with
  | error e => simp
  | ok ra =>
    cases parseRegister b with
    | error e => simp
    | ok rb => cases resolveOperand c tbl x <;> simp

/-! ### The word of a record (46_assembler.md R161 to R163) -/

theorem translate_eq_ok {c : Config} {tbl : SymbolTable} {addr : Nat} {op : Token} {args : List Token}
    {w : Word} : translate c tbl addr op args = .ok w ↔ ∃ o i, opcodeOfString op = some o ∧
      parseInstr c tbl addr o args = .ok i ∧ encodeInstr c i = .ok w := by
  unfold translate
  cases opcodeOfString op with
  | none => simp
  | some o => cases h : parseInstr c tbl addr o args <;> simp [h]

/-- The directive `.fill` is no opcode string. -/
theorem recordWord_of_opcode {c : Config} {tbl : SymbolTable} {addr : Nat} {r : Record} {o : Opcode}
    (h : opcodeOfString r.opcode = some o) :
    recordWord c tbl addr r = translate c tbl addr r.opcode r.args := by
  have hfill : opcodeOfString fillString = none := by decide
  exact if_neg fun heq => by rw [heq, hfill] at h; cases h

/-- The word of a record whose I-type opcode has a label operand. -/
theorem recordWord_label {c : Config} {tbl : SymbolTable} {k : Nat} {r : Record} {w : Word} {o : Opcode}
    {a b x : Token} {rest : List Token} (hL : c.layout.admissible = true)
    (hreject : c.offsetRange = .reject) (hword : recordWord c tbl k r = .ok w)
    (hop : opcodeOfString r.opcode = some o) (hargs : r.args = a :: b :: x :: rest)
    (hx : parseLiteral x = none) (ho : o.format = .I) :
    ∃ t, findLabel tbl x = some t ∧ opcodeOf c.layout w = o ∧ (offsetWord w).s32 = labelOffset o k t := by
  rw [recordWord_of_opcode hop, translate_eq_ok] at hword
  obtain ⟨o', i, ho', hparse, hencode⟩ := hword
  obtain rfl := Option.some.inj (hop.symm.trans ho')
  rw [hargs, parseInstr_of_formatI ho, registersAndOffset_eq_ok] at hparse
  obtain ⟨ra, rb, v, -, -, hv, rfl⟩ := hparse
  obtain ⟨t, ht, rfl⟩ := (resolveOperand_label hx).1 hv
  obtain ⟨hfits, rfl⟩ := encodeInstr_eq_ok.1 hencode
  rw [offsetInstr_wellFormed ho, hreject] at hfits
  obtain ⟨hopcode, hoffset⟩ := fields_encode_offsetInstr ho hL ra rb (hfits.resolve_right nofun)
  exact ⟨t, ht, hopcode, hoffset⟩

theorem fillValue_label {c : Config} {tbl : SymbolTable} {x : Token} {rest : List Token} {w : Word}
    (hx : parseLiteral x = none) :
    fillValue c tbl (x :: rest) = .ok w ↔ ∃ t, findLabel tbl x = some t ∧ BitVec.ofNat 32 t = w := by
  have hresolve := fun v => resolveOperand_label (c := c) (t := tbl) (o := v) hx
  cases hv : resolveOperand c tbl x with
  | error e =>
    refine iff_of_false (by simp [fillValue, hv]) fun ⟨t, ht, _⟩ => ?_
    rw [(hresolve _).2 ⟨t, ht, rfl⟩] at hv
    cases hv
  | ok v =>
    obtain ⟨t, ht, rfl⟩ := (hresolve v).1 hv
    simp [fillValue, hv, ht]

/-! ### Program texts without an error (46_assembler.md R181) -/

section correct
variable {c : Config} {rs : List Record} {tbl : SymbolTable}
  (htbl : pass1 c initialTable 0 rs = .ok tbl)
include htbl

theorem exists_fillValue {args : List Token} (h : FillCorrect rs args) :
    ∃ w, fillValue c tbl args = .ok w := by
  obtain ⟨x, rest, rfl, ⟨v, hv, hlow, hhigh⟩ | ⟨hx, t, ht⟩⟩ := h
  · have hfits : literalFits v = true := by simp [literalFits, hlow, hhigh]
    exact ⟨BitVec.ofInt 32 v, by rw [fillValue, (resolveOperand_literal hv).2 ⟨hfits, rfl⟩]⟩
  · exact ⟨_, (fillValue_label hx).2 ⟨t, (findLabel_pass1 htbl x t).2 ht, rfl⟩⟩

/-- An offset operand without an error resolves to an offset in the 16-bit range. -/
theorem exists_resolveOperand {o : Opcode} {k : Nat} {x : Token}
    (h : (∃ v, parseLiteral x = some v ∧ -32768 ≤ v ∧ v ≤ 32767) ∨ (parseLiteral x = none ∧
      ∃ t, LabelAt rs x t ∧ -32768 ≤ labelOffset o k t ∧ labelOffset o k t ≤ 32767)) :
    ∃ v, resolveOperand c tbl x = .ok v ∧ offsetFits (operandOffset k o v) = true := by
  rcases h with ⟨v, hv, hlow, hhigh⟩ | ⟨hx, t, ht, hlow, hhigh⟩
  · refine ⟨.literal v, (resolveOperand_literal hv).2 ⟨?_, rfl⟩, ?_⟩
    · simp only [literalFits, Bool.and_eq_true, decide_eq_true_eq]
      omega
    · simp [operandOffset_literal, offsetFits, hlow, hhigh]
  · refine ⟨.label t, (resolveOperand_label hx).2 ⟨t, (findLabel_pass1 htbl x t).2 ht, rfl⟩, ?_⟩
    simp [operandOffset_label, offsetFits, hlow, hhigh]

end correct

theorem exists_parseRegister {t : Token} (h : IsRegisterToken t) : ∃ r, parseRegister t = .ok r := by
  obtain ⟨r, rfl⟩ := h
  exact ⟨r, parseRegister_eq_ok.2 rfl⟩

theorem exists_twoRegisters {a b : Token} (f : RegIdx → RegIdx → Instr) (ha : IsRegisterToken a)
    (hb : IsRegisterToken b) : ∃ ra rb, twoRegisters a b f = .ok (f ra rb) := by
  obtain ⟨ra, ha⟩ := exists_parseRegister ha
  obtain ⟨rb, hb⟩ := exists_parseRegister hb
  exact ⟨ra, rb, by rw [twoRegisters, ha, hb]⟩

theorem exists_threeRegisters {a b d : Token} (f : RegIdx → RegIdx → RegIdx → Instr)
    (ha : IsRegisterToken a) (hb : IsRegisterToken b) (hd : IsRegisterToken d) :
    ∃ ra rb rd, threeRegisters a b d f = .ok (f ra rb rd) := by
  obtain ⟨ra, ha⟩ := exists_parseRegister ha
  obtain ⟨rb, hb⟩ := exists_parseRegister hb
  obtain ⟨rd, hd⟩ := exists_parseRegister hd
  exact ⟨ra, rb, rd, by rw [threeRegisters, ha, hb, hd]⟩

theorem exists_cons_cons {args : List Token} (h : 2 ≤ args.length) :
    ∃ a b rest, args = a :: b :: rest :=
  match args, h with
  | a :: b :: rest, _ => ⟨a, b, rest, rfl⟩

theorem exists_cons_cons_cons {args : List Token} (h : 3 ≤ args.length) :
    ∃ a b x rest, args = a :: b :: x :: rest :=
  match args, h with
  | a :: b :: x :: rest, _ => ⟨a, b, x, rest, rfl⟩

section operands
variable {c : Config} {tbl : SymbolTable} {k : Nat} {o : Opcode} {args : List Token}

theorem exists_parseInstr_formatR (ho : o.format = .R) (hlen : 3 ≤ args.length)
    (hregister : ∀ (j : Nat) (x : Token), args[j]? = some x → j < 3 → IsRegisterToken x) :
    ∃ i, parseInstr c tbl k o args = .ok i ∧ i.wellFormed = true := by
  obtain ⟨a, b, d, rest, rfl⟩ := exists_cons_cons_cons hlen
  have h (f : RegIdx → RegIdx → RegIdx → Instr) := exists_threeRegisters f
    (hregister 0 a rfl (by decide)) (hregister 1 b rfl (by decide)) (hregister 2 d rfl (by decide))
  cases o with
  | add =>
    obtain ⟨ra, rb, rd, hi⟩ := h .add
    exact ⟨_, hi, rfl⟩
  | nor =>
    obtain ⟨ra, rb, rd, hi⟩ := h .nor
    exact ⟨_, hi, rfl⟩
  | _ => cases ho

theorem exists_parseInstr_formatJ (ho : o.format = .J) (hlen : 2 ≤ args.length)
    (hregister : ∀ (j : Nat) (x : Token), args[j]? = some x → j < 2 → IsRegisterToken x) :
    ∃ i, parseInstr c tbl k o args = .ok i ∧ i.wellFormed = true := by
  obtain ⟨a, b, rest, rfl⟩ := exists_cons_cons hlen
  obtain ⟨ra, rb, hi⟩ := exists_twoRegisters .jalr (hregister 0 a rfl (by decide))
    (hregister 1 b rfl (by decide))
  cases o with
  | jalr => exact ⟨_, hi, rfl⟩
  | _ => cases ho

theorem exists_parseInstr_formatO (ho : o.format = .O) :
    ∃ i, parseInstr c tbl k o args = .ok i ∧ i.wellFormed = true := by
  cases o with
  | halt => exact ⟨.halt, rfl, rfl⟩
  | noop => exact ⟨.noop, rfl, rfl⟩
  | _ => cases ho

theorem exists_parseInstr_formatI (ho : o.format = .I) (hlen : 3 ≤ args.length)
    (hregister : ∀ (j : Nat) (x : Token), args[j]? = some x → j < 2 → IsRegisterToken x)
    (hoffset : ∀ x, args[2]? = some x →
      ∃ v, resolveOperand c tbl x = .ok v ∧ offsetFits (operandOffset k o v) = true) :
    ∃ i, parseInstr c tbl k o args = .ok i ∧ i.wellFormed = true := by
  obtain ⟨a, b, x, rest, rfl⟩ := exists_cons_cons_cons hlen
  obtain ⟨ra, ha⟩ := exists_parseRegister (hregister 0 a rfl (by decide))
  obtain ⟨rb, hb⟩ := exists_parseRegister (hregister 1 b rfl (by decide))
  obtain ⟨v, hv, hfits⟩ := hoffset x rfl
  refine ⟨_, ?_, (offsetInstr_wellFormed ho ra rb _).trans hfits⟩
  rw [parseInstr_of_formatI ho]
  exact registersAndOffset_eq_ok.2 ⟨ra, rb, v, ha, hb, hv, rfl⟩

end operands

/-- The operands of an instruction record without an error spell a well-formed instruction. -/
theorem exists_parseInstr {c : Config} {rs : List Record} {tbl : SymbolTable} {k : Nat} {r : Record}
    (htbl : pass1 c initialTable 0 rs = .ok tbl) (h : InstructionCorrect rs k r) :
    ∃ o i, opcodeOfString r.opcode = some o ∧ parseInstr c tbl k o r.args = .ok i ∧
      i.wellFormed = true := by
  obtain ⟨o, hop, hlen, hregister, hoffset⟩ := h
  refine ⟨o, ?_⟩
  simp only [hop, true_and]
  cases hf : o.format <;> simp only [operandsNeeded, hf] at hlen hregister
  case R => exact exists_parseInstr_formatR hf hlen fun j x hx hj => hregister j x hx hj (.inl nofun)
  case I =>
    exact exists_parseInstr_formatI hf hlen (fun j x hx hj => hregister j x hx (by omega) (.inr hj))
      fun x hx => exists_resolveOperand htbl (hoffset x hf hx)
  case J => exact exists_parseInstr_formatJ hf hlen fun j x hx hj => hregister j x hx hj (.inl nofun)
  case O => exact exists_parseInstr_formatO hf

theorem exists_recordWord {c : Config} {rs : List Record} {tbl : SymbolTable} {k : Nat} {r : Record}
    (htbl : pass1 c initialTable 0 rs = .ok tbl)
    (h : if r.opcode = fillString then FillCorrect rs r.args else InstructionCorrect rs k r) :
    ∃ w, recordWord c tbl k r = .ok w := by
  by_cases hfill : r.opcode = fillString
  · rw [if_pos hfill] at h
    rw [recordWord, if_pos hfill]
    exact exists_fillValue htbl h
  · rw [if_neg hfill] at h
    rw [recordWord, if_neg hfill]
    obtain ⟨o, i, hop, hparse, hi⟩ := exists_parseInstr htbl h
    exact ⟨_, translate_eq_ok.2 ⟨o, i, hop, hparse, encodeInstr_eq_ok.2 ⟨.inl hi, rfl⟩⟩⟩

/-- Settles O54: success record by record, and the word of a record with a label operand. -/
theorem labelResolution : Obligations.LabelResolution := by
  intro c rs hL hreject
  refine ⟨fun ⟨hlabels, hrecords⟩ => ?_, fun tbl htbl => assemble_of_recordWord htbl, fun ws h => ?_⟩
  · obtain ⟨tbl, htbl⟩ := pass1_ok_of_labelsWellDefined hlabels
    exact assemble_of_recordWord htbl fun k r hr => exists_recordWord htbl (hrecords k r hr)
  · obtain ⟨tbl, htbl, hpass2⟩ := assemble_eq_ok.1 h
    obtain ⟨hlen, hwords⟩ := pass2_eq_ok.1 hpass2
    refine ⟨hlen, fun k r w hr hw => ?_⟩
    have hword := hwords k r w hr hw
    rw [Nat.zero_add] at hword
    refine ⟨fun o a b x rest hop hargs hx ho => ?_, fun x rest hfill hargs hx => ?_⟩
    · obtain ⟨t, ht, hopcode, hoffset⟩ := recordWord_label hL hreject hword hop hargs hx ho
      exact ⟨t, (findLabel_pass1 htbl x t).1 ht, hopcode, hoffset⟩
    · rw [recordWord, if_pos hfill, hargs] at hword
      obtain ⟨t, ht, htw⟩ := (fillValue_label hx).1 hword
      exact ⟨t, (findLabel_pass1 htbl x t).1 ht, htw.symm⟩

/-! ### The sentinel (46_assembler.md R156) -/

theorem threeRegisters_eq_error {a b d : Token} {f : RegIdx → RegIdx → RegIdx → Instr} {e : AsmReason}
    (h : threeRegisters a b d f = .error e) : e = .error .invalidRegister := by
  unfold threeRegisters at h
  split at h
  next ha => cases h; exact parseRegister_eq_error ha
  split at h
  next hb => cases h; exact parseRegister_eq_error hb
  split at h
  next hd => cases h; exact parseRegister_eq_error hd
  cases h

theorem twoRegisters_eq_error {a b : Token} {f : RegIdx → RegIdx → Instr} {e : AsmReason}
    (h : twoRegisters a b f = .error e) : e = .error .invalidRegister := by
  unfold twoRegisters at h
  split at h
  next ha => cases h; exact parseRegister_eq_error ha
  split at h
  next hb => cases h; exact parseRegister_eq_error hb
  cases h

theorem registersAndOffset_eq_error {c : Config} {tbl : SymbolTable} {a b x : Token}
    {offsetOf : Operand → Int} {f : RegIdx → RegIdx → Int → Instr} {e : AsmReason}
    (h : registersAndOffset c tbl a b x offsetOf f = .error e) :
    e = .error .invalidRegister ∨ resolveOperand c tbl x = .error e := by
  unfold registersAndOffset at h
  split at h
  next ha => cases h; exact .inl (parseRegister_eq_error ha)
  split at h
  next hb => cases h; exact .inl (parseRegister_eq_error hb)
  split at h
  next hx => cases h; exact .inr hx
  cases h

theorem encodeInstr_ne_sentinel (c : Config) (i : Instr) :
    encodeInstr c i ≠ .error .sentinelNotSpecified := by
  unfold encodeInstr
  split <;> nofun

section fatal
variable {c : Config} (hfatal : c.undefinedLabel = .fatal) (tbl : SymbolTable)
include hfatal

theorem resolveOperand_ne_sentinel (t : Token) :
    resolveOperand c tbl t ≠ .error .sentinelNotSpecified := by
  intro h
  unfold resolveOperand at h
  split at h
  · split at h <;> cases h
  · split at h
    · cases h
    next hlabel => cases h; exact resolveLabel_ne_sentinel hfatal hlabel

theorem registersAndOffset_ne_sentinel (a b x : Token) (offsetOf : Operand → Int)
    (f : RegIdx → RegIdx → Int → Instr) :
    registersAndOffset c tbl a b x offsetOf f ≠ .error .sentinelNotSpecified := by
  intro h
  rcases registersAndOffset_eq_error h with he | hx
  · cases he
  · exact resolveOperand_ne_sentinel hfatal tbl x hx

theorem parseInstr_ne_sentinel (addr : Nat) (o : Opcode) (args : List Token) :
    parseInstr c tbl addr o args ≠ .error .sentinelNotSpecified := by
  intro h
  unfold parseInstr at h
  split at h
  · cases threeRegisters_eq_error h
  · cases threeRegisters_eq_error h
  · exact registersAndOffset_ne_sentinel hfatal tbl _ _ _ _ _ h
  · exact registersAndOffset_ne_sentinel hfatal tbl _ _ _ _ _ h
  · exact registersAndOffset_ne_sentinel hfatal tbl _ _ _ _ _ h
  · cases twoRegisters_eq_error h
  · cases h
  · cases h
  · cases h

theorem translate_ne_sentinel (addr : Nat) (op : Token) (args : List Token) :
    translate c tbl addr op args ≠ .error .sentinelNotSpecified := by
  intro h
  unfold translate at h
  split at h
  · cases h
  split at h
  next hparse => cases h; exact parseInstr_ne_sentinel hfatal tbl _ _ _ hparse
  exact encodeInstr_ne_sentinel c _ h

theorem fillValue_ne_sentinel (args : List Token) :
    fillValue c tbl args ≠ .error .sentinelNotSpecified := by
  intro h
  unfold fillValue at h
  split at h
  · cases h
  split at h
  next hresolve => cases h; exact resolveOperand_ne_sentinel hfatal tbl _ hresolve
  · cases h
  · cases h

/-- With undefined labels fatal no record stops an assembly by name. -/
theorem recordWord_ne_sentinel (addr : Nat) (r : Record) :
    recordWord c tbl addr r ≠ .error .sentinelNotSpecified := by
  unfold recordWord
  split
  · exact fillValue_ne_sentinel hfatal tbl _
  · exact translate_ne_sentinel hfatal tbl _ _ _

end fatal

/-! ### Exit codes (60_exceptions.md R207) -/

theorem imageOfTokens_length {ts : List Token} {ws : List Word} (h : imageOfTokens ts = .ok ws) :
    ws.length = ts.length := by
  obtain ⟨ds, hds, rfl⟩ := imageOfTokens_eq_ok.1 h
  have hlen := congrArg List.length hds
  simp only [List.length_map] at hlen
  rw [imageOfDecimals, List.length_map, hlen]

theorem exists_imageOfTokens {ts : List Token} (h : ∀ t ∈ ts, ∃ d, parseLiteral t = some d) :
    ∃ ws, imageOfTokens ts = .ok ws := by
  have hds : ∃ ds : List Int, ts.map parseLiteral = ds.map some := by
    induction ts with
    | nil => exact ⟨[], rfl⟩
    | cons t ts ih =>
      obtain ⟨d, hd⟩ := h t List.mem_cons_self
      obtain ⟨ds, hds⟩ := ih fun u hu => h u (List.mem_cons_of_mem t hu)
      exact ⟨d :: ds, by rw [List.map_cons, List.map_cons, hd, hds]⟩
  obtain ⟨ds, hds⟩ := hds
  exact ⟨_, imageOfTokens_eq_ok.2 ⟨ds, hds, rfl⟩⟩

/-- Input with a field that is no number, or too long for memory, is refused. -/
theorem simulate_eq_error {c : Config} {fuel : Nat} {ts : List Token}
    (h : (∃ t ∈ ts, parseLiteral t = none) ∨ c.memSize < ts.length) :
    ∃ e, simulate c fuel ts = .error e := by
  unfold simulate
  cases himage : imageOfTokens ts with
  | error e => exact ⟨e, rfl⟩
  | ok ws =>
    rcases h with ⟨t, ht, hnone⟩ | hlong
    · obtain ⟨ds, hds, -⟩ := imageOfTokens_eq_ok.1 himage
      have hmem : none ∈ ds.map some := by rw [← hds, ← hnone]; exact List.mem_map_of_mem ht
      simp at hmem
    · rw [← imageOfTokens_length himage] at hlong
      exact ⟨.imageTooLong, by simp only [load_eq_error hlong]⟩

theorem simulate_eq_ok {c : Config} {fuel : Nat} {ts : List Token} {ws : List Word} {s : State}
    (himage : imageOfTokens ts = .ok ws) (hload : load c ws = .ok s) :
    simulate c fuel ts = .ok (run fuel s) := by
  simp only [simulate, himage, hload]

/-- An assembly's exit code is 0 exactly when it gives words. -/
theorem assemblerExitCode_eq_zero {r : Except AsmStop (List Word)} :
    assemblerExitCode r = some 0 ↔ ∃ ws, r = .ok ws := by
  match r with
  | .ok ws => simp [assemblerExitCode]
  | .error (.error e a) => simp [assemblerExitCode]
  | .error (.sentinelNotSpecified a) => simp [assemblerExitCode]

/-- Settles O59: what the loader refuses, and an assembly that fails does so with an error at a record. -/
theorem exitCodes : Obligations.ExitCodes := by
  refine ⟨fun c image fuel ts himage s hload => ?_, fun c fuel ts h => ?_, fun ts h => ?_, fun c rs => ?_⟩
  · have hsimulate := simulate_eq_ok (fuel := fuel) himage hload
    rw [hsimulate, simulatorExitCode]
    exact ⟨rfl, fun h => by rw [h, exitCode], fun f h => by rw [h, exitCode], fun h => by rw [h, exitCode]⟩
  · obtain ⟨e, he⟩ := simulate_eq_error (fuel := fuel) h
    rw [he, simulatorExitCode]
  · obtain ⟨ws, hws⟩ := exists_imageOfTokens h
    exact ⟨ws, hws, imageOfTokens_length hws⟩
  · refine ⟨assemblerExitCode_eq_zero.symm, fun e a h => ⟨?_, by rw [h, assemblerExitCode]⟩, fun hfatal => ?_⟩
    · rcases assemble_eq_error h with ⟨e', k, hs, hk⟩ | ⟨tbl, k, r, e', hr, -, hs⟩
      · cases hs
        exact hk
      · have hk : k < rs.length := (List.getElem?_eq_some_iff.1 hr).1
        cases e' <;> cases hs
        exact hk
    · cases h : assemble c rs with
      | ok ws => exact .inl rfl
      | error s =>
        rcases assemble_eq_error h with ⟨e, k, rfl, -⟩ | ⟨tbl, k, r, e, -, hword, rfl⟩
        · exact .inr ⟨e, k, rfl⟩
        · cases e with
          | error e => exact .inr ⟨e, k, rfl⟩
          | sentinelNotSpecified => exact absurd hword (recordWord_ne_sentinel hfatal tbl k r)

end Sys2Proof.Machine
end

section
/-! Proofs about the sequential reference model (45_reference_model.md): one step, and the runs that halt. -/

namespace Sys2Proof.Machine

/-! ### One step (45_reference_model.md R138) -/

/-- The faults of an instruction executed alone. -/
theorem exec_fault_cases {i : Instr} {s : State} {f : Fault} (h : exec i s = .fault f) :
    (∃ a, f = .outOfBoundsMemory a) ∨ ∃ w, f = .writeToRegisterZero w := by
  rcases exec_eq_fault.1 h with hmemory | ⟨m, -, hwrite⟩
  · obtain ⟨-, -, rfl⟩ := memoryOf_eq_error.1 hmemory
    exact .inl ⟨_, rfl⟩
  · obtain ⟨-, -, rfl⟩ := writeBack_eq_error.1 hwrite
    exact .inr ⟨_, rfl⟩

/-- Settles O47: a valid step but of `jalr` is `exec` on the view. -/
theorem referenceStepRunsExec : Obligations.ReferenceStepRunsExec := by
  refine fun r => ⟨fun hpc => refStep_of_invalid ((inBounds_false_iff _ _).2 hpc), fun hpc hop => ?_⟩
  rw [refStep_of_valid ((inBounds_iff _ _).2 hpc), ← refWord, refExec_of_ne_jalr hop]
  cases hexec : exec (decode r.cfg.layout (refWord r)) r.view with
  | next t => rfl
  | refused q => exact absurd hexec (exec_ne_refused _ _ q)
  | fault f =>
    rcases exec_fault_cases hexec with ⟨a, rfl⟩ | ⟨w, rfl⟩
    · rfl
    · rfl

theorem refJalr_of_none {r : RefState} (h : r.cfg.refJalr = .none) (w : Word) (ra rb : RegIdx) :
    refJalr w ra rb r = .next { r with pc := r.pc + 1#32, instrCount := r.instrCount + 1 } := by
  rw [refJalr, h]
  rfl

section link
variable {r : RefState} (h : r.cfg.refJalr = .linkThenJump) {w : Word} {ra rb : RegIdx}
include h

/-- A linking `jalr` jumps to regA, read after the link is written. -/
theorem refJalr_of_ok {g : Vector Word 8} (hg : writeReg r.cfg r.regs w rb (r.pc + 1) = .ok g) :
    refJalr w ra rb r =
      .next { r with regs := g, pc := readReg g ra, instrCount := r.instrCount + 1 } := by
  simp only [refJalr, h, hg]

theorem refJalr_of_error {f : Fault} (hf : writeReg r.cfg r.regs w rb (r.pc + 1) = .error f) :
    refJalr w ra rb r = .fault f := by
  simp only [refJalr, h, hf]

end link

/-- Settles O48: a link is a register write, and register 0 reads 0 whatever was linked. -/
theorem referenceJalr : Obligations.ReferenceJalr := by
  refine fun w ra rb r => ⟨fun hnone => refJalr_of_none hnone w ra rb, fun hlink hrb => ?_,
    fun hlink hrb hfatal => ?_⟩
  · obtain ⟨g, hg⟩ := writeReg_total r.cfg r.regs w rb (r.pc + 1) hrb
    have hread (q : RegIdx) : readReg g q = if q = rb ∧ q ≠ 0#3 then r.pc + 1#32 else r.x q := by
      rw [readReg_writeReg hg]
      by_cases hq : q = rb
      · simp only [hq, RefState.x]; rfl
      · rw [if_neg fun ⟨h, _⟩ => hq h, if_neg fun ⟨h, _⟩ => hq h, RefState.x]
    refine ⟨{ r with regs := g, pc := readReg g ra, instrCount := r.instrCount + 1 }, ?_, hread, ?_, rfl⟩
    · exact refJalr_of_ok hlink hg
    · change readReg g ra = _
      by_cases hra : ra = 0#3
      · rw [hra, if_pos rfl, readReg_zero]
      · simp only [hread, hra, ne_eq, not_false_eq_true, and_true, if_false]
  · have hfault := writeReg_eq_error (g := r.regs) (w := w) (v := r.pc + 1).2 ⟨hrb, hfatal, rfl⟩
    exact refJalr_of_error hlink hfault

/-- What a reference step does when it gives a next state: `exec` on the view, or `jalr`. -/
theorem refStep_eq_next {r t : RefState} (h : refStep r = .next t) : inBounds r.cfg r.pc = true ∧
    (((refEvent r).instr.opcode ≠ .jalr ∧ ∃ u, exec (refEvent r).instr r.view = .next u ∧ r.absorb u = t) ∨
      ∃ ra rb, (refEvent r).instr = .jalr ra rb ∧ refJalr (refWord r) ra rb r = .next t) := by
  cases hpc : inBounds r.cfg r.pc with
  | false => rw [refStep_of_invalid hpc] at h; cases h
  | true =>
    rw [refStep_of_valid hpc] at h
    refine ⟨rfl, ?_⟩
    change refExec (refWord r) (refEvent r).instr r = .next t at h
    by_cases hop : (refEvent r).instr.opcode = .jalr
    · cases hi : (refEvent r).instr with
      | jalr ra rb => rw [hi] at h; exact .inr ⟨ra, rb, rfl, h⟩
      | _ => rw [hi] at hop; cases hop
    · rw [refExec_of_ne_jalr hop] at h
      split at h
      next u hexec => cases h; exact .inl ⟨hop, u, hexec, rfl⟩
      · cases h
      · cases h

/-- A step counts its instruction, and ends the run exactly when that is a `halt`, with pc behind it. -/
theorem refStep_halt {r t : RefState} (h : refStep r = .next t) :
    t.instrCount = r.instrCount + 1 ∧
      ((refEvent r).instr = .halt → t.status = .halted ∧ t.pc = r.pc + 1#32) ∧
      ((refEvent r).instr ≠ .halt → t.status = r.status) := by
  obtain ⟨-, ⟨-, u, hexec, rfl⟩ | ⟨ra, rb, hi, hjalr⟩⟩ := refStep_eq_next h
  · refine ⟨rfl, fun hhalt => ?_, fun hhalt => ?_⟩
    · rw [hhalt] at hexec
      cases hexec
      exact ⟨rfl, rfl⟩
    · obtain ⟨m, g, -, -, rfl⟩ := exec_eq_next.1 hexec
      exact if_neg fun hop => hhalt (eq_halt_of_opcode hop)
  · obtain ⟨hcount, hstatus⟩ : t.instrCount = r.instrCount + 1 ∧ t.status = r.status := by
      unfold refJalr at hjalr
      split at hjalr
      · cases hjalr; exact ⟨rfl, rfl⟩
      · split at hjalr <;> cases hjalr
        exact ⟨rfl, rfl⟩
    exact ⟨hcount, fun hhalt => (nomatch hi.symm.trans hhalt), fun _ => hstatus⟩

/-! ### Runs that halt (45_reference_model.md R139, R140) -/

/-- From `r` the reference run executes the events `es`, a `halt` last and no other before it, and ends in
`u`. -/
inductive RefHalts : RefState → List Event → RefState → Prop
  | halt {r u : RefState} (hr : r.status = .running) (hstep : refStep r = .next u)
      (hhalt : (refEvent r).instr = .halt) : RefHalts r [refEvent r] u
  | step {r t u : RefState} {es : List Event} (hr : r.status = .running) (hstep : refStep r = .next t)
      (hne : (refEvent r).instr ≠ .halt) (h : RefHalts t es u) : RefHalts r (refEvent r :: es) u

theorem refRun_of_not_running {r : RefState} (h : r.status ≠ .running) (k : Nat) :
    refRun k r = r ∧ refTrace k r = [] := by
  cases k with
  | zero => exact ⟨rfl, rfl⟩
  | succ k =>
    unfold refRun refTrace
    cases hr : r.status with
    | running => exact absurd hr h
    | halted => exact ⟨rfl, rfl⟩
    | faulted f => exact ⟨rfl, rfl⟩

theorem refHalts_of_refRun {k : Nat} {r : RefState} (hr : r.status = .running)
    (h : (refRun k r).status = .halted) : RefHalts r (refTrace k r) (refRun k r) := by
  induction k generalizing r with
  | zero => rw [refRun, hr] at h; cases h
  | succ k ih =>
    unfold refRun at h ⊢
    unfold refTrace
    simp only [hr] at h ⊢
    cases hstep : refStep r with
    | fault f => rw [hstep] at h; cases h
    | refused q => rw [hstep, hr] at h; cases h
    | next t =>
      rw [hstep] at h
      obtain ⟨-, hhalt, hne⟩ := refStep_halt hstep
      by_cases hi : (refEvent r).instr = .halt
      · obtain ⟨hrun, htrace⟩ := refRun_of_not_running (r := t) (by rw [(hhalt hi).1]; nofun) k
        simp only [hrun, htrace]
        exact .halt hr hstep hi
      · exact .step hr hstep hi (ih ((hne hi).trans hr) h)

theorem RefHalts.final {r u : RefState} {es : List Event} (h : RefHalts r es u) :
    (∃ ds e, es = ds ++ [e] ∧ e.instr = .halt ∧ u.pc = e.pc + 1#32 ∧ ∀ d ∈ ds, d.instr ≠ .halt) ∧
      u.instrCount = r.instrCount + es.length := by
  induction h with
  | @halt r u hr hstep hhalt =>
    obtain ⟨hcount, hend, -⟩ := refStep_halt hstep
    exact ⟨⟨[], refEvent r, rfl, hhalt, (hend hhalt).2, nofun⟩, hcount⟩
  | @step r t u es hr hstep hne h ih =>
    obtain ⟨⟨ds, e, rfl, hhalt, hpc, hds⟩, hcount⟩ := ih
    obtain ⟨hcount1, -, -⟩ := refStep_halt hstep
    refine ⟨⟨refEvent r :: ds, e, rfl, hhalt, hpc, fun d hd => ?_⟩, ?_⟩
    · rcases List.mem_cons.1 hd with rfl | hd
      · exact hne
      · exact hds d hd
    · rw [hcount, hcount1, List.length_cons]
      omega

/-- Settles O49, by induction over the run that halts. -/
theorem referenceFinalState : Obligations.ReferenceFinalState :=
  fun _ _ hr h => (refHalts_of_refRun hr h).final

end Sys2Proof.Machine
end

section
/-! Proofs that the pipeline runs an instruction as `exec` does (00_scope.md R9, 44_pipeline.md R115): three
cycles to fetch, decode and execute it behind no-ops, that of its memory stage, and that of its writeback. -/

namespace Sys2Proof.Machine

/-! ### Addresses behind pc -/

section address
variable {a : Word} {j : Nat} (h0 : 0 ≤ a.s32) (h : a.s32 + j < 2 ^ 31)
include h0 h

theorem s32_add_ofNat : Word.s32 (a + BitVec.ofNat 32 j) = a.s32 + j := by
  simp only [Word.s32, BitVec.toInt_eq_toNat_cond, BitVec.toNat_add, BitVec.toNat_ofNat] at *
  omega

theorem addressIndex_add_ofNat : addressIndex (a + BitVec.ofNat 32 j) = addressIndex a + j := by
  rw [addressIndex, s32_add_ofNat h0 h, addressIndex]
  omega

end address

/-! ### What the stages make of a word and of the instruction it decodes to -/

/-- What execute hands to the memory stage for the word at pc, from the operands `decodeStage` reads. -/
def executeWord (s : State) (w : Word) : ExMem where
  instr := w
  branchTarget := s.pc + 1#32 + offsetWord w
  aluResult := aluResultOf (decode s.cfg.layout w) (s.x (regA s.cfg.layout w)) (s.x (regB s.cfg.layout w))
    (offsetWord w)
  readRegB := s.x (regB s.cfg.layout w)

/-- The memory stage does the same for a word as for the instruction executed alone. -/
theorem memoryOf_executeWord (s : State) (w : Word) (c : Config) (d : Memory) :
    memoryOf (decode s.cfg.layout w) c d (executeWord s w) =
      memoryOf (decode s.cfg.layout w) c d (executeAlone (decode s.cfg.layout w) s) := by
  unfold executeWord decode
  cases opcodeOf s.cfg.layout w <;> rfl

/-- A completed writeback is the same for any instruction word. -/
theorem writeBack_word {c : Config} {g g' : Vector Word 8} {w : Word} {q : Option (RegIdx × Word)}
    (h : writeBack c g w q = .ok g') (v : Word) : writeBack c g v q = .ok g' := by
  match q with
  | none => exact h
  | some (r, x) => exact writeReg_eq_ok.2 (writeReg_eq_ok.1 h)

theorem executeWord_aluResult_eq_zero {s : State} {w : Word} (h : opcodeOf s.cfg.layout w = .beq) :
    (executeWord s w).aluResult = 0#32 ↔ s.x (regA s.cfg.layout w) = s.x (regB s.cfg.layout w) := by
  have halu : (executeWord s w).aluResult =
      beqAlu (s.x (regA s.cfg.layout w)) (s.x (regB s.cfg.layout w)) := by
    rw [executeWord, decode, h, aluResultOf]
  rw [halu, ← comparisonEqual_iff, beqAlu_equal]

/-! ### Three cycles to the execute stage -/

theorem QuietBack.exists_step {s : State} (hq : QuietBack s) (hpc : ValidAddress s.cfg s.pc)
    (hexecute : executeRejects s.cfg s.idex.instr = false) : ∃ n, Machine.step s = .next n := by
  obtain ⟨n, hn⟩ := exists_cycle.2 ⟨exists_fetchStage.2 hpc, exists_executeStage.2 hexecute,
    exists_memoryStage.2 (by rw [hq.exmem]; simp),
    exists_writebackStage.2 (by rw [hq.memwb_writes]; exact fun ⟨h, _⟩ => nomatch h)⟩
  exact ⟨n, (step_next_of_running hq.status (haltDetected_eq_false_iff.2 hq.memwb_ne_halt)).2 hn⟩

theorem executeRejects_noopWord {c : Config} (h : c.layout.admissible = true) :
    executeRejects c (noopWord c.layout) = false := by
  rw [← Bool.not_eq_true, executeRejects_iff, highBitsClear_noopWord _ h]
  exact fun ⟨_, hbits⟩ => nomatch hbits

theorem quietBack_of_drained {s : State} (hs : s.status = .running)
    (hL : s.cfg.layout.admissible = true) (hd : Drained s) : QuietBack s := by
  obtain ⟨-, -, hexmem, hmemwb⟩ := hd
  have hnoop := opcodeOf_noopWord s.cfg.layout hL
  exact ⟨hs, by rw [hmemwb, hnoop]; nofun, by rw [hmemwb, decode, hnoop]; rfl, by rw [hexmem, hnoop]⟩

/-- Three cycles after `s` with no instruction before it in flight, the word at pc has been executed, and the
two words behind it stand in IDEX and IFID. -/
structure Executed (s t : State) (w : Word) : Prop where
  steps_eq : steps 3 s = .next t
  cfg : t.cfg = s.cfg
  imem : t.imem = s.imem
  regs : t.regs = s.regs
  dmem : t.dmem = s.dmem
  cycleCount : t.cycleCount = s.cycleCount + 3
  pc : t.pc = s.pc + 3#32
  exmem : t.exmem = executeWord s w
  idex : t.idex.instr = s.imem.read (addressIndex s.pc + 1)
  ifid : t.ifid.instr = s.imem.read (addressIndex s.pc + 2)
  cycling : Cycling t
  writes : writesRegOf (decode t.cfg.layout t.memwb.instr) = none

/-- The hypotheses of `StepRunsDecodedInstruction` on the state alone. -/
structure Ready (s : State) : Prop where
  status : s.status = .running
  admissible : s.cfg.layout.admissible = true
  drained : Drained s
  pc_nonneg : 0 ≤ s.pc.s32
  pc_lt : s.pc.s32 + 4 < s.cfg.memSize
  memSize : s.cfg.memSize ≤ 2 ^ 31 - 1
  inert : FollowedByInert s

section Ready
variable {s : State} (h : Ready s)
include h

theorem Ready.validAddress {j : Nat} (hj : j ≤ 4) : ValidAddress s.cfg (s.pc + BitVec.ofNat 32 j) := by
  have h0 := h.pc_nonneg
  have h4 := h.pc_lt
  have hsize := h.memSize
  rw [ValidAddress, s32_add_ofNat h0 (by omega)]
  omega

theorem Ready.addressIndex_pc {j : Nat} (hj : j ≤ 4) :
    addressIndex (s.pc + BitVec.ofNat 32 j) = addressIndex s.pc + j := by
  have h4 := h.pc_lt
  have hsize := h.memSize
  exact addressIndex_add_ofNat h.pc_nonneg (by omega)

theorem Ready.exists_executed
    (hw : executeRejects s.cfg (s.imem.read (addressIndex s.pc)) = false) :
    ∃ t, Executed s t (s.imem.read (addressIndex s.pc)) := by
  obtain ⟨hifid, hidex, -, -⟩ := h.drained
  have hnoop := opcodeOf_noopWord s.cfg.layout h.admissible
  have hreject := executeRejects_noopWord h.admissible
  have hq := quietBack_of_drained h.status h.admissible h.drained
  obtain ⟨s1, h1⟩ := hq.exists_step (by simpa using h.validAddress (j := 0) (by omega))
    (by rw [hidex, hreject])
  obtain ⟨ha1, hregs1, hdmem1, -⟩ := hq.step h1
  have hq1 : QuietBack s1 := hq.next h1 (by rw [hidex, hnoop])
  have hpc1 : s1.pc = s.pc + BitVec.ofNat 32 1 := ha1.pc
  obtain ⟨s2, h2⟩ := hq1.exists_step (by rw [ha1.cfg, hpc1]; exact h.validAddress (by omega))
    (by rw [ha1.cfg, ha1.idex, decodeStage, hifid, hreject])
  obtain ⟨ha2, hregs2, hdmem2, -⟩ := hq1.step h2
  have hq2 : QuietBack s2 := hq1.next h2 (by rw [ha1.cfg, ha1.idex, decodeStage, hifid, hnoop])
  have hpc2 : s2.pc = s.pc + BitVec.ofNat 32 2 := by rw [ha2.pc, ha1.pc, BitVec.add_assoc]; rfl
  obtain ⟨s3, h3⟩ := hq2.exists_step (by rw [ha2.cfg, ha1.cfg, hpc2]; exact h.validAddress (by omega))
    (by rw [ha2.cfg, ha1.cfg, ha2.idex, decodeStage, ha1.ifid]; exact hw)
  obtain ⟨ha3, hregs3, hdmem3, hc3⟩ := hq2.step h3
  exact ⟨s3, {
    steps_eq := by rw [steps_succ_of_next h1, steps_succ_of_next h2, steps_succ_of_next h3]; rfl
    cfg := by rw [ha3.cfg, ha2.cfg, ha1.cfg]
    imem := by rw [ha3.imem, ha2.imem, ha1.imem]
    regs := by rw [hregs3, hregs2, hregs1]
    dmem := by rw [hdmem3, hdmem2, hdmem1]
    cycleCount := by rw [ha3.cycleCount, ha2.cycleCount, ha1.cycleCount]
    pc := by rw [ha3.pc, hpc2, BitVec.add_assoc]; rfl
    exmem := by
      rw [ha3.exmem, ha2.idex, decodeStage, ha1.ifid, State.decodes, State.x, State.x, hregs1, ha2.cfg,
        ha1.cfg]
      rfl
    idex := by rw [ha3.idex, decodeStage, ha2.ifid, ha1.imem, hpc1, h.addressIndex_pc (by omega)]
    ifid := by rw [ha3.ifid, ha2.imem, ha1.imem, hpc2, h.addressIndex_pc (by omega)]
    cycling := hc3
    writes := by rw [ha3.cfg, ha3.memwb_instr, decode, hq2.exmem]; rfl }⟩

end Ready

/-! ### The cycle of the memory stage, and that of writeback -/

/-- One cycle after `Executed`: the memory stage has answered `m` for the word `w`, and what follows it in
EXMEM and IDEX has no effect in the next cycle. -/
structure MemoryDone (s n : State) (w : Word) (m : MemResult) : Prop where
  steps_eq : steps 4 s = .next n
  cfg : n.cfg = s.cfg
  status : n.status = .running
  regs : n.regs = s.regs
  dmem : n.dmem = m.dmem
  cycleCount : n.cycleCount = s.cycleCount + 4
  pc : n.pc = m.branch.getD (s.pc + 4#32)
  memwb : n.memwb = ⟨w, m.writeData⟩
  exmem_lw : opcodeOf s.cfg.layout n.exmem.instr ≠ .lw
  exmem_sw : opcodeOf s.cfg.layout n.exmem.instr ≠ .sw
  exmem_beq : opcodeOf s.cfg.layout n.exmem.instr ≠ .beq
  idex : executeRejects s.cfg n.idex.instr = false

section Executed
variable {s t : State} {w : Word} (ht : Executed s t w)
include ht

theorem Executed.memoryStage_eq : memoryStage t =
    memoryOf (decode s.cfg.layout w) s.cfg s.dmem (executeAlone (decode s.cfg.layout w) s) := by
  rw [memoryStage, ht.exmem, State.decodes, ht.cfg, ht.dmem]
  exact memoryOf_executeWord s w s.cfg s.dmem

theorem Executed.writebackStage_eq : writebackStage t = .ok s.regs := by
  rw [writebackStage, writeRequestOf_eq, State.decodes, ht.writes, ← ht.regs]
  rfl

variable (h : Ready s)
include h

theorem Executed.exists_fetchStage : ∃ f, fetchStage t = .ok f :=
  Machine.exists_fetchStage.2 (by rw [ht.cfg, ht.pc]; exact h.validAddress (j := 3) (by omega))

theorem Executed.exists_executeStage : ∃ e, executeStage t = .ok e := by
  obtain ⟨-, -, -, hreject⟩ := h.inert 1 (.inl rfl)
  exact Machine.exists_executeStage.2 (by rw [ht.cfg, ht.idex]; exact hreject)

/-- A fault of the memory stage comes in the fourth step. -/
theorem Executed.steps_of_memory_error {q : Fault}
    (hm : memoryOf (decode s.cfg.layout w) s.cfg s.dmem (executeAlone (decode s.cfg.layout w) s) = .error q) :
    steps 4 s = .fault q := by
  have hcycle : cycle t = .error q := cycle_eq_error.2 (.inr ⟨ht.exists_fetchStage h,
    .inr ⟨ht.exists_executeStage h, .inl (by rw [ht.memoryStage_eq, hm])⟩⟩)
  rw [steps_add_of_next ht.steps_eq 1, steps, (step_fault_of_running ht.cycling.1 ht.cycling.2).2 hcycle]

theorem Executed.exists_memoryDone {m : MemResult}
    (hm : memoryOf (decode s.cfg.layout w) s.cfg s.dmem (executeAlone (decode s.cfg.layout w) s) = .ok m) :
    ∃ n, MemoryDone s n w m := by
  have hmemory : memoryStage t = .ok m := by rw [ht.memoryStage_eq, hm]
  obtain ⟨n, hn⟩ := exists_cycle.2 ⟨ht.exists_fetchStage h, ht.exists_executeStage h, ⟨m, hmemory⟩,
    ⟨_, ht.writebackStage_eq⟩⟩
  obtain ⟨m', hm', hmemwb, hdmem⟩ := memoryStage_of_cycle hn
  obtain rfl := Except.ok.inj (hmemory.symm.trans hm')
  obtain ⟨hcfg, -, hstatus, hcount, -, -⟩ := cycle_fields hn
  have hcfg : n.cfg = s.cfg := hcfg.trans ht.cfg
  have hbranch := memoryStage_branch hmemory
  have hfront : (opcodeOf s.cfg.layout n.exmem.instr ≠ .lw ∧ opcodeOf s.cfg.layout n.exmem.instr ≠ .sw ∧
      opcodeOf s.cfg.layout n.exmem.instr ≠ .beq) ∧ executeRejects s.cfg n.idex.instr = false := by
    by_cases hb : TakesBranch t
    · obtain ⟨-, hidex, hexmem⟩ := cycle_latches_of_takesBranch hn hb
      have hnoop := opcodeOf_noopWord s.cfg.layout h.admissible
      rw [hidex, hexmem, ht.cfg]
      exact ⟨by simp [ExMem.squashed, hnoop], executeRejects_noopWord h.admissible⟩
    · have ha := advances_of_cycle hn hb
      obtain ⟨hlw, hsw, hbeq, -⟩ := h.inert 1 (.inl rfl)
      obtain ⟨-, -, -, hreject⟩ := h.inert 2 (.inr rfl)
      rw [ha.exmem, ha.idex, decodeStage, ht.idex, ht.ifid]
      exact ⟨⟨hlw, hsw, hbeq⟩, hreject⟩
  obtain ⟨⟨hlw, hsw, hbeq⟩, hreject⟩ := hfront
  exact ⟨n, {
    steps_eq := by
      rw [steps_add_of_next ht.steps_eq 1, steps, (step_next_of_running ht.cycling.1 ht.cycling.2).2 hn]
      rfl
    cfg := hcfg
    status := hstatus.trans ht.cycling.1
    regs := (Except.ok.inj (ht.writebackStage_eq.symm.trans (writebackStage_of_cycle hn))).symm
    dmem := hdmem
    cycleCount := by rw [hcount, ht.cycleCount]
    pc := by
      rw [cycle_pc hn, hbranch, ht.pc, BitVec.add_assoc]
      split <;> rfl
    memwb := by rw [hmemwb, ht.exmem]; rfl
    exmem_lw := hlw
    exmem_sw := hsw
    exmem_beq := hbeq
    idex := hreject }⟩

end Executed

section MemoryDone
variable {s n : State} {w : Word} {m : MemResult} (hn : MemoryDone s n w m)
include hn

theorem MemoryDone.haltDetected_iff : haltDetected n = true ↔ (decode s.cfg.layout w).opcode = .halt := by
  rw [Machine.haltDetected_iff, hn.memwb, hn.cfg, decode_opcode]

/-- In the fifth cycle only fetch and writeback can fault. -/
theorem MemoryDone.memoryStage_eq : ∃ r, memoryStage n = .ok r := by
  rw [exists_memoryStage, hn.cfg]
  exact fun ⟨hop, _⟩ => hop.elim hn.exmem_lw hn.exmem_sw

theorem MemoryDone.exists_executeStage : ∃ e, executeStage n = .ok e :=
  Machine.exists_executeStage.2 (by rw [hn.cfg]; exact hn.idex)

theorem MemoryDone.not_takesBranch : ¬ TakesBranch n :=
  not_takesBranch_of_opcode (by rw [hn.cfg]; exact hn.exmem_beq)

theorem MemoryDone.writebackStage_eq : writebackStage n =
    writeBack s.cfg s.regs w (writeRequestOf (decode s.cfg.layout w) m.writeData) := by
  rw [writebackStage, hn.memwb, State.decodes, hn.cfg, hn.regs]

/-- The fifth step completes with the writeback. -/
theorem MemoryDone.exists_step {g : Vector Word 8} (hhalt : haltDetected n = false)
    (hpc : ValidAddress s.cfg n.pc)
    (hg : writeBack s.cfg s.regs w (writeRequestOf (decode s.cfg.layout w) m.writeData) = .ok g) :
    ∃ u, step n = .next u ∧ u.regs = g ∧ u.dmem = m.dmem ∧ u.pc = n.pc + 1#32 := by
  have hwrite : writebackStage n = .ok g := by rw [hn.writebackStage_eq, hg]
  obtain ⟨u, hu⟩ := exists_cycle.2 ⟨exists_fetchStage.2 (by rw [hn.cfg]; exact hpc), hn.exists_executeStage,
    hn.memoryStage_eq, ⟨g, hwrite⟩⟩
  refine ⟨u, (step_next_of_running hn.status hhalt).2 hu, ?_, ?_, ?_⟩
  · exact (Except.ok.inj (hwrite.symm.trans (writebackStage_of_cycle hu))).symm
  · rw [cycle_dmem hu, if_neg (by rw [hn.cfg]; exact hn.exmem_sw), hn.dmem]
  · rw [cycle_pc hu, if_neg hn.not_takesBranch]

/-- A fault of writeback comes in the fifth step. -/
theorem MemoryDone.steps_of_writeBack_error {q : Fault} (hhalt : haltDetected n = false)
    (hpc : ValidAddress s.cfg n.pc)
    (hg : writeBack s.cfg s.regs w (writeRequestOf (decode s.cfg.layout w) m.writeData) = .error q) :
    steps 5 s = .fault q := by
  have hcycle : cycle n = .error q := cycle_eq_error.2 (.inr ⟨exists_fetchStage.2 (by rw [hn.cfg]; exact hpc),
    .inr ⟨hn.exists_executeStage, .inr ⟨hn.memoryStage_eq, by rw [hn.writebackStage_eq, hg]⟩⟩⟩)
  rw [steps_add_of_next hn.steps_eq 1, steps, (step_fault_of_running hn.status hhalt).2 hcycle]

end MemoryDone

/-! ### The pipeline and `exec` -/

/-- The branch the memory stage hands over: a `beq`'s target when its comparison word is 0. -/
theorem memoryOf_branch {i : Instr} {c : Config} {d : Memory} {l : ExMem} {m : MemResult}
    (h : memoryOf i c d l = .ok m) :
    m.branch = if i.opcode = .beq ∧ l.aluResult = 0#32 then some l.branchTarget else none := by
  rcases memoryOf_eq_ok.1 h with ⟨hop, -, rfl⟩ | ⟨hop, -, rfl⟩ | ⟨hop, rfl⟩ | ⟨-, hop, rfl⟩
  · simp [hop]
  · simp [hop]
  · simp [hop]
  · simp [hop]

theorem MemoryDone.pc_eq {s n : State} {w : Word} {m : MemResult} (hn : MemoryDone s n w m)
    (hm : memoryOf (decode s.cfg.layout w) s.cfg s.dmem (executeAlone (decode s.cfg.layout w) s) = .ok m) :
    n.pc = if (decode s.cfg.layout w).opcode = .beq ∧
        s.x (regA s.cfg.layout w) = s.x (regB s.cfg.layout w)
      then m.branch.getD (s.pc + 1#32) else m.branch.getD (s.pc + 1#32) + 3#32 := by
  rw [← memoryOf_executeWord] at hm
  have hbranch := memoryOf_branch hm
  rw [hn.pc, hbranch]
  have hiff : (decode s.cfg.layout w).opcode = .beq ∧ (executeWord s w).aluResult = 0#32 ↔
      (decode s.cfg.layout w).opcode = .beq ∧ s.x (regA s.cfg.layout w) = s.x (regB s.cfg.layout w) :=
    and_congr_right fun hop => executeWord_aluResult_eq_zero (by rwa [decode_opcode] at hop)
  simp only [hiff]
  split
  · rfl
  · rw [Option.getD_none, Option.getD_none, BitVec.add_assoc]; rfl

/-- From a ready state the pipeline runs the word at pc as `exec` runs the instruction it decodes to. -/
theorem Ready.runsAsExec {s : State} (h : Ready s)
    (hw : executeRejects s.cfg (s.imem.read (addressIndex s.pc)) = false) :
    RunsAsExec s (s.imem.read (addressIndex s.pc))
      (decode s.cfg.layout (s.imem.read (addressIndex s.pc))) := by
  obtain ⟨t, ht⟩ := h.exists_executed hw
  generalize s.imem.read (addressIndex s.pc) = w at ht
  unfold RunsAsExec
  cases hexec : exec (decode s.cfg.layout w) s with
  | refused q => exact exec_ne_refused _ _ q hexec
  | fault f =>
    rcases exec_eq_fault.1 hexec with hmemory | ⟨m, hm, hwrite⟩
    · obtain ⟨-, -, rfl⟩ := memoryOf_eq_error.1 hmemory
      exact ht.steps_of_memory_error h hmemory
    · obtain ⟨hzero, hfatal, rfl⟩ := writeBack_eq_error.1 hwrite
      obtain ⟨n, hn⟩ := ht.exists_memoryDone h hm
      have hop : opcodeOf s.cfg.layout w ≠ .beq ∧ opcodeOf s.cfg.layout w ≠ .halt := by
        rcases writesRegOf_decode_eq_some.1 hzero with ⟨hop | hop, -⟩ | ⟨hop, -⟩ <;> rw [hop] <;>
          exact ⟨nofun, nofun⟩
      have hpc : n.pc = s.pc + 4#32 := by
        rw [hn.pc, memoryOf_branch hm, if_neg fun hb => hop.1 (by rw [← decode_opcode, hb.1])]
        rfl
      refine hn.steps_of_writeBack_error ?_ (hpc ▸ h.validAddress (j := 4) le_rfl)
        (writeBack_eq_error.2 ⟨hzero, hfatal, rfl⟩)
      rw [← Bool.not_eq_true, hn.haltDetected_iff, decode_opcode]
      exact hop.2
  | next e =>
    obtain ⟨m, g, hm, hg, rfl⟩ := exec_eq_next.1 hexec
    obtain ⟨n, hn⟩ := ht.exists_memoryDone h hm
    refine ⟨n, hn.steps_eq, hn.dmem, hn.regs, hn.cycleCount, by rw [hn.memwb], hn.pc_eq hm, ?_, ?_⟩
    · rw [hn.haltDetected_iff, retire, h.status]
      simp
    · intro hrunning hpc
      have hhalt : haltDetected n = false := by
        rw [← Bool.not_eq_true, hn.haltDetected_iff]
        intro hop
        rw [retire, if_pos hop] at hrunning
        cases hrunning
      exact hn.exists_step hhalt hpc (writeBack_word hg w)

/-- Settles O46: its hypotheses are those of `Ready`. -/
theorem stepRunsDecodedInstruction : Obligations.StepRunsDecodedInstruction := by
  intro s hs hL hd h0 h4 hsize hinert w hw
  exact Ready.runsAsExec ⟨hs, hL, hd, h0, h4, hsize, hinert⟩ hw

/-! ### A word placed at the reset state's pc -/

/-- Instruction memory of the reset state with one word placed: that word at address 0, and 0 elsewhere. -/
theorem withFetchWord_reset_read (k w a : Nat) : (State.reset.withFetchWord k w).imem.read a =
    if a = 0 then BitVec.ofNat 32 (w % 2 ^ k) else 0#32 :=
  read_write Memory.empty 0 a _ rfl

/-- The reset state with one word placed is ready, whatever the word: the words behind it are 0. -/
theorem ready_withFetchWord (k w : Nat) : Ready (State.reset.withFetchWord k w) where
  status := rfl
  admissible := rfl
  drained := ⟨rfl, rfl, rfl, rfl⟩
  pc_nonneg := (by decide : 0 ≤ Word.s32 0#32)
  pc_lt := (by decide : Word.s32 0#32 + 4 < (65536 : Nat))
  memSize := (by decide : 65536 ≤ 2 ^ 31 - 1)
  inert := by
    intro j hj
    have hzero : (State.reset.withFetchWord k w).imem.read
        (addressIndex (State.reset.withFetchWord k w).pc + j) = 0#32 := by
      rw [withFetchWord_reset_read]
      exact if_neg (by omega)
    have hadd : opcodeOf (State.reset.withFetchWord k w).cfg.layout 0#32 = .add := by
      rw [← decode_opcode, decode_zero]; rfl
    simp only [hzero, hadd]
    exact ⟨nofun, nofun, nofun, executeRejects_of_ignore rfl _⟩

/-- Settles O58: the state with the placed word is ready, so the word runs as `exec` runs it. -/
theorem placedWordRuns : Obligations.PlacedWordRuns := by
  intro k w hk s word
  have hready : Ready s := ready_withFetchWord k w
  have hread : s.imem.read (addressIndex s.pc) = word := withFetchWord_reset_read k w 0
  have hruns := hready.runsAsExec (executeRejects_of_ignore rfl _)
  rw [hread] at hruns
  refine ⟨rfl, withFetchWord_reset_read k w, ?_, decode .std word, ?_, hruns⟩
  · have hq := quietBack_of_drained hready.status hready.admissible hready.drained
    obtain ⟨s1, h1⟩ := hq.exists_step (by simpa using hready.validAddress (j := 0) (by omega))
      (executeRejects_of_ignore rfl _)
    obtain ⟨ha, -⟩ := hq.step h1
    exact ⟨s1, h1, by rw [ha.ifid, hread], by rw [ha.pc]; rfl⟩
  · have hlt : w % 2 ^ k < 2 ^ 32 :=
      (Nat.mod_lt w (Nat.two_pow_pos k)).trans_le (Nat.pow_le_pow_right (by decide) hk)
    rw [decodeTableWord, decodeNumber, if_pos hlt]

end Sys2Proof.Machine
end

section
/-! Proofs about a pipeline that follows a reference run (45_reference_model.md R144): what each latch owes to
the registers and to data memory, and how a cycle settles it. -/

namespace Sys2Proof.Machine

/-! ### What an instruction in flight still does -/

/-- What execute hands on for the contents of IDEX. -/
def executeOutput (L : Layout) (d : IdEx) : ExMem where
  instr := d.instr
  branchTarget := d.pcPlus1 + d.offset
  aluResult := aluResultOf (decode L d.instr) d.readRegA d.readRegB d.offset
  readRegB := d.readRegB

/-- The instruction in EXMEM takes data memory, in its memory stage, and then the registers, in writeback,
from those of `q` to those of `t`, and hands over the branch `b`. -/
def Commits (c : Config) (b : Option Word) (l : ExMem) (q t : RefState) : Prop :=
  ∃ v, memoryOf (decode c.layout l.instr) c q.mem l = .ok ⟨v, t.mem, b⟩ ∧
    writeBack c q.regs l.instr (writeRequestOf (decode c.layout l.instr) v) = .ok t.regs

/-- It does so without a branch, and is no `halt`. -/
structure Passes (c : Config) (l : ExMem) (q t : RefState) : Prop where
  commits : Commits c none l q t
  ne_halt : opcodeOf c.layout l.instr ≠ .halt

/-- A no-op in a latch owes nothing. -/
theorem passes_of_noop {c : Config} {l : ExMem} (h : opcodeOf c.layout l.instr = .noop) (q : RefState) :
    Passes c l q q := by
  refine ⟨⟨l.aluResult, ?_, ?_⟩, by rw [h]; nofun⟩ <;> rw [decode, h] <;> rfl

/-- The instruction in MEMWB leaves the registers of `q`; data memory is that of `q` already. -/
structure Retires (c : Config) (M : Memory) (s : State) (q : RefState) : Prop where
  cfg : s.cfg = c
  imem : s.imem = M
  status : s.status = .running
  regs : writebackStage s = .ok q.regs
  dmem : s.dmem = q.mem

/-- A cycle settles what the instruction in MEMWB owes, and half of what the one in EXMEM does. -/
theorem Retires.exists_cycle {c : Config} {M : Memory} {s : State} {q t : RefState} {b : Option Word}
    (hs : Retires c M s q) (hexmem : Commits c b s.exmem q t)
    (hidex : executeRejects c s.idex.instr = false) (hpc : ValidAddress c s.pc) :
    ∃ n, cycle s = .ok n ∧ Retires c M n t ∧ n.regs = q.regs ∧
      b = if TakesBranch s then some s.exmem.branchTarget else none := by
  obtain ⟨rfl, rfl, hstatus, hregs, hdmem⟩ := hs
  obtain ⟨v, hm, hwrite⟩ := hexmem
  rw [← hdmem] at hm
  have hmemory : memoryStage s = .ok ⟨v, t.mem, b⟩ := hm
  obtain ⟨n, hn⟩ := Machine.exists_cycle.2
    ⟨exists_fetchStage.2 hpc, exists_executeStage.2 hidex, ⟨_, hmemory⟩, ⟨_, hregs⟩⟩
  obtain ⟨m, hm', hmemwb, hnd⟩ := memoryStage_of_cycle hn
  obtain rfl := Except.ok.inj (hmemory.symm.trans hm')
  have hnregs : n.regs = q.regs := (Except.ok.inj (hregs.symm.trans (writebackStage_of_cycle hn))).symm
  obtain ⟨hcfg, himem, hnstatus, -, -, -⟩ := cycle_fields hn
  refine ⟨n, hn, ⟨hcfg, himem, hnstatus.trans hstatus, ?_, hnd⟩, hnregs, memoryStage_branch hmemory⟩
  rw [writebackStage, hmemwb, State.decodes, hcfg, hnregs]
  exact hwrite

/-- A cycle of a run that takes no branch, with the registers `g` after it. -/
structure MovesOn (s n : State) (g : Vector Word 8) : Prop where
  run : ∀ k, run (k + 1) s = run k n
  advances : Advances s n
  regs : n.regs = g

theorem MovesOn.exmem {s n : State} {g : Vector Word 8} (h : MovesOn s n g) :
    n.exmem = executeOutput s.cfg.layout s.idex :=
  h.advances.exmem

theorem Retires.exists_movesOn {c : Config} {M : Memory} {s : State} {q t : RefState}
    (hs : Retires c M s q) (hhalt : haltDetected s = false) (hexmem : Passes c s.exmem q t)
    (hidex : executeRejects c s.idex.instr = false) (hpc : ValidAddress c s.pc) :
    ∃ n, MovesOn s n q.regs ∧ Retires c M n t ∧ haltDetected n = false := by
  obtain ⟨n, hn, hret, hregs, hb⟩ := hs.exists_cycle hexmem.commits hidex hpc
  have hb : ¬ TakesBranch s := fun h => by rw [if_pos h] at hb; cases hb
  refine ⟨n, ⟨run_succ_of_ok hs.status hhalt hn, advances_of_cycle hn hb, hregs⟩, hret, ?_⟩
  exact (cycling_of_cycle hs.status hn (by rw [hs.cfg]; exact hexmem.ne_halt)).2

/-! ### The reference run, three instructions ahead of the registers -/

/-- The pipeline has fetched all that the reference run has executed up to `q0`, from where it fetches next;
the instructions in EXMEM, IDEX and IFID lead from `q3` over `q2` and `q1` to `q0`. -/
structure Follows (c : Config) (M : Memory) (s : State) (q3 q2 q1 q0 : RefState) : Prop where
  back : Retires c M s q3
  no_halt : haltDetected s = false
  exmem : Passes c s.exmem q3 q2
  idex_accepted : executeRejects c s.idex.instr = false
  idex : Passes c (executeOutput c.layout s.idex) q2 q1
  ifid_accepted : executeRejects c s.ifid.instr = false
  ifid : Passes c (executeOutput c.layout (decodeStage s)) q1 q0
  pc : s.pc = q0.pc

/-- Three cycles after `s` the word fetched at `q0`'s pc is in EXMEM of `l`, and all before it has committed; what
was fetched behind it has had no effect. -/
structure LastInFlight (c : Config) (M : Memory) (s l : State) (b : Option Word) (q0 t : RefState) :
    Prop where
  run : ∀ k, run (k + 3) s = run k l
  cycleCount : l.cycleCount = s.cycleCount + 3
  back : Retires c M l q0
  no_halt : haltDetected l = false
  exmem : Commits c b l.exmem q0 t
  exmem_instr : l.exmem.instr = M.read (addressIndex q0.pc)
  idex_accepted : executeRejects c l.idex.instr = false
  pc : l.pc = q0.pc + 3#32

section Follows
variable {c : Config} {M : Memory} {s : State} {q3 q2 q1 q0 t : RefState}

/-- A state whose three younger latches hold no-ops owes only what its MEMWB does. -/
theorem follows_of_noops (hL : c.layout.admissible = true) (hs : Retires c M s t)
    (hhalt : haltDetected s = false) (hexmem : s.exmem.instr = noopWord c.layout)
    (hidex : s.idex.instr = noopWord c.layout) (hifid : s.ifid.instr = noopWord c.layout)
    (hpc : s.pc = t.pc) : Follows c M s t t t t := by
  have hnoop := opcodeOf_noopWord c.layout hL
  have hreject := executeRejects_noopWord hL
  exact ⟨hs, hhalt, passes_of_noop (by rw [hexmem, hnoop]) t, by rw [hidex, hreject],
    passes_of_noop (by rw [executeOutput, hidex, hnoop]) t, by rw [hifid, hreject],
    passes_of_noop (by rw [executeOutput, decodeStage, hifid, hnoop]) t, hpc⟩

variable (h : Follows c M s q3 q2 q1 q0)
include h

/-- The next cycle fetches the word at `q0`'s pc; the three instructions in flight go on by one latch. -/
theorem Follows.exists_movesOn (hpc : ValidAddress c q0.pc) : ∃ n, MovesOn s n q3.regs ∧
    Retires c M n q2 ∧ haltDetected n = false ∧ Passes c n.exmem q2 q1 ∧
    executeRejects c n.idex.instr = false ∧ Passes c (executeOutput c.layout n.idex) q1 q0 := by
  obtain ⟨n, hmove, hback, hhalt⟩ := h.back.exists_movesOn h.no_halt h.exmem h.idex_accepted (by rwa [h.pc])
  refine ⟨n, hmove, hback, hhalt, ?_, ?_, ?_⟩
  · rw [hmove.exmem, h.back.cfg]; exact h.idex
  · rw [hmove.advances.idex]; exact h.ifid_accepted
  · rw [hmove.advances.idex]; exact h.ifid

/-- If the word fetched next goes on too, the pipeline follows the reference run by one more instruction. -/
theorem Follows.next (hpc : ValidAddress c q0.pc) (ht : t.pc = q0.pc + 1#32)
    (hword : executeRejects c (M.read (addressIndex q0.pc)) = false)
    (hissue : ∀ n, n.cfg = c → n.ifid = ⟨M.read (addressIndex q0.pc), q0.pc + 1#32⟩ → n.regs = q3.regs →
      Passes c (executeOutput c.layout (decodeStage n)) q0 t) :
    ∃ n, MovesOn s n q3.regs ∧ Follows c M n q2 q1 q0 t := by
  obtain ⟨n, hmove, hback, hhalt, hexmem, hreject, hidex⟩ := h.exists_movesOn hpc
  have hifid : n.ifid = ⟨M.read (addressIndex q0.pc), q0.pc + 1#32⟩ := by
    rw [hmove.advances.ifid, h.back.imem, h.pc]
  refine ⟨n, hmove, hback, hhalt, hexmem, hreject, hidex, by rw [hifid]; exact hword,
    hissue n hback.cfg hifid hmove.regs, by rw [hmove.advances.pc, h.pc, ht]⟩

/-- Three cycles take the word at `q0`'s pc to EXMEM, if execute accepts it and the word behind it. -/
theorem Follows.exists_lastInFlight {b : Option Word}
    (hpc : ∀ j ≤ 2, ValidAddress c (q0.pc + BitVec.ofNat 32 j))
    (hword : executeRejects c (M.read (addressIndex q0.pc)) = false)
    (hnext : executeRejects c (M.read (addressIndex (q0.pc + 1#32))) = false)
    (hissue : ∀ n, n.cfg = c → n.ifid = ⟨M.read (addressIndex q0.pc), q0.pc + 1#32⟩ → n.regs = q3.regs →
      Commits c b (executeOutput c.layout (decodeStage n)) q0 t) :
    ∃ l, LastInFlight c M s l b q0 t := by
  obtain ⟨n1, hmove1, hback1, hhalt1, hexmem1, hreject1, hidex1⟩ :=
    h.exists_movesOn (by simpa using hpc 0 (by omega))
  have hpc1 : n1.pc = q0.pc + 1#32 := by rw [hmove1.advances.pc, h.pc]
  have hifid1 : n1.ifid = ⟨M.read (addressIndex q0.pc), q0.pc + 1#32⟩ := by
    rw [hmove1.advances.ifid, h.back.imem, h.pc]
  obtain ⟨n2, hmove2, hback2, hhalt2⟩ := hback1.exists_movesOn hhalt1 hexmem1 hreject1
    (by rw [hpc1]; exact hpc 1 (by omega))
  have hpc2 : n2.pc = q0.pc + 2#32 := by rw [hmove2.advances.pc, hpc1, BitVec.add_assoc]; rfl
  have hexmem2 : Passes c n2.exmem q1 q0 := by rw [hmove2.exmem, hback1.cfg]; exact hidex1
  obtain ⟨n3, hmove3, hback3, hhalt3⟩ := hback2.exists_movesOn hhalt2 hexmem2
    (by rw [hmove2.advances.idex, decodeStage, hifid1]; exact hword) (by rw [hpc2]; exact hpc 2 le_rfl)
  have hexmem3 : n3.exmem = executeOutput c.layout (decodeStage n1) := by
    rw [hmove3.exmem, hback2.cfg, hmove2.advances.idex]
  exact ⟨n3, {
    run := fun k => by rw [hmove1.run, hmove2.run, hmove3.run]
    cycleCount := by
      rw [hmove3.advances.cycleCount, hmove2.advances.cycleCount, hmove1.advances.cycleCount]
    back := hback3
    no_halt := hhalt3
    exmem := by rw [hexmem3]; exact hissue n1 hback1.cfg hifid1 hmove1.regs
    exmem_instr := by rw [hexmem3, executeOutput, decodeStage, hifid1]
    idex_accepted := by
      rw [hmove3.advances.idex, decodeStage, hmove2.advances.ifid, hback1.imem, hpc1]
      exact hnext
    pc := by rw [hmove3.advances.pc, hpc2, BitVec.add_assoc]; rfl }⟩

end Follows

section LastInFlight
variable {c : Config} {M : Memory} {s l n : State} {b : Option Word} {q0 t : RefState}
  (h : LastInFlight c M s l b q0 t)
include h

/-- The fourth cycle is the word's memory stage. -/
theorem LastInFlight.exists_cycle (hpc : ValidAddress c (q0.pc + 3#32)) : ∃ n, cycle l = .ok n ∧
    Retires c M n t ∧ n.regs = q0.regs ∧ b = if TakesBranch l then some l.exmem.branchTarget else none :=
  h.back.exists_cycle h.exmem h.idex_accepted (by rwa [h.pc])

theorem LastInFlight.run_of_cycle (hn : cycle l = .ok n) (k : Nat) :
    Machine.run (k + 4) s = Machine.run k n := by
  rw [← run_succ_of_ok h.back.status h.no_halt hn, ← h.run]

theorem LastInFlight.cycleCount_of_cycle (hn : cycle l = .ok n) : n.cycleCount = s.cycleCount + 4 := by
  obtain ⟨-, -, -, hcount, -, -⟩ := cycle_fields hn
  rw [hcount, h.cycleCount]

end LastInFlight

end Sys2Proof.Machine
end

section
/-! Proof of the equivalence of the pipeline and the reference model (45_reference_model.md R144): one
executed instruction, the history of a reference run, and the induction over a run that halts. -/

namespace Sys2Proof.Machine

/-! ### One executed instruction -/

/-- The registers an instruction uses are all that its execution reads of decode's latch. -/
theorem memoryOf_decodeStage {n : State} {r : RefState} {w : Word} (hcfg : n.cfg = r.cfg)
    (hifid : n.ifid = ⟨w, r.pc + 1#32⟩)
    (huses : ∀ q ∈ usesRegs (decode r.cfg.layout w), n.x q = r.x q) (c : Config) (d : Memory) :
    memoryOf (decode r.cfg.layout w) c d (executeOutput r.cfg.layout (decodeStage n)) =
      memoryOf (decode r.cfg.layout w) c d (executeWord r.view w) := by
  unfold executeOutput decodeStage executeWord
  rw [hifid, hcfg]
  cases hop : opcodeOf r.cfg.layout w with
  | add | nor | sw | beq =>
    have hA := huses (regA r.cfg.layout w) (by simp [decode, hop, usesRegs])
    have hB := huses (regB r.cfg.layout w) (by simp [decode, hop, usesRegs])
    rw [hA, hB]
    rfl
  | lw =>
    have hA := huses (regA r.cfg.layout w) (by simp [decode, hop, usesRegs])
    simp only [decode, hop, hA, view_cfg]
    rfl
  | jalr | halt | noop =>
    simp only [decode, hop, view_cfg]
    rfl

/-- No reference step but a linking `jalr` is anything but `exec` on the view. -/
theorem exec_of_refStep {r t : RefState} (h : refStep r = .next t)
    (hjalr : r.cfg.refJalr = .none ∨ (refEvent r).instr.opcode ≠ .jalr) :
    ValidAddress r.cfg r.pc ∧ ∃ u, exec (refEvent r).instr r.view = .next u ∧ r.absorb u = t := by
  obtain ⟨hpc, ⟨-, hexec⟩ | ⟨ra, rb, hi, hstep⟩⟩ := refStep_eq_next h
  · exact ⟨(inBounds_iff _ _).1 hpc, hexec⟩
  · have hnone : r.cfg.refJalr = .none := hjalr.resolve_right fun hop => hop (by rw [hi]; rfl)
    rw [refJalr_of_none hnone] at hstep
    cases hstep
    exact ⟨(inBounds_iff _ _).1 hpc, _, by rw [hi]; rfl, rfl⟩

/-- An executed instruction as the stages see it: the memory stage's answer, and the state after it. -/
structure Executes (r t : RefState) (m : MemResult) : Prop where
  memory : memoryOf (refEvent r).instr r.cfg r.mem (executeWord r.view (refWord r)) = .ok m
  writeback : writeBack r.cfg r.regs (refWord r) (writeRequestOf (refEvent r).instr m.writeData) = .ok t.regs
  mem : t.mem = m.dmem
  pc : t.pc = m.branch.getD (r.pc + 1#32)
  cfg : t.cfg = r.cfg

theorem exists_executes {r t : RefState} (h : refStep r = .next t)
    (hjalr : r.cfg.refJalr = .none ∨ (refEvent r).instr.opcode ≠ .jalr) :
    ValidAddress r.cfg r.pc ∧ ∃ m, Executes r t m := by
  obtain ⟨hpc, u, hexec, rfl⟩ := exec_of_refStep h hjalr
  obtain ⟨m, g, hm, hg, rfl⟩ := exec_eq_next.1 hexec
  exact ⟨hpc, m, (memoryOf_executeWord r.view (refWord r) r.cfg r.mem).trans hm, writeBack_word hg _, rfl,
    rfl, rfl⟩

theorem taken_iff (r : RefState) : (refEvent r).taken = true ↔ (refEvent r).instr.opcode = .beq ∧
    r.x (regA r.cfg.layout (refWord r)) = r.x (regB r.cfg.layout (refWord r)) := by
  simp only [refEvent, decode]
  cases opcodeOf r.cfg.layout (refWord r) <;> simp [takenIn, Instr.opcode]

/-- An event's store is what the memory stage of a `sw` writes. -/
theorem store_eq (r : RefState) : (refEvent r).store = if (refEvent r).instr.opcode = .sw
    then some (addressIndex (executeWord r.view (refWord r)).aluResult,
      (executeWord r.view (refWord r)).readRegB) else none := by
  simp only [refEvent, decode_opcode, executeWord, view_cfg]
  cases hop : opcodeOf r.cfg.layout (refWord r) <;> simp only [decode, hop] <;> rfl

section Executes
variable {r t : RefState} {m : MemResult} (h : Executes r t m)
include h

/-- The pipeline commits the word as the reference model executes it, once decode reads what it uses. -/
theorem Executes.commits {n : State} (hcfg : n.cfg = r.cfg) (hifid : n.ifid = ⟨refWord r, r.pc + 1#32⟩)
    (huses : ∀ q ∈ usesRegs (refEvent r).instr, n.x q = r.x q) :
    Commits r.cfg m.branch (executeOutput r.cfg.layout (decodeStage n)) r t := by
  have hinstr : (executeOutput r.cfg.layout (decodeStage n)).instr = refWord r := by
    rw [executeOutput, decodeStage, hifid]
  refine ⟨m.writeData, ?_, ?_⟩
  · rw [hinstr, memoryOf_decodeStage hcfg hifid huses, h.mem]
    exact h.memory
  · rw [hinstr]
    exact h.writeback

theorem Executes.branch : m.branch = if (refEvent r).taken = true then some t.pc else none := by
  have hbranch := memoryOf_branch h.memory
  have htaken : (refEvent r).taken = true ↔
      (refEvent r).instr.opcode = .beq ∧ (executeWord r.view (refWord r)).aluResult = 0#32 := by
    rw [taken_iff]
    refine and_congr_right fun hop => (executeWord_aluResult_eq_zero (s := r.view) ?_).symm
    rwa [refEvent, decode_opcode] at hop
  rw [h.pc, hbranch]
  simp only [htaken]
  split <;> rfl

theorem Executes.pc_of_not_taken (htaken : (refEvent r).taken = false) : t.pc = r.pc + 1#32 := by
  rw [h.pc, h.branch, htaken]
  rfl

/-- A `sw` writes data memory, and no other instruction does. -/
theorem Executes.mem_eq : t.mem = r.mem ∧ (refEvent r).store = none ∨
    ∃ a v, t.mem = r.mem.write a v ∧ (refEvent r).store = some (a, v) := by
  rw [store_eq, h.mem]
  by_cases hop : (refEvent r).instr.opcode = .sw
  · rcases memoryOf_eq_ok.1 h.memory with ⟨hlw, -⟩ | ⟨-, -, rfl⟩ | ⟨hbeq, -⟩ | ⟨hacc, -⟩
    · rw [hop] at hlw; cases hlw
    · exact .inr ⟨_, _, rfl, if_pos hop⟩
    · rw [hop] at hbeq; cases hbeq
    · exact absurd hop ((accessesMemory_eq_false_iff _).1 hacc).2
  · exact .inl ⟨memoryOf_dmem h.memory hop, if_neg hop⟩

theorem Executes.mem_wf (hwf : r.mem.wf = true) : t.mem.wf = true := by
  obtain ⟨hmem, -⟩ | ⟨a, v, hmem, -⟩ := h.mem_eq <;> rw [hmem]
  · exact hwf
  · exact write_wf _ a v hwf

theorem Executes.x (q : RegIdx) : t.x q =
    if writesRegOf (refEvent r).instr = some q ∧ q ≠ 0#3 then m.writeData else r.x q :=
  readReg_writeBack h.writeback q

end Executes

/-! ### The history of a reference run -/

/-- A register whose value in `q` is not that in `r` was written by one of the last `d` events, and no taken
branch has come after that one. -/
def WrittenWithin (past : List Event) (d : Nat) (q r : RefState) : Prop :=
  ∀ a, q.x a ≠ r.x a → a ≠ 0#3 ∧ ∃ i e, past[i]? = some e ∧ past.length ≤ i + d ∧
    writesRegOf e.instr = some a ∧ ∀ k f, i < k → past[k]? = some f → f.taken = false

/-- Memory differs from the image only where an event stored another word than the image's. -/
def AgreesWith (image : Memory) (past : List Event) (r : RefState) : Prop :=
  ∀ a, (∀ e ∈ past, ∀ v, e.store = some (a, v) → v = image.read a) → r.mem.read a = image.read a

theorem writtenWithin_self (past : List Event) (d : Nat) (r : RefState) : WrittenWithin past d r r :=
  fun _ h => absurd rfl h

section history
variable {image : Memory} {past : List Event} {r t : RefState} {m : MemResult} (h : Executes r t m)
include h

theorem WrittenWithin.step {d : Nat} {q : RefState} (hq : WrittenWithin past d q r)
    (htaken : (refEvent r).taken = false) : WrittenWithin (past ++ [refEvent r]) (d + 1) q t := by
  intro a ha
  by_cases hold : q.x a = r.x a
  · have hwrite : writesRegOf (refEvent r).instr = some a ∧ a ≠ 0#3 := by
      by_contra hnot
      rw [h.x, if_neg hnot] at ha
      exact ha hold
    refine ⟨hwrite.2, past.length, refEvent r, by simp, by simp, hwrite.1, fun k f hk hf => ?_⟩
    rw [List.getElem?_eq_none (by simp; omega)] at hf
    cases hf
  · obtain ⟨ha0, i, e, hi, hlen, hwrite, hafter⟩ := hq a hold
    have hlt : i < past.length := (List.getElem?_eq_some_iff.1 hi).1
    refine ⟨ha0, i, e, by rw [List.getElem?_append_left hlt, hi], by simp; omega, hwrite,
      fun k f hk hf => ?_⟩
    rcases Nat.lt_or_ge k past.length with hk' | hk'
    · rw [List.getElem?_append_left hk'] at hf
      exact hafter k f hk hf
    · rw [List.getElem?_append_right hk', List.getElem?_singleton] at hf
      split at hf
      · cases hf; exact htaken
      · cases hf

theorem AgreesWith.step (hr : AgreesWith image past r) (hwf : r.mem.wf = true) :
    AgreesWith image (past ++ [refEvent r]) t := by
  intro a ha
  have hpast : r.mem.read a = image.read a := hr a fun e he => ha e (List.mem_append_left _ he)
  obtain ⟨hmem, -⟩ | ⟨b, v, hmem, hstore⟩ := h.mem_eq <;> rw [hmem]
  · exact hpast
  · rw [read_write _ _ _ _ hwf]
    split
    next hab => exact ha (refEvent r) (by simp) v (by rw [hstore, hab])
    · exact hpast

end history

/-! ### The conditions of the equivalence, at one instruction -/

/-- The conditions of 45_reference_model.md R144 on the events of a run. -/
structure Conditions (c : Config) (image : Memory) (es : List Event) : Prop where
  hazardFree : HazardFree es
  noLinkingJalr : NoLinkingJalr c es
  noExecutedStore : NoExecutedStore image es
  speculation : SpeculationInBounds c es
  highBits : HighBitsClearWhereExecuted c image es

theorem getElem?_append_cons (past rest : List Event) (e : Event) :
    (past ++ e :: rest)[past.length]? = some e := by
  simp

section Conditions
variable {c : Config} {image : Memory} {past rest : List Event} {e : Event}
  (h : Conditions c image (past ++ e :: rest))
include h

theorem Conditions.jalr : c.refJalr = .none ∨ e.instr.opcode ≠ .jalr :=
  h.noLinkingJalr.imp_right fun hall => hall e List.mem_append_cons_self

theorem Conditions.accepts : executeRejects c e.word = false := by
  rcases h.highBits with hignore | hclear
  · exact executeRejects_of_ignore hignore _
  · rw [← Bool.not_eq_true, executeRejects_iff, (hclear e (List.mem_append_cons_self)).1]
    exact fun ⟨_, hbits⟩ => nomatch hbits

theorem Conditions.accepts_next (he : e.taken = true ∨ e.instr = .halt) :
    executeRejects c (image.read (addressIndex e.pc + 1)) = false := by
  rcases h.highBits with hignore | hclear
  · exact executeRejects_of_ignore hignore _
  · rw [← Bool.not_eq_true, executeRejects_iff, (hclear e (List.mem_append_cons_self)).2 he]
    exact fun ⟨_, hbits⟩ => nomatch hbits

/-- Decode reads of a word's registers what the reference run has there: no instruction still in flight writes
one of them. -/
theorem Conditions.x_eq {q r : RefState} (hq : WrittenWithin past 3 q r) :
    ∀ a ∈ usesRegs e.instr, q.x a = r.x a := by
  intro a ha
  by_contra hne
  obtain ⟨ha0, i, f, hi, hlen, hwrite, hafter⟩ := hq a hne
  have hlt : i < past.length := (List.getElem?_eq_some_iff.1 hi).1
  have hi' : (past ++ e :: rest)[i]? = some f := by rw [List.getElem?_append_left hlt, hi]
  have he := getElem?_append_cons past rest e
  rcases h.hazardFree i past.length f e a hi' he hlt hwrite ha ha0 with hfar | ⟨k, g, hik, hk, hg, htaken⟩
  · omega
  · rw [List.getElem?_append_left hk] at hg
    rw [hafter k g hik hg] at htaken
    cases htaken

/-- The word at the event's address is still the image's. -/
theorem Conditions.read_eq {r : RefState} (hr : AgreesWith image past r) :
    r.mem.read (addressIndex e.pc) = image.read (addressIndex e.pc) := by
  refine hr _ fun f hf v hstore => ?_
  obtain ⟨i, hi⟩ := List.mem_iff_getElem?.1 hf
  have hlt : i < past.length := (List.getElem?_eq_some_iff.1 hi).1
  have hi' : (past ++ e :: rest)[i]? = some f := by rw [List.getElem?_append_left hlt, hi]
  exact h.noExecutedStore i past.length f e _ v hi' (getElem?_append_cons past rest e) hlt hstore rfl

end Conditions

/-! ### The induction over a run that halts -/

/-- The pipeline follows the reference run, which has executed `past` and is at `r`. -/
structure Simulates (c : Config) (image : Memory) (past : List Event) (s : State) (r : RefState) : Prop where
  follows : ∃ q3 q2 q1, Follows c image s q3 q2 q1 r ∧ WrittenWithin past 1 q1 r ∧
    WrittenWithin past 2 q2 r ∧ WrittenWithin past 3 q3 r
  agrees : AgreesWith image past r
  wf : r.mem.wf = true
  cfg : r.cfg = c

/-- A pipeline run that has halted as the reference run in `u`, after `n` cycles. -/
structure HaltsAs (t : State) (u : RefState) (n : Nat) : Prop where
  status : t.status = .halted
  regs : t.regs = u.regs
  dmem : t.dmem = u.mem
  cycleCount : t.cycleCount = n
  pc : t.pc = u.pc + 3#32

section Simulates
variable {c : Config} {image : Memory} {past rest : List Event} {s : State} {r t : RefState}
  (hc : c.admissible = true) (hs : Simulates c image past s r)
  (hcond : Conditions c image (past ++ refEvent r :: rest)) (hstep : refStep r = .next t)
include hc hs hcond hstep

/-- An instruction that is neither a taken branch nor a `halt` costs one cycle. -/
theorem Simulates.next (htaken : (refEvent r).taken = false) (hne : (refEvent r).instr ≠ .halt) :
    ∃ n, (∀ k, run (k + 1) s = run k n) ∧ n.cycleCount = s.cycleCount + 1 ∧
      Simulates c image (past ++ [refEvent r]) n t := by
  obtain ⟨⟨q3, q2, q1, hfollows, h1, h2, h3⟩, hagrees, hwf, rfl⟩ := hs
  obtain ⟨hpc, m, hex⟩ := exists_executes hstep hcond.jalr
  have hword : image.read (addressIndex r.pc) = refWord r := (hcond.read_eq hagrees).symm
  have huses := hcond.x_eq h3
  have hpct := hex.pc_of_not_taken htaken
  obtain ⟨n, hmove, hn⟩ := hfollows.next hpc hpct (by rw [hword]; exact hcond.accepts) (by
    intro n hcfg hifid hregs
    rw [hword] at hifid
    have hcommits := hex.commits hcfg hifid fun q hq => by rw [State.x, hregs]; exact huses q hq
    rw [hex.branch, htaken] at hcommits
    refine ⟨hcommits, ?_⟩
    rw [executeOutput, decodeStage, hifid]
    exact fun hop => hne (eq_halt_of_opcode ((decode_opcode _ _).trans hop)))
  have h0 := (writtenWithin_self past 0 r).step hex htaken
  exact ⟨n, hmove.run, hmove.advances.cycleCount,
    ⟨q2, q1, r, hn, h0, h1.step hex htaken, h2.step hex htaken⟩,
    hagrees.step hex hwf, hex.mem_wf hwf, hex.cfg⟩

/-- A taken branch or a `halt` comes to EXMEM as the last instruction in flight that has an effect. -/
theorem Simulates.exists_lastInFlight (he : (refEvent r).taken = true ∨ (refEvent r).instr = .halt) :
    ValidAddress c (r.pc + 3#32) ∧
      ∃ l, LastInFlight c image s l (if (refEvent r).taken = true then some t.pc else none) r t := by
  obtain ⟨⟨q3, q2, q1, hfollows, -, -, h3⟩, hagrees, -, rfl⟩ := hs
  obtain ⟨⟨h0, -⟩, m, hex⟩ := exists_executes hstep hcond.jalr
  obtain ⟨-, -, hsize⟩ := admissible_iff.1 hc
  have hword : image.read (addressIndex r.pc) = refWord r := (hcond.read_eq hagrees).symm
  have hbound : r.pc.s32 + 3 < r.cfg.memSize :=
    hcond.speculation (refEvent r) List.mem_append_cons_self he
  have hvalid (j : Nat) (hj : j ≤ 3) : ValidAddress r.cfg (r.pc + BitVec.ofNat 32 j) := by
    rw [ValidAddress, s32_add_ofNat h0 (by omega)]
    omega
  have hnext : addressIndex (r.pc + 1#32) = addressIndex r.pc + 1 :=
    addressIndex_add_ofNat (j := 1) h0 (by omega)
  refine ⟨hvalid 3 le_rfl, hfollows.exists_lastInFlight (fun j hj => hvalid j (by omega))
    (by rw [hword]; exact hcond.accepts) (by rw [hnext]; exact hcond.accepts_next he) ?_⟩
  intro n hcfg hifid hregs
  rw [hword] at hifid
  rw [← hex.branch]
  exact hex.commits hcfg hifid fun q hq => by rw [State.x, hregs]; exact hcond.x_eq h3 q hq

/-- A taken branch costs four cycles, after which all latches but its own hold no-ops. -/
theorem Simulates.taken (htaken : (refEvent r).taken = true) :
    ∃ n, (∀ k, run (k + 4) s = run k n) ∧ n.cycleCount = s.cycleCount + 4 ∧
      Simulates c image (past ++ [refEvent r]) n t := by
  obtain ⟨hvalid, l, hl⟩ := hs.exists_lastInFlight hc hcond hstep (.inl htaken)
  obtain ⟨n, hn, hret, -, hbranch⟩ := hl.exists_cycle hvalid
  obtain ⟨-, hagrees, hwf, rfl⟩ := hs
  obtain ⟨-, m, hex⟩ := exists_executes hstep hcond.jalr
  rw [if_pos htaken] at hbranch
  have hb : TakesBranch l := by
    by_contra hb
    rw [if_neg hb] at hbranch
    cases hbranch
  rw [if_pos hb] at hbranch
  have hcfg := hl.back.cfg
  obtain ⟨hifid, hidex, hexmem⟩ := cycle_latches_of_takesBranch hn hb
  obtain ⟨-, hhalt⟩ := cycling_of_cycle hl.back.status hn (by rw [hb.1]; nofun)
  obtain ⟨hL, -⟩ := admissible_iff.1 hc
  have hpc : n.pc = t.pc := by rw [cycle_pc hn, if_pos hb, Option.some.inj hbranch]
  have hfollows := follows_of_noops hL hret hhalt (by rw [hexmem, hcfg]; rfl) (by rw [hidex, hcfg]; rfl)
    (by rw [hifid, hcfg]; rfl) hpc
  have hself (d : Nat) := writtenWithin_self (past ++ [refEvent r]) d t
  exact ⟨n, hl.run_of_cycle hn, hl.cycleCount_of_cycle hn, ⟨t, t, t, hfollows, hself 1, hself 2, hself 3⟩,
    hagrees.step hex hwf, hex.mem_wf hwf, hex.cfg⟩

/-- A `halt` ends the run four cycles after its fetch. -/
theorem Simulates.halt (hhalt : (refEvent r).instr = .halt) : HaltsAs (run 5 s) t (s.cycleCount + 4) := by
  obtain ⟨hvalid, l, hl⟩ := hs.exists_lastInFlight hc hcond hstep (.inr hhalt)
  obtain ⟨n, hn, hret, hregs, -⟩ := hl.exists_cycle hvalid
  obtain ⟨-, hagrees, -, rfl⟩ := hs
  obtain ⟨-, m, hex⟩ := exists_executes hstep hcond.jalr
  obtain ⟨-, hend, -⟩ := refStep_halt hstep
  have hcfg := hl.back.cfg
  have hop : opcodeOf r.cfg.layout l.exmem.instr = .halt := by
    have hword : l.exmem.instr = refWord r := hl.exmem_instr.trans (hcond.read_eq hagrees).symm
    rw [hword, ← decode_opcode]
    exact congrArg Instr.opcode hhalt
  have hb : ¬ TakesBranch l := not_takesBranch_of_opcode (by rw [hcfg, hop]; nofun)
  obtain ⟨hncfg, -, -, -, hmemwb, -⟩ := cycle_fields hn
  have hdetected : haltDetected n = true := haltDetected_iff.2 (by rw [hncfg, hcfg, hmemwb, hop])
  have hwrite := hex.writeback
  rw [hhalt] at hwrite
  rw [hl.run_of_cycle hn 1, run_succ_of_halt hret.status hdetected]
  exact {
    status := rfl
    regs := hregs.trans (Except.ok.inj hwrite)
    dmem := hret.dmem
    cycleCount := (hl.cycleCount_of_cycle hn :)
    pc := by
      change n.pc = _
      rw [cycle_pc hn, if_neg hb, hl.pc, (hend hhalt).2, BitVec.add_assoc, BitVec.add_assoc]
      rfl }

end Simulates

/-- A run that ends so after `d` cycles ends so with their count added. -/
theorem HaltsAs.of_run {s n : State} {u : RefState} {d N : Nat}
    (h : HaltsAs (run (N + 1) n) u (n.cycleCount + N)) (hrun : ∀ k, run (k + d) s = run k n)
    (hcount : n.cycleCount = s.cycleCount + d) :
    HaltsAs (run (N + d + 1) s) u (s.cycleCount + (N + d)) := by
  rwa [Nat.add_right_comm, hrun, Nat.add_comm N d, ← Nat.add_assoc, ← hcount]

theorem takenCount_cons (e : Event) (es : List Event) :
    takenCount (e :: es) = takenCount es + if e.taken = true then 1 else 0 :=
  List.countP_cons

/-- Where the pipeline follows a reference run that goes on to halt under the conditions, it halts as that run
does, after a cycle for each instruction, three for each taken branch and three for the `halt`. -/
theorem haltsAs_of_refHalts {c : Config} {image : Memory} (hc : c.admissible = true) {r u : RefState}
    {es : List Event} (h : RefHalts r es u) {past : List Event} {s : State}
    (hs : Simulates c image past s r) (hcond : Conditions c image (past ++ es)) :
    HaltsAs (run (es.length + 3 + 3 * takenCount es + 1) s) u
      (s.cycleCount + (es.length + 3 + 3 * takenCount es)) := by
  induction h generalizing past s with
  | @halt r u hr hstep hhalt =>
    have htaken : ¬ (refEvent r).taken = true := by
      rw [taken_iff, hhalt]
      exact fun ⟨hop, _⟩ => nomatch hop
    rw [takenCount_cons, if_neg htaken]
    exact hs.halt hc hcond hstep hhalt
  | @step r t u es hr hstep hne h ih =>
    have hcond' : Conditions c image ((past ++ [refEvent r]) ++ es) := by
      rwa [List.append_assoc, List.singleton_append]
    rw [takenCount_cons, List.length_cons]
    by_cases htaken : (refEvent r).taken = true
    · obtain ⟨n, hrun, hcount, hn⟩ := hs.taken hc hcond hstep htaken
      have hcycles : es.length + 1 + 3 + 3 * (takenCount es + 1) =
        es.length + 3 + 3 * takenCount es + 4 := by omega
      rw [if_pos htaken, hcycles]
      exact (ih hn hcond').of_run hrun hcount
    · obtain ⟨n, hrun, hcount, hn⟩ := hs.next hc hcond hstep (by simpa using htaken) hne
      have hcycles : es.length + 1 + 3 + 3 * (takenCount es + 0) =
        es.length + 3 + 3 * takenCount es + 1 := by omega
      rw [if_neg htaken, hcycles]
      exact (ih hn hcond').of_run hrun hcount

/-- Right after loading the pipeline follows the reference run, with nothing in flight. -/
theorem simulates_initial {c : Config} (hc : c.admissible = true) {image : Memory} (hwf : image.wf = true) :
    Simulates c image [] (State.initial c image) (RefState.initial c image) := by
  obtain ⟨hL, -⟩ := admissible_iff.1 hc
  have hnoop := opcodeOf_noopWord c.layout hL
  have hq := quietBack_of_drained (s := State.initial c image) rfl hL ⟨rfl, rfl, rfl, rfl⟩
  have hret : Retires c image (State.initial c image) (RefState.initial c image) := by
    refine ⟨rfl, rfl, rfl, ?_, rfl⟩
    rw [writebackStage, writeRequestOf_eq, State.decodes, hq.memwb_writes]
    rfl
  have hfollows := follows_of_noops hL hret (haltDetected_eq_false_iff.2 hq.memwb_ne_halt) rfl rfl rfl rfl
  have hself (d : Nat) := writtenWithin_self [] d (RefState.initial c image)
  exact ⟨⟨_, _, _, hfollows, hself 1, hself 2, hself 3⟩, fun _ _ => rfl, hwf, rfl⟩

theorem refLoad_eq_ok {c : Config} {image : List Word} {r : RefState} (h : refLoad c image = .ok r) :
    RefState.initial c (Memory.ofImage image) = r := by
  unfold refLoad at h
  split at h
  · exact Except.ok.inj h
  · cases h

/-- Settles O50: from the loaded states, `haltsAs_of_refHalts`. -/
theorem pipelineEqualsReference : Obligations.PipelineEqualsReference := by
  intro c image r0 s0 k hc hr0 hs0 hhalted es h1 h2 h3 h4 h5 cycles t
  obtain rfl := refLoad_eq_ok hr0
  obtain ⟨-, rfl⟩ := load_eq_ok.1 hs0
  have hfinal := haltsAs_of_refHalts hc (refHalts_of_refRun rfl hhalted)
    (simulates_initial hc (ofImage_wf image)) (past := []) ⟨h1, h2, h3, h4, h5⟩
  exact ⟨hfinal.status, hfinal.regs, hfinal.dmem, hfinal.cycleCount.trans (Nat.zero_add _), hfinal.pc⟩

end Sys2Proof.Machine
end
